-- ==== Sys2Proof/Word.lean ====
section
/-!
DEFINITION. The bit-vector widths of the 80386 page-translation mechanism (spec/00_scope.md R3, section 5: bit 0 is
the least significant bit of every value).
-/

namespace Sys2Proof

/-- A byte of physical memory (10_state.md R14). -/
abbrev Byte := BitVec 8

/-- 32 bits: a linear or physical address, an entry of a table, CR3, EAX (R3: `LINEAR_BITS`, `PHYS_BITS`, `ENTRY_BITS`). -/
abbrev Word := BitVec 32

/-- The linear page number `lin[31:12]` (30_encoding.md R50). -/
abbrev Vpn := BitVec 20

/-- The page frame number: bits 31:12 of a physical address (30_encoding.md R51). -/
abbrev Frame := BitVec 20

/-- The 16-bit selector of a logical address (R3: `SELECTOR_BITS`; R56; 90_conflicts.md C3). -/
abbrev Selector := BitVec 16

/-- Bytes in a page (R3: `PAGE_SIZE`). -/
abbrev pageSize : Nat := 4096

/-- Bytes in the linear and in the physical address space (R3, R30). -/
abbrev spaceSize : Nat := 4294967296

end Sys2Proof
end

