-- ==== Sys2Proof/Config.lean ====
section
/-!
DEFINITION. What the spec leaves open: the draws (`choose v in S`, spec/00_scope.md section 5) as one uninterpreted
constant, and the named constants of R4 that no rule uses. The parameters PageProt, PhysPopulated, SegTranslate and
Handler of R4 are plain data of State (Machine/State.lean, `Platform`), so that a claim holds for every value of them.
-/

namespace Sys2Proof

/-- The draws of the spec, each named for the rule that makes it. -/
inductive Choice where
  /-- Whether the cache still holds the line of this page (41_translation_cache.md R103). -/
  | keepLine (vpn : Vpn)
  /-- Bit 6 of a PDE after a walk that used it (40_page_translation.md R83). -/
  | pdeBit6
  /-- Whether a walk that raises has set A of the PDE (R89). -/
  | pdeAccessed
  /-- Whether a walk that raises for protection has set A of the PTE (R89). -/
  | pteAccessed
  /-- Whether a walk that succeeds fills the cache (41_translation_cache.md R102). -/
  | fill
  /-- The `d` of a line filled by a read whose PTE had D = 1 (R102). -/
  | fillDirty
  /-- Whether part 2 of a split operand is handled before part 1 (40_page_translation.md R88). -/
  | secondPartFirst
  /-- Whether a part of a split operand is transferred as soon as it is translated (R88). -/
  | transferEarly
deriving DecidableEq, Repr

/-- What one operation step draws: an answer to each question. -/
abbrev Draws := Choice → Bool

/-- A supply of draws: the number of the draw, then its answers. -/
abbrev Oracle := Nat → Draws

/-- FREE VALUE (log 19): every draw of the machine. It has no body, so nothing can be proved of a value of it, and a
claim about the machine holds whatever the draws are. -/
opaque Config.choose : Oracle

/-- PRESUMED (R4, 93 G2; log 37): the position of PG in CR0. No rule uses it. -/
def Config.pgBit : Nat := 31

/-- PRESUMED (R4, 93 G5; log 37): the number of the page exception. No rule uses it. -/
def Config.pageExcVector : Nat := 14

/-- OPEN (R4, 92 D7; log 37): the number of entries of the page-translation cache. No rule uses it. -/
opaque Config.tlbCapacity : Nat

end Sys2Proof
end

