-- ==== Sys2Proof/Syntax.lean ====
section
/-!
DEFINITION. The operations of the translation mechanism: one constructor per row of spec/opcode_table.json
(spec/30_encoding.md R58). The privilege `mode` of an operation is an input beside it (10_state.md R17), held by the slot
that carries the operation.
-/

namespace Sys2Proof

/-- The ten operations of 30_encoding.md R58. A size `n` is a number of bytes. -/
inductive Instr where
  /-- `MOV CR3, EAX` (41_translation_cache.md R107), the one instruction the source names. -/
  | movCr3Eax
  /-- `READ lin, n` (40_page_translation.md R85). -/
  | read (lin : Word) (n : Nat)
  /-- `WRITE lin, n, v` (R86); `v` has `8n` bits. -/
  | write (lin : Word) (n : Nat) (v : Word)
  /-- `FETCH lin, n` (R87). -/
  | fetch (lin : Word) (n : Nat)
  /-- `SET_PG` (R71). -/
  | setPg
  /-- `CLR_PG` (R72). -/
  | clrPg
  /-- `LOAD_EAX v` (10_state.md R12). -/
  | loadEax (v : Word)
  /-- `TASK_SWITCH img` (41_translation_cache.md R108); `img` is the CR3 image of the new TSS. -/
  | taskSwitch (img : Word)
  /-- `LOGICAL_READ sel, off, n` (42_segment_and_page.md R122). -/
  | logicalRead (sel : Selector) (off : Word) (n : Nat)
  /-- `LOGICAL_WRITE sel, off, n, v` (R122). -/
  | logicalWrite (sel : Selector) (off : Word) (n : Nat) (v : Word)
deriving DecidableEq, Repr

end Sys2Proof
end

