-- ==== Sys2Proof/WellFormed.lean ====
section
/-!
DEFINITION. Which operations are well formed: sizes in {1, 2, 4} (spec/20_memory.md R34) and values of `8n` bits
(spec/40_page_translation.md R86). Every 32-bit linear address, offset, CR3 image and EAX value and every 16-bit selector
is well formed (30_encoding.md R61).
-/

namespace Sys2Proof

/-- "the model takes `n` in {1, 2, 4} as the operand sizes it admits and refuses others" (20_memory.md R34). -/
def sizeAdmitted (n : Nat) : Bool := n == 1 || n == 2 || n == 4

/-- `v` is a value of `8n` bits (40_page_translation.md R86). -/
def valueFits (n : Nat) (v : Word) : Bool := v.toNat < 256 ^ n

/-- The well-formedness of an operation, as a check. -/
def Instr.wellFormed : Instr → Bool
  | .movCr3Eax => true
  | .read _ n => sizeAdmitted n
  | .write _ n v => sizeAdmitted n && valueFits n v
  | .fetch _ n => sizeAdmitted n
  | .setPg => true
  | .clrPg => true
  | .loadEax _ => true
  | .taskSwitch _ => true
  | .logicalRead _ _ n => sizeAdmitted n
  | .logicalWrite _ _ n v => sizeAdmitted n && valueFits n v

/-- An operation of 30_encoding.md R58 whose operands are those the rule admits. -/
abbrev Instr.WellFormed (i : Instr) : Prop := i.wellFormed = true

end Sys2Proof
end

