-- ==== Sys2Proof/Decode.lean ====
section
/-!
DEFINITION. Decoding and encoding: the bytes of the one instruction that has any (spec/30_encoding.md R59), the code of a
program slot, and the data formats of the mechanism, the linear address (R50) and the table entry (R51, R52, R53).
-/

namespace Sys2Proof

/-! ### Instruction bytes -/

/-- Why bytes are no instruction of the model. -/
inductive DecodeError where
  /-- The bytes end before the instruction does. -/
  | truncated
  /-- No operation of 30_encoding.md R58 has these bytes (R61). -/
  | noEncoding
  /-- `MOV CR3, r` with a register other than EAX: not shown by the source, refused (R59, 92 D27). -/
  | otherSourceRegister
  /-- Bytes are left over after the one instruction of a slot. -/
  | trailingBytes
deriving DecidableEq, Repr

/-- A ModR/M byte as R59 reads it: `mod`, `reg`, `r/m`. PRESUMED (93 G4; log 3). -/
structure ModRm where
  mode : BitVec 2
  reg : BitVec 3
  rm : BitVec 3
deriving DecidableEq, Repr

/-- The fields of a ModR/M byte: mod in 7:6, reg in 5:3, r/m in 2:0 (R59). -/
def splitModRm (b : Byte) : ModRm :=
  ⟨b.extractLsb' 6 2, b.extractLsb' 3 3, b.extractLsb' 0 3⟩

/-- The byte of a ModR/M triple. -/
def joinModRm (m : ModRm) : Byte := m.mode ++ m.reg ++ m.rm

/-- The instruction at the front of a list of bytes, in increasing address order, and the bytes after it (R59).
`0F 22` is "MOV control register from general register"; mod = 11 and reg = 011 select CR3 and r/m = 000 selects EAX. -/
def decodeBytes : List Byte → Except DecodeError (Instr × List Byte)
  | [] => .error .truncated
  | b0 :: r0 =>
    if b0 ≠ 0x0F#8 then .error .noEncoding
    else match r0 with
      | [] => .error .truncated
      | b1 :: r1 =>
        if b1 ≠ 0x22#8 then .error .noEncoding
        else match r1 with
          | [] => .error .truncated
          | b2 :: r2 =>
            let m := splitModRm b2
            if m.mode ≠ 3#2 ∨ m.reg ≠ 3#3 then .error .noEncoding
            else if m.rm ≠ 0#3 then .error .otherSourceRegister
            else .ok (.movCr3Eax, r2)

/-- The bytes of an instruction, in increasing address order; an abstract operation has none (R58, R59). -/
def encodeBytes : Instr → Option (List Byte)
  | .movCr3Eax => some [0x0F#8, 0x22#8, joinModRm ⟨3#2, 3#3, 0#3⟩]
  | .read .. => none
  | .write .. => none
  | .fetch .. => none
  | .setPg => none
  | .clrPg => none
  | .loadEax .. => none
  | .taskSwitch .. => none
  | .logicalRead .. => none
  | .logicalWrite .. => none

/-- What a slot of the operation list holds: an operation of R58 as such, or the bytes of an instruction (R59). The model
decodes the bytes of one slot, never a byte stream (R62; log 1). -/
inductive Code where
  | op (i : Instr)
  | bytes (bs : List Byte)
deriving DecidableEq, Repr

/-- The operation of a slot's code. -/
def decodeCode : Code → Except DecodeError Instr
  | .op i => .ok i
  | .bytes bs =>
    match decodeBytes bs with
    | .error e => .error e
    | .ok (i, []) => .ok i
    | .ok (_, _ :: _) => .error .trailingBytes

/-- The code of an operation: its bytes where the spec gives it any, else the abstract operation. -/
def encodeCode (i : Instr) : Code :=
  match encodeBytes i with
  | some bs => .bytes bs
  | none => .op i

/-- The `n` bytes of a table word, the first byte in the high bits, as spec/opcode_table.json writes a pattern ("first
byte in the high bits of match"; log 2). -/
def tableBytes : Nat → Nat → List Byte
  | 0, _ => []
  | n + 1, w => BitVec.ofNat 8 (w >>> (8 * n)) :: tableBytes n w

/-- The instruction the decoder reads from a table word of `nbits` bits. -/
def decodeTableWord (nbits w : Nat) : Option Instr :=
  match decodeCode (.bytes (tableBytes ((nbits + 7) / 8) w)) with
  | .ok i => some i
  | .error _ => none

/-! ### The linear address (30_encoding.md R50, 40_page_translation.md R73) -/

/-- The three fields of a linear address (Figure 5-8). -/
structure LinearFields where
  dir : BitVec 10
  page : BitVec 10
  offset : BitVec 12
deriving DecidableEq, Repr

/-- `DIR = lin[31:22]`, `PAGE = lin[21:12]`, `OFFSET = lin[11:0]` (R50). -/
def splitLinear (lin : Word) : LinearFields :=
  ⟨lin.extractLsb' 22 10, lin.extractLsb' 12 10, lin.extractLsb' 0 12⟩

/-- The linear address with these fields. -/
def joinLinear (f : LinearFields) : Word := f.dir ++ f.page ++ f.offset

/-- `vpn = lin[31:12] = DIR ∥ PAGE` (R50). -/
def vpnOf (lin : Word) : Vpn := lin.extractLsb' 12 20

/-! ### The table entry (30_encoding.md R51, R52, R53) -/

/-- An entry with P = 1 and its reserved bits zero (R51, Figure 5-10). -/
structure PresentEntry where
  frame : Frame
  avail : BitVec 3
  dirty : Bool
  accessed : Bool
  us : Bool
  rw : Bool
deriving DecidableEq, Repr

/-- What a walk reads in an entry. -/
inductive EntryView where
  /-- P = 0: the rest is available for software use and is not tested (R52). -/
  | notPresent (available : BitVec 31)
  /-- P = 1 and a reserved bit, 8:7 or 4:3, set: refused (R53). -/
  | reserved (rest : BitVec 31)
  /-- P = 1 and the reserved bits zero: usable. -/
  | present (e : PresentEntry)
deriving DecidableEq, Repr

/-- Bit `i` of an entry as a truth value. -/
def bitOf (w : Word) (i : Nat) : Bool := w.getLsbD i

/-- "the decoder of an entry looks at bit 0 first; only when it is 1 do the fields of rule R51 exist" (R52); then the
reserved bits (R53). -/
def decodeEntry (w : Word) : EntryView :=
  if bitOf w 0 = false then .notPresent (w.extractLsb' 1 31)
  else if w.extractLsb' 7 2 ≠ 0#2 ∨ w.extractLsb' 3 2 ≠ 0#2 then .reserved (w.extractLsb' 1 31)
  else .present ⟨w.extractLsb' 12 20, w.extractLsb' 9 3, bitOf w 6, bitOf w 5, bitOf w 2, bitOf w 1⟩

/-- The word of an entry view, field by field as Figures 5-10 and 5-11 draw it. -/
def encodeEntry : EntryView → Word
  | .notPresent a => a ++ 0#1
  | .reserved a => a ++ 1#1
  | .present e =>
    e.frame ++ e.avail ++ 0#2 ++ BitVec.ofBool e.dirty ++ BitVec.ofBool e.accessed ++ 0#2 ++
      BitVec.ofBool e.us ++ BitVec.ofBool e.rw ++ 1#1

/-- A view that some entry has: a `reserved` one has a reserved bit set (bits 8:7 and 4:3 of the entry). -/
def EntryView.wellFormed : EntryView → Bool
  | .notPresent _ => true
  | .reserved a => a.extractLsb' 6 2 != 0#2 || a.extractLsb' 2 2 != 0#2
  | .present _ => true

/-! ### How addresses are assembled (30_encoding.md R57) -/

/-- `pde_addr = CR3[31:12] ∥ DIR ∥ 00`. -/
def pdeAddr (cr3 lin : Word) : Word := cr3.extractLsb' 12 20 ++ (splitLinear lin).dir ++ 0#2

/-- `pte_addr = PDE[31:12] ∥ PAGE ∥ 00`. -/
def pteAddr (table : Frame) (lin : Word) : Word := table ++ (splitLinear lin).page ++ 0#2

/-- `phys = PTE[31:12] ∥ OFFSET` (40_page_translation.md R79). -/
def physAddr (frame : Frame) (lin : Word) : Word := frame ++ (splitLinear lin).offset

end Sys2Proof
end

