-- ==== Sys2Proof/Machine/State.lean ====
section
/-!
DEFINITION. The state of the page-translation mechanism (spec/10_state.md), its parameters (spec/00_scope.md R4, R6) as
plain data, the ways an operation stops, and the state after reset (10_state.md R20, 70_reset_and_hazards.md R160).
-/

namespace Sys2Proof.Machine

/-- The privilege of an access, an input of each operation (10_state.md R17). -/
inductive Mode where
  | user
  | supervisor
deriving DecidableEq, Repr

/-- `acc` of `Translate` (40_page_translation.md R78); a FETCH is a read (R87). -/
inductive Access where
  | read
  | write
deriving DecidableEq, Repr

/-- Why a page exception is raised (60_exceptions.md R140). -/
inductive Cause where
  | notPresent
  | protection
deriving DecidableEq, Repr

/-- Where a page exception was found (60_exceptions.md R140, R141). -/
inductive Level where
  | directory
  | table
  | cache
deriving DecidableEq, Repr

/-- The record of a page exception (60_exceptions.md R141): the model's bookkeeping, no register. -/
structure PageInfo where
  lin : Word
  acc : Access
  mode : Mode
  cause : Cause
  level : Level
deriving DecidableEq, Repr

/-- Physical memory: the bytes that differ from what an unlisted address reads as, addresses strictly rising
(10_state.md R14; log 7). -/
abbrev Memory := List Host.Cell

/-- One line of the page-translation cache (10_state.md R16): the page it is for and the data of its walk. -/
structure TlbLine where
  vpn : Vpn
  frame : Frame
  usD : Bool
  rwD : Bool
  usT : Bool
  rwT : Bool
  d : Bool
deriving DecidableEq, Repr

/-- The page-translation cache (10_state.md R16): `unknown` after reset, else a map from pages to lines, pages rising. -/
inductive Tlb where
  | unknown
  | known (lines : List TlbLine)
deriving DecidableEq, Repr

/-- A place of the operation list (00_scope.md R6): the code and the privilege it is executed with. -/
structure Slot where
  mode : Mode
  code : Code
deriving DecidableEq, Repr

/-- A range of populated physical addresses, both ends in it (20_memory.md R38). -/
structure Region where
  first : Word
  last : Word
deriving DecidableEq, Repr

/-- The operands of the page-level protection check (40_page_translation.md R82). -/
structure ProtCase where
  usD : Bool
  rwD : Bool
  usT : Bool
  rwT : Bool
  acc : Access
  mode : Mode
deriving DecidableEq, Repr

/-- The parameter `PageProt` (40_page_translation.md R82): the default instance of 93 G6, or any other, as the list of the
cases it permits (log 13). -/
inductive PageProt where
  | standard
  | table (permitted : List ProtCase)
deriving DecidableEq, Repr

/-- A set of accesses a segment permits: this kind, mode and size, at offsets from `first` to `last`. -/
structure SegWindow where
  acc : Access
  mode : Mode
  size : Nat
  first : Word
  last : Word
deriving DecidableEq, Repr

/-- The segment-level checks of a descriptor, whose rules are not in the spec (42_segment_and_page.md R121): none, or any
set of permitted accesses. -/
inductive SegCheck where
  | always
  | windows (permitted : List SegWindow)
deriving DecidableEq, Repr

/-- The descriptor that a range of selectors picks, as far as 42_segment_and_page.md R120, R121 fix it: its base address
and which accesses its checks let pass. -/
structure Descriptor where
  firstSel : Selector
  lastSel : Selector
  base : Word
  check : SegCheck
deriving DecidableEq, Repr

/-- What the handler does on one page exception (60_exceptions.md R144). -/
structure HandlerRow where
  info : PageInfo
  ops : List Code
deriving DecidableEq, Repr

/-- The parameters of the step relation that the spec leaves open (00_scope.md R4, R6), as plain data (log 13, 16, 17,
18). No operation changes them. -/
structure Platform where
  /-- `PhysPopulated` (20_memory.md R38). -/
  populated : List Region
  /-- `PageProt` (40_page_translation.md R82). -/
  pageProt : PageProt
  /-- `SegTranslate` (42_segment_and_page.md R121); the first descriptor whose range holds a selector is its own. -/
  segments : List Descriptor
  /-- `Handler` (60_exceptions.md R144); no row for a record means that no handler is given for it. -/
  handler : List HandlerRow
deriving DecidableEq, Repr

/-- The state (10_state.md). -/
structure State where
  /-- CR0.PG (R10). -/
  pg : Bool
  /-- CR3, the page directory base register (R11). -/
  cr3 : Word
  /-- EAX (R12). -/
  eax : Word
  /-- PM (R14, R15). -/
  mem : Memory
  /-- The page-translation cache (R16). -/
  tlb : Tlb
  /-- The privilege of the operation being executed (R17; log 25). -/
  mode : Mode
  /-- The operation list (R13). -/
  program : List Slot
  /-- The index into the operation list (R13). -/
  index : Nat
  /-- The operations the handler has still to run (60_exceptions.md R144). -/
  handlerQueue : List Code
  /-- The record of the last page exception, if one was raised (60_exceptions.md R141). -/
  exception : Option PageInfo
  /-- The results the reads have returned, the newest first (40_page_translation.md R85; log 26). -/
  results : List Word
  /-- The parameters (00_scope.md R4). -/
  platform : Platform
  /-- The model's own: the number of the next draw (log 19). -/
  drawIdx : Nat
deriving DecidableEq, Repr

/-- How the machine stops with a fault. -/
inductive Fault where
  /-- An operation raised the page exception `info` and no handler takes it: no row of `Handler` is for it, or the
  operation is itself one of the handler's (60_exceptions.md R143, R144). `after` is the state the raise leaves (R89).
  Raised by READ, WRITE, FETCH, LOGICAL_READ, LOGICAL_WRITE. Safe: the spec's own outcome; the run stops. -/
  | pageException (info : PageInfo) (after : State)
deriving DecidableEq, Repr

/-- What the spec gives no meaning (00_scope.md section 5, `refuse`). Each is safe: the run ends where the hardware may
go on. -/
inductive Refusal where
  /-- An instruction that has no meaning in the model yet, by its mnemonic. -/
  | notModelled (mnemonic : String)
  /-- SET_PG, CLR_PG, MOV CR3, EAX or TASK_SWITCH in User mode (60_exceptions.md R147, 92 D24). -/
  | privilegeNotInSource
  /-- A load of CR3 with a bit of 11:0 set, by MOV CR3, EAX or TASK_SWITCH (30_encoding.md R55, 92 D5). -/
  | cr3LowBits
  /-- A walk read a present entry with a reserved bit set (30_encoding.md R53). -/
  | reservedBitSet
  /-- A translation with PG = 1 before any flush (40_page_translation.md R78, 92 D6). -/
  | tlbUnknown
  /-- A physical access where there is no memory (20_memory.md R38). -/
  | unpopulated
  /-- An access that runs past linear address FFFFFFFF (40_page_translation.md R85, 92 D17). -/
  | linearWrap
  /-- `SegTranslate` failed (42_segment_and_page.md R121). -/
  | segmentCheckNotInSource
  /-- A memory operation of a size other than 1, 2, 4 (20_memory.md R34). -/
  | sizeNotAdmitted
  /-- The step met code that is no operation (30_encoding.md R61). -/
  | undecodable (e : DecodeError)
  /-- The step met an operation with operands the spec does not admit (20_memory.md R34, 40_page_translation.md R86). -/
  | illFormed
  /-- The step after the last operation of the list: the run has ended normally (00_scope.md R7). -/
  | endOfProgram
deriving DecidableEq, Repr

/-- What a part of an operation comes to (00_scope.md section 5): a value and the state after it, the page exception with
the state its raise leaves, or a refusal. -/
inductive Attempt (α : Type) where
  | done (a : α) (s : State)
  | raise (info : PageInfo) (s : State)
  | refuse (r : Refusal)
deriving DecidableEq, Repr

/-- What an access does at its physical address. -/
inductive Transfer where
  | load
  | store (v : Word)
deriving DecidableEq, Repr

/-- One part of an operand (40_page_translation.md R88): its linear address, its length in bytes and the number of
lower-order bytes of the value before it. -/
structure Part where
  lin : Word
  len : Nat
  pos : Nat
deriving DecidableEq, Repr

/-- The parameters at reset: all of memory populated (log 16), the spec's default protection (log 13), every selector a
flat segment (log 17), no handler (log 18). -/
def Platform.reset : Platform where
  populated := [⟨0#32, 0xFFFFFFFF#32⟩]
  pageProt := .standard
  segments := [⟨0#16, 0xFFFF#16, 0#32, .always⟩]
  handler := []

/-- The machine right after reset (10_state.md R20, 70_reset_and_hazards.md R160): PG = 0 and the cache unknown; CR3 and
EAX, which the spec leaves unspecified, at 0 (log 5, 6); memory with nothing listed (log 7). -/
def State.reset : State where
  pg := false
  cr3 := 0#32
  eax := 0#32
  mem := []
  tlb := .unknown
  mode := .supervisor
  program := []
  index := 0
  handlerQueue := []
  exception := none
  results := []
  platform := Platform.reset
  drawIdx := 0

end Sys2Proof.Machine
end

