-- ==== Sys2Proof/Machine/Ops.lean ====
section
/-!
DEFINITION. The named operations over memory, the cache and the registers; completing an operation, and taking the page
exception (spec/10_state.md, 20_memory.md, 41_translation_cache.md, 60_exceptions.md).
-/

namespace Sys2Proof.Machine

/-! ### Physical memory (10_state.md R14, 20_memory.md R31, R39) -/

/-- DESIGN CHOICE (log 7): what an address that no entry of the memory list names reads as. -/
def unlistedByte : Byte := 0#8

/-- `PM[a]`. -/
def Memory.read : Memory → Nat → Byte
  | [], _ => unlistedByte
  | (x, c) :: rest, a => if x = a then c else Memory.read rest a

/-- `PM[a] <- b`, keeping the list rising and free of entries equal to the unlisted byte. -/
def Memory.write : Memory → Nat → Byte → Memory
  | [], a, b => if b = unlistedByte then [] else [(a, b)]
  | (x, c) :: rest, a, b =>
    if a < x then (if b = unlistedByte then (x, c) :: rest else (a, b) :: (x, c) :: rest)
    else if a = x then (if b = unlistedByte then rest else (a, b) :: rest)
    else (x, c) :: Memory.write rest a b

/-- Every address of the list is `lo` or more, they rise strictly, all lie in the physical space, and no entry holds the
unlisted byte. -/
def Memory.wfFrom : Nat → Memory → Bool
  | _, [] => true
  | lo, (x, c) :: rest => lo ≤ x && x < spaceSize && c != unlistedByte && Memory.wfFrom (x + 1) rest

/-- The canonical form of memory: equal memories are equal lists. -/
def Memory.wf (m : Memory) : Bool := Memory.wfFrom 0 m

/-- The `n` bytes at `a`, the first the least significant (20_memory.md R31). -/
def readLE (m : Memory) (a : Nat) : Nat → Word
  | 0 => 0#32
  | n + 1 => (Memory.read m a).setWidth 32 ||| (readLE m (a + 1) n <<< 8)

/-- Stores the low `n` bytes of `v` at `a`, the first the least significant (20_memory.md R31). -/
def writeLE (m : Memory) (a : Nat) : Nat → Word → Memory
  | 0, _ => m
  | n + 1, v => Memory.write (writeLE m (a + 1) n (v >>> 8)) a (v.setWidth 8)

/-- `PhysRead(pa, n)` for at most four bytes (00_scope.md section 5). -/
def physRead (m : Memory) (pa : Word) (n : Nat) : Word := readLE m pa.toNat n

/-- `PhysWrite(pa, n, v)` for at most four bytes (00_scope.md section 5). -/
def physWrite (m : Memory) (pa : Word) (n : Nat) (v : Word) : Memory := writeLE m pa.toNat n v

/-- `PhysPopulated(pa .. pa+n-1)` (20_memory.md R38). -/
def populatedAt (p : Platform) (pa : Word) (n : Nat) : Bool :=
  (List.range n).all fun k => p.populated.any fun r => r.first.toNat ≤ pa.toNat + k && pa.toNat + k ≤ r.last.toNat

/-! ### Field updates -/

/-- `CR0.PG <- b`. -/
def State.withPg (s : State) (b : Bool) : State := { s with pg := b }
/-- `CR3 <- v`. -/
def State.withCr3 (s : State) (v : Word) : State := { s with cr3 := v }
/-- `x[EAX] <- v`. -/
def State.withEax (s : State) (v : Word) : State := { s with eax := v }
/-- The state with this memory. -/
def State.withMem (s : State) (m : Memory) : State := { s with mem := m }
/-- The state with this cache. -/
def State.withTlb (s : State) (t : Tlb) : State := { s with tlb := t }
/-- The state in which the next operation runs with this privilege. -/
def State.withMode (s : State) (m : Mode) : State := { s with mode := m }
/-- The state with this operation list. -/
def State.withProgram (s : State) (p : List Slot) : State := { s with program := p }
/-- The state at this index of the operation list. -/
def State.withIndex (s : State) (i : Nat) : State := { s with index := i }
/-- The state in which the handler has these operations left. -/
def State.withQueue (s : State) (q : List Code) : State := { s with handlerQueue := q }
/-- The state with this record as that of the last page exception. -/
def State.withException (s : State) (info : PageInfo) : State := { s with exception := some info }
/-- The state in which a read has returned `v`. -/
def State.pushResult (s : State) (v : Word) : State := { s with results := v :: s.results }
/-- The state after one draw. -/
def State.tick (s : State) : State := { s with drawIdx := s.drawIdx + 1 }

/-! ### The page-translation cache (41_translation_cache.md) -/

/-- The line of a page, if the cache holds one (R101). -/
def lookupLine (vpn : Vpn) : List TlbLine → Option TlbLine
  | [] => none
  | l :: rest => if l.vpn = vpn then some l else lookupLine vpn rest

/-- `TLB[vpn] <- line`, replacing the line of that page and keeping the pages rising (R102). -/
def insertLine (l : TlbLine) : List TlbLine → List TlbLine
  | [] => [l]
  | x :: rest =>
    if l.vpn.toNat < x.vpn.toNat then l :: x :: rest
    else if l.vpn = x.vpn then l :: rest
    else x :: insertLine l rest

/-- The restriction of the cache to the lines a draw keeps (R103). -/
def keptLines (ch : Draws) (m : List TlbLine) : List TlbLine := m.filter fun l => ch (.keepLine l.vpn)

/-- Drop: the cache may lose any of its lines (R103). -/
def dropLines (O : Oracle) (s : State) : State :=
  match s.tlb with
  | .unknown => s
  | .known m => (s.withTlb (.known (keptLines (O s.drawIdx) m))).tick

/-- Flush: `TLB <- known({})`, whatever it held (R106). -/
def flush (s : State) : State := s.withTlb (.known [])

/-- The pages of the lines are `lo` or more and rise strictly. -/
def linesRiseFrom : Nat → List TlbLine → Bool
  | _, [] => true
  | lo, l :: rest => lo ≤ l.vpn.toNat && linesRiseFrom (l.vpn.toNat + 1) rest

/-- The canonical form of the cache: a map from pages, at most one line a page (10_state.md R16). -/
def Tlb.wf : Tlb → Bool
  | .unknown => true
  | .known m => linesRiseFrom 0 m

/-! ### Sequencing -/

/-- First one part of an operation, then the next; a raise or a refusal ends it, and the effects so far stay (R88). -/
def Attempt.andThen {α β : Type} (r : Attempt α) (f : α → State → Attempt β) : Attempt β :=
  match r with
  | .done a s => f a s
  | .raise info s => .raise info s
  | .refuse e => .refuse e

/-- An operation completes: "an operation that completes advances the index by one" (10_state.md R13); an operation of the
handler is taken off the handler's list instead, and after the last of them the operation that raised is executed again
(60_exceptions.md R144): this is the return from the exception. -/
def completeOp (s : State) : State :=
  match s.handlerQueue with
  | [] => s.withIndex (s.index + 1)
  | _ :: rest => s.withQueue rest

/-- What `Handler` does for a record, if it is given (60_exceptions.md R144). -/
def handlerFor (info : PageInfo) : List HandlerRow → Option (List Code)
  | [] => none
  | r :: rest => if r.info = info then some r.ops else handlerFor info rest

/-- Taking the page exception (60_exceptions.md R141, R143, R144): the record is kept, the index stays, and the handler's
operations are run before the operation is executed again. With no handler for the record, or in the handler itself, the
run stops with the fault. -/
def takePageException (info : PageInfo) (s : State) : Host.Outcome State Fault Refusal :=
  match s.handlerQueue, handlerFor info s.platform.handler with
  | [], some ops => .next ((s.withException info).withQueue ops)
  | [], none => .fault (.pageException info (s.withException info))
  | _ :: _, _ => .fault (.pageException info (s.withException info))

/-- The end of an operation whose work came to `r`; `k` is what completing it with the value leaves. -/
def finish {α : Type} (r : Attempt α) (k : α → State → State) : Host.Outcome State Fault Refusal :=
  match r with
  | .done a s => .next (completeOp (k a s))
  | .raise info s => takePageException info s
  | .refuse e => .refused e

/-- An operation that only the most privileged mode may run: refused, not trapped, in User mode (60_exceptions.md R147,
92 D24). -/
def privileged (s : State) (k : Host.Outcome State Fault Refusal) : Host.Outcome State Fault Refusal :=
  match s.mode with
  | .supervisor => k
  | .user => .refused .privilegeNotInSource

/-- A load of CR3 (30_encoding.md R55, 92 D5): refused where a bit of 11:0 is set. -/
def loadCr3 (v : Word) (k : Host.Outcome State Fault Refusal) : Host.Outcome State Fault Refusal :=
  if v.extractLsb' 0 12 = 0#12 then k else .refused .cr3LowBits

end Sys2Proof.Machine
end

