-- ==== Sys2Proof/Machine/Flags.lean ====
section
/-!
DEFINITION. The status bits of table entries. The mechanism has no processor flag (spec/10_state.md R19); what it sets are
the Accessed and Dirty bits of entries in memory (spec/30_encoding.md R51, 40_page_translation.md R80, R81, R83, R84).
-/

namespace Sys2Proof.Machine

/-- Bit 5, A (30_encoding.md R51). -/
def accessedMask : Word := 0x00000020#32

/-- Bit 6, D (30_encoding.md R51). -/
def dirtyMask : Word := 0x00000040#32

/-- What an update ORs into the PTE: A, and D for a write (40_page_translation.md R80, R81). -/
def pteUpdateMask : Access → Word
  | .read => accessedMask
  | .write => accessedMask ||| dirtyMask

/-- The entry with bit 6 drawn (40_page_translation.md R83). -/
def withBit6 (w : Word) (b : Bool) : Word :=
  if b then w ||| dirtyMask else w &&& ~~~dirtyMask

/-- A read-modify-write of the aligned entry at `at_` (40_page_translation.md R80, 92 D16). -/
def updateEntry (m : Memory) (at_ : Word) (f : Word → Word) : Memory :=
  physWrite m at_ 4 (f (physRead m at_ 4))

/-- Sets bits of an entry; none is cleared (40_page_translation.md R84). -/
def orEntry (m : Memory) (at_ mask : Word) : Memory := updateEntry m at_ (· ||| mask)

/-- Draws bit 6 of a PDE (40_page_translation.md R83). -/
def drawPdeBit6 (m : Memory) (at_ : Word) (b : Bool) : Memory := updateEntry m at_ (withBit6 · b)

/-- The tables after a walk that succeeds: A of the PDE, then A, and D for a write, of the PTE (R80, R81), then the draw of
PDE bit 6 (R83), which is not made where the one entry is also the PTE of a write (R91, 90_conflicts.md C10). -/
def markUsed (ch : Draws) (m : Memory) (pdeAt pteAt : Word) (acc : Access) : Memory :=
  let m1 := orEntry (orEntry m pdeAt accessedMask) pteAt (pteUpdateMask acc)
  if pdeAt = pteAt ∧ acc = .write then m1 else drawPdeBit6 m1 pdeAt (ch .pdeBit6)

/-- A PDE that was used by a walk that raised at the PTE: A drawn in {unchanged, 1}, bit 6 drawn (R89). -/
def markPdeOnRaise (ch : Draws) (m : Memory) (pdeAt : Word) : Memory :=
  drawPdeBit6 (orEntry m pdeAt (if ch .pdeAccessed then accessedMask else 0#32)) pdeAt (ch .pdeBit6)

/-- A PTE found present by a walk that raised for protection: A drawn in {unchanged, 1} (R89). -/
def markPteOnRaise (ch : Draws) (m : Memory) (pteAt : Word) : Memory :=
  orEntry m pteAt (if ch .pteAccessed then accessedMask else 0#32)

end Sys2Proof.Machine
end

