-- ==== Sys2Proof/Machine/Translate.lean ====
section
/-!
DEFINITION. Page translation: the protection check, the walk and `Translate` (spec/40_page_translation.md R70 to R91,
spec/41_translation_cache.md R101 to R111). The draws are an argument; the operations supply `Config.choose`.
-/

namespace Sys2Proof.Machine

/-- PRESUMED (93 G6; log 13): the default instance of `PageProt`. -/
def standardProt (c : ProtCase) : Bool :=
  c.mode == .supervisor || (c.usD && c.usT && (c.acc == .read || (c.rwD && c.rwT)))

/-- `PageProt`: whether the access is permitted (R82). -/
def protPermits (p : PageProt) (c : ProtCase) : Bool :=
  match p with
  | .standard => standardProt c
  | .table permitted => permitted.contains c

/-- The protection check of a cached line, with the mode of the access (41_translation_cache.md R111). -/
def linePermits (p : Platform) (l : TlbLine) (acc : Access) (mode : Mode) : Bool :=
  protPermits p.pageProt ⟨l.usD, l.rwD, l.usT, l.rwT, acc, mode⟩

/-- The protection check of a walk (R78). -/
def walkPermits (p : Platform) (pde pte : PresentEntry) (acc : Access) (mode : Mode) : Bool :=
  protPermits p.pageProt ⟨pde.us, pde.rw, pte.us, pte.rw, acc, mode⟩

/-- The `d` of a line a walk fills (41_translation_cache.md R102, 10_state.md R16): 1 for a write; else drawn where the PTE
had D = 1 when it was read and still has it at the end of the walk (log 21). -/
def filledD (ch : Draws) (acc : Access) (pte : PresentEntry) (pteAtEnd : Word) : Bool :=
  acc == .write || (pte.dirty && bitOf pteAtEnd 6 && ch .fillDirty)

/-- The optional cache fill after a walk that succeeds (41_translation_cache.md R102); `m` is memory at its end. -/
def fillLine (ch : Draws) (t : Tlb) (m : Memory) (pteAt lin : Word) (acc : Access) (pde pte : PresentEntry) : Tlb :=
  match t with
  | .unknown => .unknown
  | .known lines =>
    if ch .fill then
      .known (insertLine
        ⟨vpnOf lin, pte.frame, pde.us, pde.rw, pte.us, pte.rw, filledD ch acc pte (physRead m pteAt 4)⟩ lines)
    else .known lines

/-- The end of a walk that found both entries present: protection, then the updates, the draw and the fill (R78). -/
def walkEnd (ch : Draws) (lin : Word) (acc : Access) (pdeAt pteAt : Word) (pde pte : PresentEntry) (s : State) :
    Attempt Word :=
  if walkPermits s.platform pde pte acc s.mode then
    let m := markUsed ch s.mem pdeAt pteAt acc
    .done (physAddr pte.frame lin) ((s.withMem m).withTlb (fillLine ch s.tlb m pteAt lin acc pde pte))
  else
    .raise ⟨lin, acc, s.mode, .protection, .table⟩
      (s.withMem (markPteOnRaise ch (markPdeOnRaise ch s.mem pdeAt) pteAt))

/-- The second level of a walk (R76, R77), with a PDE found present. -/
def walkTable (ch : Draws) (lin : Word) (acc : Access) (pdeAt : Word) (pde : PresentEntry) (s : State) : Attempt Word :=
  let pteAt := pteAddr pde.frame lin
  if populatedAt s.platform pteAt 4 then
    match decodeEntry (physRead s.mem pteAt 4) with
    | .notPresent _ =>
      .raise ⟨lin, acc, s.mode, .notPresent, .table⟩ (s.withMem (markPdeOnRaise ch s.mem pdeAt))
    | .reserved _ => .refuse .reservedBitSet
    | .present pte => walkEnd ch lin acc pdeAt pteAt pde pte s
  else .refuse .unpopulated

/-- `Walk(lin, acc, mode)` (R74, R75, R78): all its accesses are physical (R90). -/
def walk (ch : Draws) (lin : Word) (acc : Access) (s : State) : Attempt Word :=
  let pdeAt := pdeAddr s.cr3 lin
  if populatedAt s.platform pdeAt 4 then
    match decodeEntry (physRead s.mem pdeAt 4) with
    | .notPresent _ => .raise ⟨lin, acc, s.mode, .notPresent, .directory⟩ s
    | .reserved _ => .refuse .reservedBitSet
    | .present pde => walkTable ch lin acc pdeAt pde s
  else .refuse .unpopulated

/-- Whether an access may use a cached line: "A write may use a cached entry only if the entry's `d` is 1"
(41_translation_cache.md R110). -/
def lineUsable (acc : Access) (l : TlbLine) : Bool := acc == .read || l.d

/-- The line an access hits, if it hits (41_translation_cache.md R101, R110). -/
def hitLine (lin : Word) (acc : Access) (m : List TlbLine) : Option TlbLine :=
  match lookupLine (vpnOf lin) m with
  | some l => if lineUsable acc l then some l else none
  | none => none

/-- A hit: no entry is read or written; protection is checked on the cached bits (41_translation_cache.md R101, R111). -/
def hit (lin : Word) (acc : Access) (l : TlbLine) (s : State) : Attempt Word :=
  if linePermits s.platform l acc s.mode then .done (physAddr l.frame lin) s
  else .raise ⟨lin, acc, s.mode, .protection, .cache⟩ s

/-- The hit test and then the hit or the walk, with the lines the cache holds (R78). -/
def hitOrWalk (ch : Draws) (lin : Word) (acc : Access) (m : List TlbLine) (s : State) : Attempt Word :=
  match hitLine lin acc m with
  | some l => hit lin acc l s
  | none => walk ch lin acc s

/-- The state in which a translation tests for a hit: of the lines `m` those that a draw keeps (41_translation_cache.md
R103). Two draws are numbered, this one and that of the walk that may follow. -/
def droppedState (O : Oracle) (m : List TlbLine) (s : State) : State :=
  ((s.withTlb (.known (keptLines (O s.drawIdx) m))).tick).tick

/-- `Translate(lin, acc, mode)` (R78). With PG = 0 the linear address is the physical address (R70). With PG = 1 the cache
may first lose lines (41_translation_cache.md R103); then it is a hit or a walk. -/
def translate (O : Oracle) (lin : Word) (acc : Access) (s : State) : Attempt Word :=
  if s.pg then
    match s.tlb with
    | .unknown => .refuse .tlbUnknown
    | .known m => hitOrWalk (O (s.drawIdx + 1)) lin acc (keptLines (O s.drawIdx) m) (droppedState O m s)
  else .done lin s

end Sys2Proof.Machine
end

