-- ==== Sys2Proof/Machine/Operands.lean ====
section
/-!
DEFINITION. The operand forms of the memory operations: a linear operand within a page (spec/40_page_translation.md R85,
R86), one across a page boundary (R88), and a logical operand (spec/42_segment_and_page.md R120, R121).
-/

namespace Sys2Proof.Machine

/-- The access kind of a transfer. -/
def Transfer.acc : Transfer → Access
  | .load => .read
  | .store _ => .write

/-- The transfer of one part of the operand at its physical address (R85, R86; 20_memory.md R38). A load gives the part's
bytes at their place in the value; a store takes them from there. -/
def transfer (x : Transfer) (p : Part) (pa : Word) (s : State) : Attempt Word :=
  if populatedAt s.platform pa p.len then
    match x with
    | .load => .done (physRead s.mem pa p.len <<< (8 * p.pos)) s
    | .store v => .done 0#32 (s.withMem (physWrite s.mem pa p.len (v >>> (8 * p.pos))))
  else .refuse .unpopulated

/-- One part translated and transferred at once. -/
def accessPart (O : Oracle) (x : Transfer) (p : Part) (s : State) : Attempt Word :=
  (translate O p.lin x.acc s).andThen fun pa s1 => transfer x p pa s1

/-- Two parts in this order, each transferred as soon as it is translated (R88, `early`). -/
def accessEarly (O : Oracle) (x : Transfer) (p q : Part) (s : State) : Attempt Word :=
  (accessPart O x p s).andThen fun v s1 => (accessPart O x q s1).andThen fun w s2 => .done (v ||| w) s2

/-- Two parts translated in this order, then both transferred (R88, not `early`). -/
def accessLate (O : Oracle) (x : Transfer) (p q : Part) (s : State) : Attempt Word :=
  (translate O p.lin x.acc s).andThen fun pa s1 =>
    (translate O q.lin x.acc s1).andThen fun qa s2 =>
      (transfer x p pa s2).andThen fun v s3 => (transfer x q qa s3).andThen fun w s4 => .done (v ||| w) s4

/-- Two parts in this order, with the early transfer or without (R88). -/
def accessOrdered (O : Oracle) (early : Bool) (x : Transfer) (p q : Part) (s : State) : Attempt Word :=
  if early then accessEarly O x p q s else accessLate O x p q s

/-- An operand in two parts, in a drawn order and with a drawn early or late transfer (R88). -/
def accessSplit (O : Oracle) (x : Transfer) (p q : Part) (s : State) : Attempt Word :=
  if O s.drawIdx .secondPartFirst then accessOrdered O (O s.drawIdx .transferEarly) x q p s.tick
  else accessOrdered O (O s.drawIdx .transferEarly) x p q s.tick

/-- The offset of a linear address within its page, as a number. -/
def pageOffset (lin : Word) : Nat := (splitLinear lin).offset.toNat

/-- Whether the operand lies across a page boundary: `lin[11:0] + n > 4096` (R85, 20_memory.md R33). -/
def crossesPage (lin : Word) (n : Nat) : Bool := pageSize < pageOffset lin + n

/-- The number of bytes of an operand before the page boundary: `k = 4096 - lin[11:0]` (R88). -/
def bytesBefore (lin : Word) : Nat := pageSize - pageOffset lin

/-- Part 1 of an operand across a page boundary: its low-order `k` bytes (R88). -/
def firstPart (lin : Word) : Part := ⟨lin, bytesBefore lin, 0⟩

/-- Part 2 of an operand across a page boundary: the rest, at offset 0 of the next page (R88). -/
def secondPart (lin : Word) (n : Nat) : Part := ⟨lin + BitVec.ofNat 32 (bytesBefore lin), n - bytesBefore lin, bytesBefore lin⟩

/-- Whether an access runs past linear address FFFFFFFF: `lin + n > 2^32` (R85, 92 D17). -/
def wrapsLinear (lin : Word) (n : Nat) : Bool := spaceSize < lin.toNat + n

/-- A memory access of `n` bytes at a linear address: `MemRead` and `MemWrite` (R85, R86). -/
def access (O : Oracle) (x : Transfer) (lin : Word) (n : Nat) (s : State) : Attempt Word :=
  if sizeAdmitted n = false then .refuse .sizeNotAdmitted
  else if wrapsLinear lin n then .refuse .linearWrap
  else if crossesPage lin n then accessSplit O x (firstPart lin) (secondPart lin n) s
  else accessPart O x ⟨lin, n, 0⟩ s

/-- `READ` of a linear operand, with these draws (R85): the result is returned. -/
def readLinear (O : Oracle) (lin : Word) (n : Nat) (s : State) : Host.Outcome State Fault Refusal :=
  finish (access O .load lin n s) fun v s' => s'.pushResult v

/-- `WRITE` of a linear operand, with these draws (R86). -/
def writeLinear (O : Oracle) (lin : Word) (n : Nat) (v : Word) (s : State) : Host.Outcome State Fault Refusal :=
  finish (access O (.store v) lin n s) fun _ s' => s'

/-- The descriptor a selector picks (42_segment_and_page.md R120). -/
def descriptorOf (sel : Selector) : List Descriptor → Option Descriptor
  | [] => none
  | d :: rest => if d.firstSel.toNat ≤ sel.toNat ∧ sel.toNat ≤ d.lastSel.toNat then some d else descriptorOf sel rest

/-- Whether a window permits an access. -/
def windowPermits (off : Word) (n : Nat) (acc : Access) (mode : Mode) (w : SegWindow) : Bool :=
  w.acc == acc && w.mode == mode && w.size == n && w.first.toNat ≤ off.toNat && off.toNat ≤ w.last.toNat

/-- Whether a descriptor's checks let an access pass (R121). -/
def segPermits (c : SegCheck) (off : Word) (n : Nat) (acc : Access) (mode : Mode) : Bool :=
  match c with
  | .always => true
  | .windows ws => ws.any (windowPermits off n acc mode)

/-- `SegTranslate(sel, off, n, acc, mode)`: `(base + offset) mod 2^32`, or a segment-level failure (R120, R121). -/
def segTranslate (p : Platform) (sel : Selector) (off : Word) (n : Nat) (acc : Access) (mode : Mode) : Option Word :=
  match descriptorOf sel p.segments with
  | none => none
  | some d => if segPermits d.check off n acc mode then some (d.base + off) else none

/-- The access of a logical operand: phase 1 completes before phase 2 starts; its failure is refused (R121, R122, R128). -/
def withLinear (lin : Option Word) (k : Word → Host.Outcome State Fault Refusal) : Host.Outcome State Fault Refusal :=
  match lin with
  | some l => k l
  | none => .refused .segmentCheckNotInSource

end Sys2Proof.Machine
end

