-- ==== Sys2Proof/Machine/Access.lean ====
section
/-!
DEFINITION. The memory operations at a linear address: READ, WRITE, FETCH (spec/40_page_translation.md R85, R86, R87).
-/

namespace Sys2Proof.Machine

/-- `READ lin, n` (R85). -/
def execRead (lin : Word) (n : Nat) (s : State) : Host.Outcome State Fault Refusal :=
  readLinear Config.choose lin n s

/-- `WRITE lin, n, v` (R86). -/
def execWrite (lin : Word) (n : Nat) (v : Word) (s : State) : Host.Outcome State Fault Refusal :=
  writeLinear Config.choose lin n v s

/-- `FETCH lin, n`: "exactly `READ lin, n` with the same `mode`" (R87, 20_memory.md R42). -/
def execFetch (lin : Word) (n : Nat) (s : State) : Host.Outcome State Fault Refusal :=
  readLinear Config.choose lin n s

end Sys2Proof.Machine
end

