-- ==== Sys2Proof/Machine/Control.lean ====
section
/-!
DEFINITION. The control operations: SET_PG, CLR_PG (spec/40_page_translation.md R71, R72), LOAD_EAX (spec/10_state.md R12),
MOV CR3, EAX and TASK_SWITCH (spec/41_translation_cache.md R107, R108).
-/

namespace Sys2Proof.Machine

/-- `SET_PG`: `CR0.PG <- 1`; the cache is left as it is (R71, 92 D25). -/
def execSetPg (s : State) : Host.Outcome State Fault Refusal :=
  privileged s (.next (completeOp (s.withPg true)))

/-- `CLR_PG`: `CR0.PG <- 0`; the cache keeps its contents (R72, 92 D25). -/
def execClrPg (s : State) : Host.Outcome State Fault Refusal :=
  privileged s (.next (completeOp (s.withPg false)))

/-- `LOAD_EAX v`: `x[EAX] <- v` (R12). -/
def execLoadEax (v : Word) (s : State) : Host.Outcome State Fault Refusal :=
  .next (completeOp (s.withEax v))

/-- `MOV CR3, EAX`: CR3 is loaded and the whole cache is flushed, also where the value is CR3's own (R107). -/
def execMovCr3Eax (s : State) : Host.Outcome State Fault Refusal :=
  privileged s (loadCr3 s.eax (.next (completeOp (flush (s.withCr3 s.eax)))))

/-- `TASK_SWITCH img`: CR3 is loaded, and the cache is flushed where the image differs from CR3 (R108, 92 D26). -/
def execTaskSwitch (img : Word) (s : State) : Host.Outcome State Fault Refusal :=
  privileged s (loadCr3 img (.next (completeOp (if img ≠ s.cr3 then flush (s.withCr3 img) else s.withCr3 img))))

end Sys2Proof.Machine
end

