-- ==== Sys2Proof/Machine/Logical.lean ====
section
/-!
DEFINITION. The memory operations at a logical address: LOGICAL_READ, LOGICAL_WRITE (spec/42_segment_and_page.md R122).
-/

namespace Sys2Proof.Machine

/-- `LOGICAL_READ sel, off, n`: `SegTranslate` for a read, then `MemRead` (R122). -/
def execLogicalRead (sel : Selector) (off : Word) (n : Nat) (s : State) : Host.Outcome State Fault Refusal :=
  withLinear (segTranslate s.platform sel off n .read s.mode) fun lin => readLinear Config.choose lin n s

/-- `LOGICAL_WRITE sel, off, n, v`: `SegTranslate` for a write, then `MemWrite` (R122). -/
def execLogicalWrite (sel : Selector) (off : Word) (n : Nat) (v : Word) (s : State) :
    Host.Outcome State Fault Refusal :=
  withLinear (segTranslate s.platform sel off n .write s.mode) fun lin => writeLinear Config.choose lin n v s

end Sys2Proof.Machine
end

