-- ==== Sys2Proof/Machine/Dispatch.lean ====
section
/-!
DEFINITION. The meaning of each operation, one arm per constructor (spec/30_encoding.md R58).
-/

namespace Sys2Proof.Machine

def exec (i : Instr) (s : State) : Host.Outcome State Fault Refusal :=
  match i with
  | .movCr3Eax => Sys2Proof.Machine.execMovCr3Eax s
  | .read lin n => Sys2Proof.Machine.execRead lin n s
  | .write lin n v => Sys2Proof.Machine.execWrite lin n v s
  | .fetch lin n => Sys2Proof.Machine.execFetch lin n s
  | .setPg => Sys2Proof.Machine.execSetPg s
  | .clrPg => Sys2Proof.Machine.execClrPg s
  | .loadEax v => Sys2Proof.Machine.execLoadEax v s
  | .taskSwitch img => Sys2Proof.Machine.execTaskSwitch img s
  | .logicalRead sel off n => Sys2Proof.Machine.execLogicalRead sel off n s
  | .logicalWrite sel off n v => Sys2Proof.Machine.execLogicalWrite sel off n v s

end Sys2Proof.Machine
end

