-- ==== Sys2Proof/Machine/Fetch.lean ====
section
/-!
DEFINITION. Which code runs next and what surrounds its execution (spec/10_state.md R13, spec/60_exceptions.md R144,
spec/41_translation_cache.md R103).
-/

namespace Sys2Proof.Machine

/-- The slot that runs next: an operation of the handler in Supervisor mode while there is one (60_exceptions.md R144),
else the operation the index names (10_state.md R13). -/
def nextSlot (s : State) : Option Slot :=
  match s.handlerQueue with
  | c :: _ => some ⟨.supervisor, c⟩
  | [] => s.program[s.index]?

/-- What happens before an operation executes: the cache may lose lines between any two operations
(41_translation_cache.md R103), and the slot gives the privilege (10_state.md R17). -/
def beforeOp (O : Oracle) (m : Mode) (s : State) : State := (dropLines O s).withMode m

/-- The state with this code where `nextSlot` takes it from, to run with the privilege of the state: in place of the
handler's next operation, of the list's operation at the index, or at the end of the list. -/
def placeCode (s : State) (c : Code) : State :=
  match s.handlerQueue with
  | _ :: rest => s.withQueue (c :: rest)
  | [] =>
    if s.index < s.program.length then s.withProgram (s.program.set s.index ⟨s.mode, c⟩)
    else (s.withProgram (s.program ++ [⟨s.mode, c⟩])).withIndex s.program.length

end Sys2Proof.Machine
end

