-- ==== Sys2Proof/Machine/Step.lean ====
section
/-!
DEFINITION. One step of the machine: the next operation of the list, decoded, checked and executed (spec/00_scope.md R6,
R7, spec/10_state.md R13).
-/

namespace Sys2Proof.Machine

/-- One step. Past the last operation the run has ended (00_scope.md R7); code that is no operation is refused
(30_encoding.md R61). -/
def step (s : State) : Host.Outcome State Fault Refusal :=
  match nextSlot s with
  | none => .refused .endOfProgram
  | some slot =>
    match decodeCode slot.code with
    | .error e => .refused (.undecodable e)
    | .ok i => if i.wellFormed then exec i (beforeOp Config.choose slot.mode s) else .refused .illFormed

/-- The state with the instruction of a table word placed where `step` fetches next (log 1, 2). -/
def State.withFetchWord (s : State) (nbits w : Nat) : State :=
  placeCode s (.bytes (tableBytes ((nbits + 7) / 8) w))

end Sys2Proof.Machine
end

