-- ==== Sys2Proof/Safety.lean ====
section
/-!
DEFINITION. What counts as a sound state and a safe run, and the words in which the statements speak: when a walk finds its
entries, which bytes a translation may write, when the cache agrees with the tables (spec/10_state.md R22), and what two
states have in common.
-/

namespace Sys2Proof.Machine

/-- The invariant of the machine: memory and cache in their canonical form, "`CR3[11:0]` is zero in every state the model
reaches" (spec/40_page_translation.md R74), and the index within the operation list or just past it. -/
abbrev State.Inv (s : State) : Prop :=
  Memory.wf s.mem = true ∧ Tlb.wf s.tlb = true ∧ s.cr3.extractLsb' 0 12 = 0#12 ∧ s.index ≤ s.program.length

/-- A run of `k` steps that neither faults nor is refused. -/
def RunsSafely : Nat → State → Prop
  | 0, _ => True
  | k + 1, s => ∃ t, step s = .next t ∧ RunsSafely k t

/-- A walk for `lin` finds memory at both entries and reads these two entries, both present and with no reserved bit set
(40_page_translation.md R74 to R77). -/
abbrev WalkReads (s : State) (lin : Word) (pde pte : PresentEntry) : Prop :=
  populatedAt s.platform (pdeAddr s.cr3 lin) 4 = true ∧
    decodeEntry (physRead s.mem (pdeAddr s.cr3 lin) 4) = .present pde ∧
    populatedAt s.platform (pteAddr pde.frame lin) 4 = true ∧
    decodeEntry (physRead s.mem (pteAddr pde.frame lin) 4) = .present pte

/-- A walk for `lin` succeeds: it finds its entries and protection permits the access (40_page_translation.md R78). -/
abbrev WalkSucceeds (s : State) (lin : Word) (acc : Access) (pde pte : PresentEntry) : Prop :=
  WalkReads s lin pde pte ∧ walkPermits s.platform pde pte acc s.mode = true

/-- The cache of the state. -/
abbrev CacheIs (s : State) (m : List TlbLine) : Prop := s.tlb = .known m

/-- Translation is in effect and no line of the cache serves the access, so that it walks (41_translation_cache.md R101,
R110). -/
abbrev Misses (s : State) (lin : Word) (acc : Access) (m : List TlbLine) : Prop :=
  s.pg = true ∧ CacheIs s m ∧ hitLine lin acc m = none

/-- What the cache holds for the access agrees with the PTE a walk would read: no line serves it, or one with the PTE's frame
that permits it (10_state.md R22). -/
def lineAgreesWith (s : State) (lin : Word) (acc : Access) (pte : PresentEntry) : Bool :=
  match s.tlb with
  | .unknown => false
  | .known m =>
    match hitLine lin acc m with
    | none => true
    | some l => l.frame == pte.frame && linePermits s.platform l acc s.mode

/-- Translation is in effect and takes the access to the frame of `pte`, whether it hits or walks. -/
abbrev AccessReady (s : State) (lin : Word) (acc : Access) (pde pte : PresentEntry) : Prop :=
  s.pg = true ∧ WalkSucceeds s lin acc pde pte ∧ lineAgreesWith s lin acc pte = true

/-- Translation is in effect and the access is served whichever it uses, the line it hits or the tables: the walk succeeds,
and a line that serves it permits it. The line may disagree with the tables (41_translation_cache.md R105). -/
abbrev AccessServed (s : State) (lin : Word) (acc : Access) (pde pte : PresentEntry) : Prop :=
  s.pg = true ∧ WalkSucceeds s lin acc pde pte ∧ s.tlb ≠ .unknown ∧
    ∀ m l, CacheIs s m → hitLine lin acc m = some l → linePermits s.platform l acc s.mode = true

/-- A frame that the translation of the access may use: that of the PTE, or that of the line it hits
(41_translation_cache.md R105). -/
abbrev MayUseFrame (s : State) (lin : Word) (acc : Access) (pte : PresentEntry) (f : Frame) : Prop :=
  f = pte.frame ∨ ∃ m l, CacheIs s m ∧ hitLine lin acc m = some l ∧ f = l.frame

/-- The operand is one the memory operations admit: a size of 20_memory.md R34, not past linear address FFFFFFFF
(40_page_translation.md R85). -/
abbrev OperandAdmitted (lin : Word) (n : Nat) : Prop := sizeAdmitted n = true ∧ wrapsLinear lin n = false

/-- `t` is where a completed operation leaves the place in the program of `s` (10_state.md R13, 60_exceptions.md R144). -/
structure PlaceCompleted (s t : State) : Prop where
  index : t.index = (completeOp s).index
  handlerQueue : t.handlerQueue = (completeOp s).handlerQueue
  exception : t.exception = s.exception

/-- Byte `a` is one of the four of the entry at `e`. -/
def entryHolds (e : Word) (a : Nat) : Bool := e.toNat ≤ a && a < e.toNat + 4

/-- Byte `a` lies in an entry of a walk for `lin`: the PDE, or the PTE of a PDE that is present. -/
def walkHolds (s : State) (lin : Word) (a : Nat) : Bool :=
  entryHolds (pdeAddr s.cr3 lin) a ||
    match decodeEntry (physRead s.mem (pdeAddr s.cr3 lin) 4) with
    | .present pde => entryHolds (pteAddr pde.frame lin) a
    | .notPresent _ => false
    | .reserved _ => false

/-- Byte `a` lies in an entry that a translation of `lin` may write (40_page_translation.md R80, R81, R83, R89). With PG = 0
there is none (R70). -/
def translationMayWrite (s : State) (lin : Word) (a : Nat) : Bool := s.pg && walkHolds s lin a

/-- The first linear address of a page. -/
def pageStart (vpn : Vpn) : Word := vpn ++ 0#12

/-- A line of the cache agrees with the entries that a walk for its page would read: both present and accessed, the same
frame and the same protection bits, and `d = 1` only where D of the PTE is 1 (10_state.md R22). The clause for `d` is for a
page whose table is not the directory itself: there D of the PTE is also bit 6 of a PDE, which walks draw
(40_page_translation.md R83; log 39). -/
def LineAgrees (s : State) (l : TlbLine) : Prop :=
  ∃ pde pte, WalkReads s (pageStart l.vpn) pde pte ∧ pde.accessed = true ∧ pte.accessed = true ∧
    l.frame = pte.frame ∧ l.usD = pde.us ∧ l.rwD = pde.rw ∧ l.usT = pte.us ∧ l.rwT = pte.rw ∧
    (pde.frame ≠ s.cr3.extractLsb' 12 20 → l.d = true → pte.dirty = true)

/-- Every line of the cache agrees with the tables in memory (10_state.md R22). -/
def Coherent (s : State) : Prop := ∀ m, CacheIs s m → ∀ l ∈ m, LineAgrees s l

/-- The registers, the program and the parameters of `t` are those of `s`. -/
structure SameRegisters (s t : State) : Prop where
  pg : t.pg = s.pg
  cr3 : t.cr3 = s.cr3
  eax : t.eax = s.eax
  mode : t.mode = s.mode
  program : t.program = s.program
  platform : t.platform = s.platform

/-- What a translation leaves of a state but memory, cache and draws: the registers, the place in the program, the handler's
operations, the record of the last exception and the results. -/
structure SameControl (s t : State) : Prop where
  regs : SameRegisters s t
  index : t.index = s.index
  handlerQueue : t.handlerQueue = s.handlerQueue
  exception : t.exception = s.exception
  results : t.results = s.results

/-- The lines of the cache of `t` are lines of `s`'s, or there is one for the page of `lin` (41_translation_cache.md R102,
R103). -/
def CacheFrom (s t : State) (lin : Word) : Prop :=
  match s.tlb with
  | .unknown => t.tlb = .unknown
  | .known m => ∃ m', CacheIs t m' ∧ ∀ l ∈ m', l ∈ m ∨ l.vpn = vpnOf lin

/-- The `n` bytes at `pa` lie apart from the entry at `e`. -/
abbrev ApartFrom (pa : Word) (n : Nat) (e : Word) : Prop :=
  pa.toNat + n ≤ e.toNat ∨ e.toNat + 4 ≤ pa.toNat

/-- The `n` bytes at `pa` lie apart from both entries of a walk. -/
abbrev ApartFromWalk (s : State) (lin : Word) (pde : PresentEntry) (pa : Word) (n : Nat) : Prop :=
  ApartFrom pa n (pdeAddr s.cr3 lin) ∧ ApartFrom pa n (pteAddr pde.frame lin)

/-! ### The parts of an operand across a page boundary, and where a store goes -/

/-- The two parts of an operand across a page boundary, in the order a draw gives (40_page_translation.md R88). -/
def partsInOrder (s : State) (lin : Word) (n : Nat) : Part × Part :=
  if Config.choose s.drawIdx .secondPartFirst then (secondPart lin n, firstPart lin) else (firstPart lin, secondPart lin n)

/-- The state in which the second of two parts is translated (40_page_translation.md R88), with `pa` and `u` what the
translation of the first gave: where the draw is for an early transfer of a store, the first part's bytes are stored. -/
def betweenParts (s : State) (x : Transfer) (p : Part) (pa : Word) (u : State) : State :=
  match x with
  | .load => u
  | .store v =>
    if Config.choose s.drawIdx .transferEarly then u.withMem (physWrite u.mem pa p.len (v >>> (8 * p.pos))) else u

/-- Each of the two parts of an operand, at frames `f1` and `f2`, lies apart from the entries of both walks. -/
abbrev PartsApart (s : State) (lin : Word) (n : Nat) (pde1 pde2 : PresentEntry) (f1 f2 : Frame) : Prop :=
  ApartFromWalk s lin pde1 (physAddr f1 lin) (bytesBefore lin) ∧
    ApartFromWalk s (secondPart lin n).lin pde2 (physAddr f1 lin) (bytesBefore lin) ∧
    ApartFromWalk s lin pde1 (physAddr f2 (secondPart lin n).lin) (n - bytesBefore lin) ∧
    ApartFromWalk s (secondPart lin n).lin pde2 (physAddr f2 (secondPart lin n).lin) (n - bytesBefore lin)

/-- A walk for `lin` finds memory at both entries, the PDE usable and the PTE with P = 0 (40_page_translation.md R77). -/
abbrev PageNotPresent (s : State) (lin : Word) (pde : PresentEntry) : Prop :=
  populatedAt s.platform (pdeAddr s.cr3 lin) 4 = true ∧
    decodeEntry (physRead s.mem (pdeAddr s.cr3 lin) 4) = .present pde ∧
    populatedAt s.platform (pteAddr pde.frame lin) 4 = true ∧
    (physRead s.mem (pteAddr pde.frame lin) 4).getLsbD 0 = false

/-- In the state `s` the access of the operand raises, at the part with linear address `at_`: the operand itself, or the
first or the second of its parts in the drawn order, the first being translated and, where it is transferred early, where
there is memory (40_page_translation.md R88). -/
def OperandRaises (s : State) (x : Transfer) (lin : Word) (n : Nat) (at_ : Word) (info : PageInfo) (t : State) : Prop :=
  if crossesPage lin n then
    let (p, q) := partsInOrder s lin n
    (at_ = p.lin ∧ translate Config.choose p.lin x.acc s.tick = .raise info t) ∨
    (at_ = q.lin ∧ ∃ pa u, translate Config.choose p.lin x.acc s.tick = .done pa u ∧
      (Config.choose s.drawIdx .transferEarly = true → populatedAt s.platform pa p.len = true) ∧
      translate Config.choose q.lin x.acc (betweenParts s x p pa u) = .raise info t)
  else at_ = lin ∧ translate Config.choose lin x.acc s = .raise info t

/-- In the state `s` a store of `v` may store to byte `a`: it lies in the operand, or in a part of it, at the physical
address that its translation gives. -/
def storesTo (s : State) (lin : Word) (n : Nat) (v : Word) (a : Nat) : Prop :=
  if crossesPage lin n then
    let (p, q) := partsInOrder s lin n
    ∃ pa u, translate Config.choose p.lin .write s.tick = .done pa u ∧
      ((pa.toNat ≤ a ∧ a < pa.toNat + p.len) ∨
        ∃ qa w, translate Config.choose q.lin .write (betweenParts s (.store v) p pa u) = .done qa w ∧
          qa.toNat ≤ a ∧ a < qa.toNat + q.len)
  else ∃ pa u, translate Config.choose lin .write s = .done pa u ∧ pa.toNat ≤ a ∧ a < pa.toNat + n

/-- The store of `v` in the state `s` stores to no entry of a walk for a page of the cache or for a page of the operand
(70_reset_and_hazards.md R167). -/
def StoresApart (s : State) (lin : Word) (n : Nat) (v : Word) : Prop :=
  ∀ a, storesTo s lin n v a →
    walkHolds s lin a = false ∧ (crossesPage lin n = true → walkHolds s (secondPart lin n).lin a = false) ∧
    ∀ m, CacheIs s m → ∀ l ∈ m, walkHolds s (pageStart l.vpn) a = false

end Sys2Proof.Machine
end

