-- ==== Sys2Proof/Certificates/Slice0/Obligations.lean ====
section
/-!
DEFINITION. The statements about the model, from the rules of the spec. "The model's choice" in a docstring names what is
not the source's; the log entry stands beside it.
-/

open Sys2Proof Sys2Proof.Machine

/-! ### Encodings and formats -/

/-- 30_encoding.md R59 (general knowledge, log 3): the bytes 0F 22 D8 are MOV CR3, EAX, also as the table's word 0F22D8
(log 2); another source register, a move from a control register and an incomplete instruction are rejected by name. -/
def Obligations.SpecWordsDecode : Prop :=
  decodeBytes [0x0F#8, 0x22#8, 0xD8#8] = .ok (.movCr3Eax, []) ∧
  decodeTableWord 24 0x0F22D8 = some .movCr3Eax ∧
  decodeBytes [0x0F#8, 0x22#8, 0xD9#8] = .error .otherSourceRegister ∧
  decodeBytes [0x0F#8, 0x20#8, 0xC0#8] = .error .noEncoding ∧
  decodeBytes [0x0F#8, 0x22#8] = .error .truncated

/-- Bytes decode to an operation exactly when they begin with the bytes the encoder gives that operation, and the rest is
what follows them. -/
def Obligations.BytesDecodeExactlyWhenEncoded : Prop :=
  ∀ (bs : List Byte) (i : Instr) (rest : List Byte),
    decodeBytes bs = .ok (i, rest) ↔ ∃ w, encodeBytes i = some w ∧ bs = w ++ rest

/-- For every well-formed operation, decoding its code gives it back. -/
def Obligations.EncodedOperationsDecode : Prop :=
  ∀ i : Instr, i.WellFormed → decodeCode (encodeCode i) = .ok i

/-- 30_encoding.md R51 to R53: every 32-bit word is the word of its entry view, and every entry view that an entry can have
is what its word decodes to. No bit of an entry is dropped. -/
def Obligations.EntryFormatsAgree : Prop :=
  (∀ w : Word, encodeEntry (decodeEntry w) = w ∧ (decodeEntry w).wellFormed = true) ∧
  (∀ v : EntryView, v.wellFormed = true → decodeEntry (encodeEntry v) = v)

/-- 30_encoding.md R51: in an entry with P = 1 and its reserved bits 8:7 and 4:3 zero, the frame is bits 31:12, AVAIL bits
11:9, D bit 6, A bit 5, U/S bit 2 and R/W bit 1 (the bit numbers are 90_conflicts.md C4, log 35). -/
def Obligations.PresentEntryFields : Prop :=
  ∀ w : Word, w.getLsbD 0 = true → w.extractLsb' 3 2 = 0#2 → w.extractLsb' 7 2 = 0#2 →
    ∃ e, decodeEntry w = .present e ∧ e.frame.toNat = w.toNat / 4096 ∧ e.avail.toNat = w.toNat / 512 % 8 ∧
      e.dirty = w.getLsbD 6 ∧ e.accessed = w.getLsbD 5 ∧ e.us = w.getLsbD 2 ∧ e.rw = w.getLsbD 1

/-- 30_encoding.md R50: DIR, PAGE and OFFSET are bits 31:22, 21:12 and 11:0, unsigned, they make up the address, and
`vpn = DIR ∥ PAGE`. -/
def Obligations.LinearAddressFields : Prop :=
  (∀ lin : Word,
    (splitLinear lin).dir.toNat = lin.toNat / 2 ^ 22 ∧
    (splitLinear lin).page.toNat = lin.toNat / 2 ^ 12 % 2 ^ 10 ∧
    (splitLinear lin).offset.toNat = lin.toNat % 2 ^ 12 ∧
    joinLinear (splitLinear lin) = lin ∧
    vpnOf lin = (splitLinear lin).dir ++ (splitLinear lin).page ∧
    (vpnOf lin).toNat = lin.toNat / 2 ^ 12) ∧
  (∀ f : LinearFields, splitLinear (joinLinear f) = f)

/-- 30_encoding.md R57: the three addresses as sums, with no carry. -/
def Obligations.AddressesAreConcatenations : Prop :=
  ∀ (cr3 lin : Word) (frame : Frame),
    (pdeAddr cr3 lin).toNat = cr3.toNat / 4096 * 4096 + (splitLinear lin).dir.toNat * 4 ∧
    (pteAddr frame lin).toNat = frame.toNat * 4096 + (splitLinear lin).page.toNat * 4 ∧
    (physAddr frame lin).toNat = frame.toNat * 4096 + (splitLinear lin).offset.toNat

/-! ### Physical memory -/

/-- 20_memory.md R31, R39: in canonical memory, byte `k` of a store is bits `8k+7:8k` of its value, and a read of the same
bytes gives the value back. (Little-endian is the spec's decision D2: PRESUMED, log 9.) -/
def Obligations.StoredValueReadsBack : Prop :=
  ∀ (m : Memory) (a n : Nat) (v : Word), Memory.wf m = true → a + n ≤ spaceSize → n ≤ 4 →
    (∀ k, k < n → Memory.read (writeLE m a n v) (a + k) = (v >>> (8 * k)).setWidth 8) ∧
    (readLE (writeLE m a n v) a n).toNat = v.toNat % 256 ^ n

/-- A store changes no byte outside it, and keeps the canonical form of memory. -/
def Obligations.StoreKeepsOtherBytesAndForm : Prop :=
  ∀ (m : Memory) (a n : Nat) (v : Word),
    (∀ c, c < a ∨ a + n ≤ c → Memory.read (writeLE m a n v) c = Memory.read m c) ∧
    (Memory.wf m = true → a + n ≤ spaceSize → Memory.wf (writeLE m a n v) = true)

/-! ### Reset, the step, the operation list -/

/-- 70_reset_and_hazards.md R160 (the spec's decision D6): after reset PG = 0, the cache is unknown and the list is at its
first operation; nothing has been raised or returned and no handler runs. The model's choice: CR3 = 0 and EAX = 0 (log 5, 6),
memory with nothing listed (log 7), Supervisor mode (log 25). -/
def Obligations.ResetValues : Prop :=
  State.reset.pg = false ∧ State.reset.tlb = .unknown ∧ State.reset.index = 0 ∧
  State.reset.cr3 = 0#32 ∧ State.reset.eax = 0#32 ∧ State.reset.mem = [] ∧ State.reset.mode = .supervisor ∧
  State.reset.handlerQueue = [] ∧ State.reset.exception = none ∧ State.reset.results = []

/-- The invariant holds at reset. -/
def Obligations.ResetSatisfiesInvariant : Prop := State.reset.Inv

/-- Every step keeps the invariant: memory and cache canonical, `CR3[11:0]` zero (40_page_translation.md R74), the index
within the list or just past it. -/
def Obligations.StepKeepsInvariant : Prop :=
  ∀ s t : State, s.Inv → step s = .next t → t.Inv

/-- 00_scope.md R6: no step changes the operation list or a parameter. -/
def Obligations.ProgramAndParametersNeverChange : Prop :=
  ∀ s t : State, step s = .next t → t.program = s.program ∧ t.platform = s.platform

/-- 10_state.md R10, R11, R12: a step changes PG only by SET_PG or CLR_PG, CR3 only by MOV CR3, EAX or TASK_SWITCH, each run
in Supervisor mode (the spec's decision D24), and EAX only by LOAD_EAX. -/
def Obligations.ControlRegistersChangeOnlyByTheirOperations : Prop :=
  ∀ (s t : State) (slot : Slot) (i : Instr),
    nextSlot s = some slot → decodeCode slot.code = .ok i → step s = .next t →
    (t.pg ≠ s.pg → (i = .setPg ∨ i = .clrPg) ∧ slot.mode = .supervisor) ∧
    (t.cr3 ≠ s.cr3 → (i = .movCr3Eax ∨ ∃ img, i = .taskSwitch img) ∧ slot.mode = .supervisor) ∧
    (t.eax ≠ s.eax → ∃ v, i = .loadEax v)

/-- 00_scope.md R6, 10_state.md R13, R17: where the next slot's code is a well-formed operation, the step is that operation
in a state with the slot's mode, where the cache may have lost lines (41_translation_cache.md R103) and a draw may have been
taken (log 19); all else is as before. -/
def Obligations.StepRunsTheDecodedOperation : Prop :=
  ∀ (s : State) (slot : Slot) (i : Instr),
    nextSlot s = some slot → decodeCode slot.code = .ok i → i.WellFormed →
    ∃ (tlb : Tlb) (draw : Nat),
      step s = exec i { s with mode := slot.mode, tlb := tlb, drawIdx := draw } ∧
      (s.tlb = .unknown → tlb = .unknown) ∧
      (∀ m, s.tlb = .known m → ∃ m', tlb = .known m' ∧ m'.Sublist m)

/-- 10_state.md R13, 60_exceptions.md R144, 00_scope.md R7: while the handler has operations the next one is the handler's,
in Supervisor mode; else it is the one the index names; past the end of the list the step is refused (log 33). -/
def Obligations.NextOperationIsTheHandlersOrTheLists : Prop :=
  ∀ s : State,
    (∀ c rest, s.handlerQueue = c :: rest → nextSlot s = some ⟨.supervisor, c⟩) ∧
    (s.handlerQueue = [] → nextSlot s = s.program[s.index]?) ∧
    (s.handlerQueue = [] → s.program.length ≤ s.index → step s = .refused .endOfProgram)

/-- 10_state.md R13, 60_exceptions.md R144: completing an operation of the list advances the index by one; completing an
operation of the handler takes it off the handler's operations and leaves the index. -/
def Obligations.CompletionAdvances : Prop :=
  ∀ s : State,
    (s.handlerQueue = [] → completeOp s = { s with index := s.index + 1 }) ∧
    (∀ c rest, s.handlerQueue = c :: rest → completeOp s = { s with handlerQueue := rest })

/-- The instruction placed by `withFetchWord` is the one the next step runs (log 1, 2), in the mode of the state, or in
Supervisor mode in the handler. -/
def Obligations.PlacedWordRunsNext : Prop :=
  ∀ s : State,
    nextSlot (s.withFetchWord 24 0x0F22D8) =
      some ⟨if s.handlerQueue = [] then s.mode else .supervisor, .bytes [0x0F#8, 0x22#8, 0xD8#8]⟩

/-! ### The control operations -/

/-- 40_page_translation.md R71, R72: in Supervisor mode (D24) SET_PG and CLR_PG complete, write PG and nothing else; the
cache keeps its contents (the spec's decision D25). -/
def Obligations.PgOperationsComplete : Prop :=
  ∀ s : State, s.mode = .supervisor →
    exec .setPg s = .next (completeOp { s with pg := true }) ∧
    exec .clrPg s = .next (completeOp { s with pg := false })

/-- 10_state.md R12: LOAD_EAX completes in either mode, writes EAX and nothing else. -/
def Obligations.LoadEaxCompletes : Prop :=
  ∀ (s : State) (v : Word), exec (.loadEax v) s = .next (completeOp { s with eax := v })

/-- 41_translation_cache.md R107, R106: in Supervisor mode (D24), with EAX[11:0] zero (D5), MOV CR3, EAX completes: CR3 is
EAX, the whole cache is empty whatever it held, and nothing else changes. -/
def Obligations.MovCr3EaxLoadsAndFlushes : Prop :=
  ∀ s : State, s.mode = .supervisor → s.eax.extractLsb' 0 12 = 0#12 →
    exec .movCr3Eax s = .next (completeOp { s with cr3 := s.eax, tlb := .known [] })

/-- 41_translation_cache.md R108: in Supervisor mode (D24), with the image's low bits zero (D5), TASK_SWITCH completes: CR3
is the image; the cache is flushed where the image differs from CR3 (the comparison with CR3 is the spec's decision D26) and
is left as it is, unknown included, where it does not. Nothing else changes. -/
def Obligations.TaskSwitchLoadsAndFlushesIfDifferent : Prop :=
  ∀ (s : State) (img : Word), s.mode = .supervisor → img.extractLsb' 0 12 = 0#12 →
    (img ≠ s.cr3 → exec (.taskSwitch img) s = .next (completeOp { s with cr3 := img, tlb := .known [] })) ∧
    (img = s.cr3 → exec (.taskSwitch img) s = .next (completeOp s))

/-- 60_exceptions.md R147 (the spec's decision D24): in User mode SET_PG, CLR_PG, MOV CR3, EAX and TASK_SWITCH are refused,
whatever their operands. -/
def Obligations.PrivilegedOperationsRefusedInUserMode : Prop :=
  ∀ (s : State) (img : Word), s.mode = .user →
    exec .setPg s = .refused .privilegeNotInSource ∧
    exec .clrPg s = .refused .privilegeNotInSource ∧
    exec .movCr3Eax s = .refused .privilegeNotInSource ∧
    exec (.taskSwitch img) s = .refused .privilegeNotInSource

/-- 30_encoding.md R55 (the spec's decision D5): in Supervisor mode a load of CR3 that would set a bit of 11:0 is refused. -/
def Obligations.Cr3LowBitsRefused : Prop :=
  ∀ (s : State) (v : Word), s.mode = .supervisor → v.extractLsb' 0 12 ≠ 0#12 →
    exec .movCr3Eax { s with eax := v } = .refused .cr3LowBits ∧ exec (.taskSwitch v) s = .refused .cr3LowBits

/-! ### Translation -/

/-- 40_page_translation.md R70 (the identity is the spec's decision D3): with PG = 0 a translation gives the linear address
and changes nothing. -/
def Obligations.PagingOffIsIdentity : Prop :=
  ∀ (O : Oracle) (lin : Word) (acc : Access) (s : State), s.pg = false → Machine.translate O lin acc s = .done lin s

/-- 41_translation_cache.md R101: where the cache has a line the access may use (and no draw dropped it), translation takes
the frame from the line where the line's protection bits permit the access, and gives no address where they do not. It
writes nothing to memory and raises for no page not present, whatever memory holds, entries with P = 0 included. -/
def Obligations.HitUsesTheLineAlone : Prop :=
  ∀ (O : Oracle) (lin : Word) (acc : Access) (s : State) (m : List TlbLine) (l : TlbLine) (mem : Memory),
    s.pg = true → CacheIs s m → hitLine lin acc m = some l → O s.drawIdx (.keepLine (vpnOf lin)) = true →
    (linePermits s.platform l acc s.mode = true →
      ∃ t, Machine.translate O lin acc s = .done (physAddr l.frame lin) t ∧
        Machine.translate O lin acc { s with mem := mem } = .done (physAddr l.frame lin) { t with mem := mem } ∧
        SameControl s t ∧ t.mem = s.mem ∧ ∃ m', CacheIs t m' ∧ m'.Sublist m) ∧
    (linePermits s.platform l acc s.mode = false →
      (∀ pa t, Machine.translate O lin acc { s with mem := mem } ≠ .done pa t) ∧
      ∀ info t, Machine.translate O lin acc { s with mem := mem } = .raise info t →
        info.cause ≠ .notPresent ∧ t.mem = mem)

/-- 41_translation_cache.md R111 (raising is the spec's decision D11, log 14): where the protection bits of the line do not
permit the access in its own mode, it raises the page exception at level cache; memory is as it was. -/
def Obligations.CachedProtectionRaises : Prop :=
  ∀ (O : Oracle) (lin : Word) (acc : Access) (s : State) (m : List TlbLine) (l : TlbLine),
    s.pg = true → CacheIs s m → hitLine lin acc m = some l → O s.drawIdx (.keepLine (vpnOf lin)) = true →
    protPermits s.platform.pageProt ⟨l.usD, l.rwD, l.usT, l.rwT, acc, s.mode⟩ = false →
    ∃ t, Machine.translate O lin acc s = .raise ⟨lin, acc, s.mode, .protection, .cache⟩ t ∧
      SameControl s t ∧ t.mem = s.mem ∧ ∃ m', CacheIs t m' ∧ m'.Sublist m

/-- 41_translation_cache.md R110 (the spec's decision D9): a write to a page whose line has `d = 0` is a miss. -/
def Obligations.WriteToCleanLineMisses : Prop :=
  ∀ (lin : Word) (s : State) (m : List TlbLine) (l : TlbLine),
    s.pg = true → CacheIs s m → lookupLine (vpnOf lin) m = some l → l.d = false → Misses s lin .write m

/-- 40_page_translation.md R79, R80, R81: a walk that succeeds, whatever the draws, gives `PTE[31:12] ∥ OFFSET`, sets A of
the PDE and of the PTE, sets D of the PTE for a write, and for a read leaves D of a PTE that is not also the PDE. -/
def Obligations.WalkSetsAccessedAndDirty : Prop :=
  ∀ (O : Oracle) (lin : Word) (acc : Access) (s : State) (m : List TlbLine) (pde pte : PresentEntry),
    Memory.wf s.mem = true → Misses s lin acc m → WalkSucceeds s lin acc pde pte →
    ∃ t, Machine.translate O lin acc s = .done (physAddr pte.frame lin) t ∧
      (physRead t.mem (pdeAddr s.cr3 lin) 4).getLsbD 5 = true ∧
      (physRead t.mem (pteAddr pde.frame lin) 4).getLsbD 5 = true ∧
      (acc = .write → (physRead t.mem (pteAddr pde.frame lin) 4).getLsbD 6 = true) ∧
      (acc = .read → pteAddr pde.frame lin ≠ pdeAddr s.cr3 lin →
        (physRead t.mem (pteAddr pde.frame lin) 4).getLsbD 6 = pte.dirty)

/-- 40_page_translation.md R84: whatever a translation comes to, of every aligned 32-bit word of memory only bits 5 and 6
may change, A is never cleared, and a word with P = 0 does not change. -/
def Obligations.ProcessorChangesOnlyAccessedAndDirty : Prop :=
  ∀ (O : Oracle) (lin : Word) (acc : Access) (s t : State) (e : Word),
    Memory.wf s.mem = true → e.toNat % 4 = 0 →
    ((∃ pa, Machine.translate O lin acc s = .done pa t) ∨ (∃ info, Machine.translate O lin acc s = .raise info t)) →
    (∀ i, i ≠ 5 → i ≠ 6 → (physRead t.mem e 4).getLsbD i = (physRead s.mem e 4).getLsbD i) ∧
    ((physRead s.mem e 4).getLsbD 5 = true → (physRead t.mem e 4).getLsbD 5 = true) ∧
    ((physRead s.mem e 4).getLsbD 0 = false → physRead t.mem e 4 = physRead s.mem e 4)

/-- 40_page_translation.md R83, R89 (the spec's decision D13): both values of bit 6 of the PDE are admitted after a walk that
used the PDE, whether it succeeds or raises at the PTE; but for the PTE of a write that succeeds which is also the PDE, whose
D is 1 (R91). After a walk that raises at the PTE, A of the PDE, and of a PTE that was present, is as it was or 1, and each of
the two is admitted. -/
def Obligations.PdeDirtyBitIsDrawn : Prop :=
  ∀ (lin : Word) (acc : Access) (s : State) (m : List TlbLine) (pde : PresentEntry),
    Memory.wf s.mem = true → Misses s lin acc m →
    (∀ pte, WalkSucceeds s lin acc pde pte →
      (∀ b : Bool, ¬ (pdeAddr s.cr3 lin = pteAddr pde.frame lin ∧ acc = .write) →
        ∃ (O : Oracle) (pa : Word) (t : State), Machine.translate O lin acc s = .done pa t ∧
          (physRead t.mem (pdeAddr s.cr3 lin) 4).getLsbD 6 = b) ∧
      (pdeAddr s.cr3 lin = pteAddr pde.frame lin → acc = .write →
        ∀ (O : Oracle) (pa : Word) (t : State), Machine.translate O lin acc s = .done pa t →
          (physRead t.mem (pdeAddr s.cr3 lin) 4).getLsbD 6 = true)) ∧
    (PageNotPresent s lin pde →
      ∀ b aD : Bool, ∃ (O : Oracle) (info : PageInfo) (t : State), Machine.translate O lin acc s = .raise info t ∧
        (physRead t.mem (pdeAddr s.cr3 lin) 4).getLsbD 6 = b ∧
        (physRead t.mem (pdeAddr s.cr3 lin) 4).getLsbD 5 = (pde.accessed || aD)) ∧
    (∀ pte, WalkReads s lin pde pte → walkPermits s.platform pde pte acc s.mode = false →
      ∀ b aD aT : Bool, ∃ (O : Oracle) (info : PageInfo) (t : State), Machine.translate O lin acc s = .raise info t ∧
        (physRead t.mem (pdeAddr s.cr3 lin) 4).getLsbD 6 = b ∧
        (pdeAddr s.cr3 lin ≠ pteAddr pde.frame lin →
          (physRead t.mem (pdeAddr s.cr3 lin) 4).getLsbD 5 = (pde.accessed || aD) ∧
          (physRead t.mem (pteAddr pde.frame lin) 4).getLsbD 5 = (pte.accessed || aT)) ∧
        (pdeAddr s.cr3 lin = pteAddr pde.frame lin →
          (physRead t.mem (pdeAddr s.cr3 lin) 4).getLsbD 5 = (pde.accessed || aD || aT)))

/-- 40_page_translation.md R75, 30_encoding.md R52: where the PDE of a walk has P = 0, whatever its other bits, the access
raises the page exception at level directory and memory is as it was. -/
def Obligations.DirectoryNotPresentRaises : Prop :=
  ∀ (O : Oracle) (lin : Word) (acc : Access) (s : State) (m : List TlbLine),
    Misses s lin acc m → populatedAt s.platform (pdeAddr s.cr3 lin) 4 = true →
    (physRead s.mem (pdeAddr s.cr3 lin) 4).getLsbD 0 = false →
    ∃ t, Machine.translate O lin acc s = .raise ⟨lin, acc, s.mode, .notPresent, .directory⟩ t ∧
      SameControl s t ∧ t.mem = s.mem ∧ (∃ m', CacheIs t m' ∧ m'.Sublist m)

/-- 40_page_translation.md R77, 30_encoding.md R52: where the PDE is usable and the PTE has P = 0, whatever its other bits,
the access raises the page exception at level table; no byte outside the PDE changes. -/
def Obligations.TableNotPresentRaises : Prop :=
  ∀ (O : Oracle) (lin : Word) (acc : Access) (s : State) (m : List TlbLine) (pde : PresentEntry),
    Misses s lin acc m → populatedAt s.platform (pdeAddr s.cr3 lin) 4 = true →
    decodeEntry (physRead s.mem (pdeAddr s.cr3 lin) 4) = .present pde →
    populatedAt s.platform (pteAddr pde.frame lin) 4 = true →
    (physRead s.mem (pteAddr pde.frame lin) 4).getLsbD 0 = false →
    ∃ t, Machine.translate O lin acc s = .raise ⟨lin, acc, s.mode, .notPresent, .table⟩ t ∧
      SameControl s t ∧ (∃ m', CacheIs t m' ∧ m'.Sublist m) ∧
      ∀ a, entryHolds (pdeAddr s.cr3 lin) a = false → Memory.read t.mem a = Memory.read s.mem a

/-- 40_page_translation.md R78 (raising the page exception is the spec's decision D11, log 14): where both entries are
usable and `PageProt` is false of their bits, the access raises the page exception at level table; no byte outside the entries
changes. -/
def Obligations.WalkProtectionRaises : Prop :=
  ∀ (O : Oracle) (lin : Word) (acc : Access) (s : State) (m : List TlbLine) (pde pte : PresentEntry),
    Misses s lin acc m → WalkReads s lin pde pte →
    protPermits s.platform.pageProt ⟨pde.us, pde.rw, pte.us, pte.rw, acc, s.mode⟩ = false →
    ∃ t, Machine.translate O lin acc s = .raise ⟨lin, acc, s.mode, .protection, .table⟩ t ∧
      SameControl s t ∧ (∃ m', CacheIs t m' ∧ m'.Sublist m) ∧
      ∀ a, translationMayWrite s lin a = false → Memory.read t.mem a = Memory.read s.mem a

/-- 40_page_translation.md R89 (the spec's decision D13): a translation that raises reports its own address, access and
mode; it leaves every byte outside the entries alone, adds nothing to the cache, and leaves D of a PTE that is not also the
PDE. -/
def Obligations.RaiseLeavesLittle : Prop :=
  ∀ (O : Oracle) (lin : Word) (acc : Access) (s t : State) (info : PageInfo),
    Machine.translate O lin acc s = .raise info t →
    info.lin = lin ∧ info.acc = acc ∧ info.mode = s.mode ∧ SameControl s t ∧
    (∀ a, translationMayWrite s lin a = false → Memory.read t.mem a = Memory.read s.mem a) ∧
    (∀ m, CacheIs s m → ∃ m', CacheIs t m' ∧ m'.Sublist m) ∧
    (Memory.wf s.mem = true → ∀ pde, decodeEntry (physRead s.mem (pdeAddr s.cr3 lin) 4) = .present pde →
      pteAddr pde.frame lin ≠ pdeAddr s.cr3 lin →
      (physRead t.mem (pteAddr pde.frame lin) 4).getLsbD 6 = (physRead s.mem (pteAddr pde.frame lin) 4).getLsbD 6)

/-- 41_translation_cache.md R102, R110 (the spec's decisions D7, D9): after a walk that succeeds, a line of the cache that
was not there before is the line of that page with the data the walk read, and its `d` is 1 after a write and is 1 only where
D of the PTE in memory is 1. -/
def Obligations.FilledLineHoldsTheWalk : Prop :=
  ∀ (O : Oracle) (lin : Word) (acc : Access) (s t : State) (m : List TlbLine) (pde pte : PresentEntry) (pa : Word),
    Memory.wf s.mem = true → Misses s lin acc m → WalkReads s lin pde pte → Machine.translate O lin acc s = .done pa t →
    ∃ m', CacheIs t m' ∧ ∀ l ∈ m', l ∉ m →
      l.vpn = vpnOf lin ∧ l.frame = pte.frame ∧ l.usD = pde.us ∧ l.rwD = pde.rw ∧ l.usT = pte.us ∧ l.rwT = pte.rw ∧
      (acc = .write → l.d = true) ∧
      (l.d = true → (physRead t.mem (pteAddr pde.frame lin) 4).getLsbD 6 = true)

/-- 41_translation_cache.md R106: after a flush, whatever the cache held, every translation walks the tables in memory. -/
def Obligations.TranslationAfterFlushWalks : Prop :=
  ∀ (O : Oracle) (lin : Word) (acc : Access) (s : State), s.pg = true →
    (flush s).tlb = .known [] ∧
    ∃ k, Machine.translate O lin acc (flush s) =
      walk (O (s.drawIdx + 1)) lin acc { s with tlb := .known [], drawIdx := k }

/-- 41_translation_cache.md R105: where a line of the cache and the tables disagree, both are admitted: there are draws with
which the access uses the line's frame and draws with which it uses the frame of the PTE in memory. -/
def Obligations.OldAndNewDataBothAdmitted : Prop :=
  ∀ (lin : Word) (acc : Access) (s : State) (m : List TlbLine) (l : TlbLine) (pde pte : PresentEntry),
    s.pg = true → CacheIs s m → hitLine lin acc m = some l → linePermits s.platform l acc s.mode = true →
    WalkSucceeds s lin acc pde pte →
    (∃ (O : Oracle) (t : State), Machine.translate O lin acc s = .done (physAddr l.frame lin) t) ∧
    (∃ (O : Oracle) (t : State), Machine.translate O lin acc s = .done (physAddr pte.frame lin) t)

/-- 10_state.md R22, 41_translation_cache.md R109: where the cache agrees with the tables, what an access comes to does not
depend on the draws: the same physical address, or a page exception with the same record but for the level. -/
def Obligations.CoherentCacheIsInvisible : Prop :=
  ∀ (O O' : Oracle) (lin : Word) (acc : Access) (s : State), Coherent s →
    (∀ pa t, Machine.translate O lin acc s = .done pa t → ∃ t', Machine.translate O' lin acc s = .done pa t') ∧
    (∀ info t, Machine.translate O lin acc s = .raise info t →
      ∃ level t', Machine.translate O' lin acc s = .raise { info with level := level } t')

/-- 10_state.md R22, 70_reset_and_hazards.md R167: every step keeps the cache in agreement with the tables, but for a WRITE or
LOGICAL_WRITE that stores to an entry of a cached page or of a page of its operand; and MOV CR3, EAX and a TASK_SWITCH to
another image establish the agreement whatever it was. (In the agreement, `d = 1` only where D of the PTE is 1 is for a page
whose table is not the directory itself: log 39.) -/
def Obligations.OnlyStoresToEntriesBreakCoherence : Prop :=
  ∀ (s t : State) (slot : Slot) (i : Instr),
    nextSlot s = some slot → decodeCode slot.code = .ok i → step s = .next t → Memory.wf s.mem = true →
    (∀ lin n v, i = .write lin n v → StoresApart (beforeOp Config.choose slot.mode s) lin n v) →
    (∀ sel off n v lin, i = .logicalWrite sel off n v →
      segTranslate s.platform sel off n .write slot.mode = some lin →
      StoresApart (beforeOp Config.choose slot.mode s) lin n v) →
    (i = .movCr3Eax ∨ (∃ img, i = .taskSwitch img ∧ img ≠ s.cr3) ∨ Coherent s) → Coherent t

/-- 40_page_translation.md R78, 20_memory.md R38, 30_encoding.md R53: where a translation is refused: with PG = 1 and the
cache unknown (D6); on a walk, where the PDE, or the PTE of a usable PDE, lies in no memory (D21) or is present with a
reserved bit set (D15). -/
def Obligations.RefusedTranslations : Prop :=
  ∀ (O : Oracle) (lin : Word) (acc : Access) (s : State), s.pg = true →
    (s.tlb = .unknown → Machine.translate O lin acc s = .refuse .tlbUnknown) ∧
    (∀ m, Misses s lin acc m →
      (populatedAt s.platform (pdeAddr s.cr3 lin) 4 = false → Machine.translate O lin acc s = .refuse .unpopulated) ∧
      (∀ r, populatedAt s.platform (pdeAddr s.cr3 lin) 4 = true →
        decodeEntry (physRead s.mem (pdeAddr s.cr3 lin) 4) = .reserved r →
        Machine.translate O lin acc s = .refuse .reservedBitSet) ∧
      (∀ pde, populatedAt s.platform (pdeAddr s.cr3 lin) 4 = true →
        decodeEntry (physRead s.mem (pdeAddr s.cr3 lin) 4) = .present pde →
        populatedAt s.platform (pteAddr pde.frame lin) 4 = false →
        Machine.translate O lin acc s = .refuse .unpopulated) ∧
      (∀ pde r, populatedAt s.platform (pdeAddr s.cr3 lin) 4 = true →
        decodeEntry (physRead s.mem (pdeAddr s.cr3 lin) 4) = .present pde →
        populatedAt s.platform (pteAddr pde.frame lin) 4 = true →
        decodeEntry (physRead s.mem (pteAddr pde.frame lin) 4) = .reserved r →
        Machine.translate O lin acc s = .refuse .reservedBitSet))

/-- 93_implementation_defined.md G6 (general knowledge, log 13): the default instance of `PageProt` permits every
supervisor access, and in User mode exactly those with U/S = 1 in both entries and, for a write, R/W = 1 in both. -/
def Obligations.DefaultProtection : Prop :=
  ∀ c : ProtCase,
    protPermits .standard c = true ↔
      (c.mode = .supervisor ∨ (c.usD = true ∧ c.usT = true ∧ (c.acc = .write → c.rwD = true ∧ c.rwT = true)))

/-! ### The page exception -/

/-- 60_exceptions.md R141, R143, R144: taking the page exception. With a handler for the record, and outside the handler,
the next state has the record, the handler's operations to run and the index as it was; else the run stops with the fault,
which holds the record and the state. -/
def Obligations.TakingThePageException : Prop :=
  ∀ (info : PageInfo) (s : State),
    (∀ ops, s.handlerQueue = [] → handlerFor info s.platform.handler = some ops →
      takePageException info s = .next { s with exception := some info, handlerQueue := ops }) ∧
    (s.handlerQueue ≠ [] ∨ handlerFor info s.platform.handler = none →
      takePageException info s = .fault (.pageException info { s with exception := some info }))

/-- 60_exceptions.md R142, R144: an operation of the list that raised, and whose handler's operations are done, is the next
operation again. -/
def Obligations.RaisedOperationIsExecutedAgain : Prop :=
  ∀ (info : PageInfo) (s t : State), takePageException info s = .next t →
    s.handlerQueue = [] ∧ nextSlot { t with handlerQueue := [] } = nextSlot s

/-- 60_exceptions.md R140, R145, 40_page_translation.md R85 to R88, 42_segment_and_page.md R122: where the translation of an
operand, or of a part of an operand across a page boundary, raises, the operation takes the page exception in the state the
raise leaves; the record has that part's own linear address, the access and the mode. And for every draw: of an operand across
a page boundary, where one part has no usable line and a PTE with P = 0, the other part is ready, and in a store lies apart
from the first's entries, the exception is of the part that is not present, with its linear address, and nothing is
returned. -/
def Obligations.RaisingAccessTakesTheException : Prop :=
  (∀ (s t : State) (lin : Word) (n : Nat) (v at_ : Word) (info : PageInfo), OperandAdmitted lin n →
    (OperandRaises s .load lin n at_ info t →
      info = ⟨at_, .read, s.mode, info.cause, info.level⟩ ∧
      exec (.read lin n) s = takePageException info t ∧ exec (.fetch lin n) s = takePageException info t ∧
      (∀ sel off, segTranslate s.platform sel off n .read s.mode = some lin →
        exec (.logicalRead sel off n) s = takePageException info t)) ∧
    (OperandRaises s (.store v) lin n at_ info t →
      info = ⟨at_, .write, s.mode, info.cause, info.level⟩ ∧
      exec (.write lin n v) s = takePageException info t ∧
      (∀ sel off, segTranslate s.platform sel off n .write s.mode = some lin →
        exec (.logicalWrite sel off n v) s = takePageException info t))) ∧
  (∀ (s : State) (lin : Word) (n : Nat) (v : Word) (p q : Part) (m : List TlbLine) (pde1 pte1 pde2 : PresentEntry),
    s.Inv → OperandAdmitted lin n → crossesPage lin n = true →
    (p = firstPart lin ∧ q = secondPart lin n) ∨ (p = secondPart lin n ∧ q = firstPart lin) →
    populatedAt s.platform (physAddr pte1.frame p.lin) p.len = true → PageNotPresent s q.lin pde2 →
    (AccessReady s p.lin .read pde1 pte1 → Misses s q.lin .read m →
      ∃ t, SameControl s t ∧
        exec (.read lin n) s = takePageException ⟨q.lin, .read, s.mode, .notPresent, .table⟩ t ∧
        exec (.fetch lin n) s = takePageException ⟨q.lin, .read, s.mode, .notPresent, .table⟩ t ∧
        (∀ sel off, segTranslate s.platform sel off n .read s.mode = some lin →
          exec (.logicalRead sel off n) s = takePageException ⟨q.lin, .read, s.mode, .notPresent, .table⟩ t)) ∧
    (AccessReady s p.lin .write pde1 pte1 → Misses s q.lin .write m →
      ApartFromWalk s q.lin pde2 (physAddr pte1.frame p.lin) p.len →
      ∃ t, SameControl s t ∧
        exec (.write lin n v) s = takePageException ⟨q.lin, .write, s.mode, .notPresent, .table⟩ t ∧
        (∀ sel off, segTranslate s.platform sel off n .write s.mode = some lin →
          exec (.logicalWrite sel off n v) s = takePageException ⟨q.lin, .write, s.mode, .notPresent, .table⟩ t)))

/-! ### READ, WRITE, FETCH and the logical forms -/

/-- 40_page_translation.md R85, R87, R70, 42_segment_and_page.md R122: with PG = 0, READ, FETCH and LOGICAL_READ complete
and return the bytes at the linear address; nothing else changes but, for an operand across a page boundary, the number of
draws taken (log 19, 22). -/
def Obligations.ReadsCompleteWithPagingOff : Prop :=
  ∀ (s : State) (lin : Word) (n : Nat),
    s.pg = false → OperandAdmitted lin n → populatedAt s.platform lin n = true →
    let t := completeOp ((if crossesPage lin n then s.tick else s).pushResult (physRead s.mem lin n))
    exec (.read lin n) s = .next t ∧ exec (.fetch lin n) s = .next t ∧
    (∀ sel off, segTranslate s.platform sel off n .read s.mode = some lin →
      exec (.logicalRead sel off n) s = .next t)

/-- 40_page_translation.md R86, R70, 42_segment_and_page.md R122: with PG = 0, WRITE and LOGICAL_WRITE complete and store
the value's bytes at the linear address; nothing else changes but, for an operand across a page boundary, the number of
draws taken (log 19, 22). -/
def Obligations.WritesCompleteWithPagingOff : Prop :=
  ∀ (s : State) (lin : Word) (n : Nat) (v : Word),
    Memory.wf s.mem = true → s.pg = false → OperandAdmitted lin n → populatedAt s.platform lin n = true →
    let t := completeOp ((if crossesPage lin n then s.tick else s).withMem (physWrite s.mem lin n v))
    exec (.write lin n v) s = .next t ∧
    (∀ sel off, segTranslate s.platform sel off n .write s.mode = some lin →
      exec (.logicalWrite sel off n v) s = .next t)

/-- 40_page_translation.md R85, R87, 42_segment_and_page.md R122, an operand within a page: with PG = 1, where the walk
succeeds and no usable line disagrees with it, READ, FETCH and LOGICAL_READ complete and return the bytes of the frame, read
after the updates of the walk (20_memory.md R40). Registers are unchanged, and so is every byte outside the entries. -/
def Obligations.ReadsComplete : Prop :=
  ∀ (s : State) (lin : Word) (n : Nat) (pde pte : PresentEntry),
    OperandAdmitted lin n → crossesPage lin n = false → AccessReady s lin .read pde pte →
    populatedAt s.platform (physAddr pte.frame lin) n = true →
    ∃ t, exec (.read lin n) s = .next t ∧ exec (.fetch lin n) s = .next t ∧
      (∀ sel off, segTranslate s.platform sel off n .read s.mode = some lin →
        exec (.logicalRead sel off n) s = .next t) ∧
      SameRegisters s t ∧ PlaceCompleted s t ∧
      t.results = physRead t.mem (physAddr pte.frame lin) n :: s.results ∧
      ∀ a, translationMayWrite s lin a = false → Memory.read t.mem a = Memory.read s.mem a

/-- 40_page_translation.md R86, 42_segment_and_page.md R122, an operand within a page: with PG = 1, where the walk succeeds
and no usable line disagrees with it, WRITE and LOGICAL_WRITE complete and store the value's bytes in the frame, after the
updates of the walk. Registers and results are unchanged, and so is every byte outside the entries and the operand. -/
def Obligations.WritesComplete : Prop :=
  ∀ (s : State) (lin : Word) (n : Nat) (v : Word) (pde pte : PresentEntry),
    Memory.wf s.mem = true → OperandAdmitted lin n → crossesPage lin n = false → AccessReady s lin .write pde pte →
    populatedAt s.platform (physAddr pte.frame lin) n = true →
    ∃ t, exec (.write lin n v) s = .next t ∧
      (∀ sel off, segTranslate s.platform sel off n .write s.mode = some lin →
        exec (.logicalWrite sel off n v) s = .next t) ∧
      SameRegisters s t ∧ PlaceCompleted s t ∧ t.results = s.results ∧
      (∀ k, k < n → Memory.read t.mem ((physAddr pte.frame lin).toNat + k) = (v >>> (8 * k)).setWidth 8) ∧
      ∀ a, translationMayWrite s lin a = false →
        (a < (physAddr pte.frame lin).toNat ∨ (physAddr pte.frame lin).toNat + n ≤ a) →
        Memory.read t.mem a = Memory.read s.mem a

/-- 40_page_translation.md R80, R81, R86, R88, 42_segment_and_page.md R122: of a WRITE or LOGICAL_WRITE that completes, each
part whose translation walks leaves A of both its entries and D of its PTE set in memory, where the operand does not itself
overwrite an entry: an operand within a page, and each part of one across a page boundary, whatever serves the other part. (D
of a PTE that is also the PDE of the other part's walk is a draw: R83.) -/
def Obligations.WriteThatWalksLeavesDirtySet : Prop :=
  (∀ (s : State) (lin : Word) (n : Nat) (v : Word) (m : List TlbLine) (pde pte : PresentEntry),
    Memory.wf s.mem = true → OperandAdmitted lin n → crossesPage lin n = false →
    Misses s lin .write m → WalkSucceeds s lin .write pde pte →
    populatedAt s.platform (physAddr pte.frame lin) n = true →
    ApartFromWalk s lin pde (physAddr pte.frame lin) n →
    ∃ t, exec (.write lin n v) s = .next t ∧
      (∀ sel off, segTranslate s.platform sel off n .write s.mode = some lin →
        exec (.logicalWrite sel off n v) s = .next t) ∧
      (physRead t.mem (pdeAddr s.cr3 lin) 4).getLsbD 5 = true ∧
      (physRead t.mem (pteAddr pde.frame lin) 4).getLsbD 5 = true ∧
      (physRead t.mem (pteAddr pde.frame lin) 4).getLsbD 6 = true) ∧
  (∀ (s : State) (lin : Word) (n : Nat) (v : Word) (pde1 pte1 pde2 pte2 : PresentEntry),
    s.Inv → OperandAdmitted lin n → crossesPage lin n = true →
    AccessServed s lin .write pde1 pte1 → AccessServed s (secondPart lin n).lin .write pde2 pte2 →
    (∀ f, MayUseFrame s lin .write pte1 f → populatedAt s.platform (physAddr f lin) (bytesBefore lin) = true) →
    (∀ f, MayUseFrame s (secondPart lin n).lin .write pte2 f →
      populatedAt s.platform (physAddr f (secondPart lin n).lin) (n - bytesBefore lin) = true) →
    (∀ f1 f2, MayUseFrame s lin .write pte1 f1 → MayUseFrame s (secondPart lin n).lin .write pte2 f2 →
      PartsApart s lin n pde1 pde2 f1 f2) →
    ∃ t, exec (.write lin n v) s = .next t ∧
      (∀ sel off, segTranslate s.platform sel off n .write s.mode = some lin →
        exec (.logicalWrite sel off n v) s = .next t) ∧
      (∀ m, Misses s lin .write m →
        (physRead t.mem (pdeAddr s.cr3 lin) 4).getLsbD 5 = true ∧
        (physRead t.mem (pteAddr pde1.frame lin) 4).getLsbD 5 = true ∧
        (pteAddr pde1.frame lin ≠ pdeAddr s.cr3 (secondPart lin n).lin →
          (physRead t.mem (pteAddr pde1.frame lin) 4).getLsbD 6 = true)) ∧
      (∀ m, Misses s (secondPart lin n).lin .write m →
        (physRead t.mem (pdeAddr s.cr3 (secondPart lin n).lin) 4).getLsbD 5 = true ∧
        (physRead t.mem (pteAddr pde2.frame (secondPart lin n).lin) 4).getLsbD 5 = true ∧
        (pteAddr pde2.frame (secondPart lin n).lin ≠ pdeAddr s.cr3 lin →
          (physRead t.mem (pteAddr pde2.frame (secondPart lin n).lin) 4).getLsbD 6 = true)))

/-- 41_translation_cache.md R101, R105, an operand within a page: with a line that disagrees with the tables, READ, FETCH and
LOGICAL_READ complete all the same and return the bytes of the line's frame, with memory as it was, or, after a walk, those of
the PTE's frame; WRITE and LOGICAL_WRITE through a line with `d = 1` complete and store in the line's frame, with no entry
updated, or, after a walk, in the PTE's, with D of the PTE set. -/
def Obligations.AccessesCompleteWithStaleLine : Prop :=
  ∀ (s : State) (lin : Word) (n : Nat) (m : List TlbLine) (l : TlbLine) (pde pte : PresentEntry),
    OperandAdmitted lin n → crossesPage lin n = false → s.pg = true → CacheIs s m →
    populatedAt s.platform (physAddr l.frame lin) n = true → populatedAt s.platform (physAddr pte.frame lin) n = true →
    (hitLine lin .read m = some l → linePermits s.platform l .read s.mode = true → WalkSucceeds s lin .read pde pte →
      ∃ t, exec (.read lin n) s = .next t ∧ exec (.fetch lin n) s = .next t ∧
        (∀ sel off, segTranslate s.platform sel off n .read s.mode = some lin →
          exec (.logicalRead sel off n) s = .next t) ∧
        SameRegisters s t ∧ PlaceCompleted s t ∧
        ((t.mem = s.mem ∧ t.results = physRead s.mem (physAddr l.frame lin) n :: s.results) ∨
          (t.results = physRead t.mem (physAddr pte.frame lin) n :: s.results ∧
            ∀ a, translationMayWrite s lin a = false → Memory.read t.mem a = Memory.read s.mem a))) ∧
    (Memory.wf s.mem = true → hitLine lin .write m = some l → linePermits s.platform l .write s.mode = true →
      WalkSucceeds s lin .write pde pte →
      ∀ v, ∃ t, exec (.write lin n v) s = .next t ∧
        (∀ sel off, segTranslate s.platform sel off n .write s.mode = some lin →
          exec (.logicalWrite sel off n v) s = .next t) ∧
        SameRegisters s t ∧ PlaceCompleted s t ∧ t.results = s.results ∧
        (t.mem = physWrite s.mem (physAddr l.frame lin) n v ∨
          ((∀ k, k < n → Memory.read t.mem ((physAddr pte.frame lin).toNat + k) = (v >>> (8 * k)).setWidth 8) ∧
            (∀ a, translationMayWrite s lin a = false →
              (a < (physAddr pte.frame lin).toNat ∨ (physAddr pte.frame lin).toNat + n ≤ a) →
              Memory.read t.mem a = Memory.read s.mem a) ∧
            (ApartFromWalk s lin pde (physAddr pte.frame lin) n →
              (physRead t.mem (pteAddr pde.frame lin) 4).getLsbD 6 = true))))

/-- 40_page_translation.md R88 (the spec's decision D17), 41_translation_cache.md R105: an operand across a page boundary,
both of whose parts are served, each by the tables or by a line of the cache, stale or not: READ, FETCH and LOGICAL_READ
complete for every draw. Where the operand lies apart from the entries of the walks, the result is part 1's bytes below part
2's, at the frames used: the PTE's, or that of the line the part hits. -/
def Obligations.ReadsAcrossPagesComplete : Prop :=
  ∀ (s : State) (lin : Word) (n : Nat) (pde1 pte1 pde2 pte2 : PresentEntry),
    s.Inv → OperandAdmitted lin n → crossesPage lin n = true →
    AccessServed s lin .read pde1 pte1 → AccessServed s (secondPart lin n).lin .read pde2 pte2 →
    (∀ f, MayUseFrame s lin .read pte1 f → populatedAt s.platform (physAddr f lin) (bytesBefore lin) = true) →
    (∀ f, MayUseFrame s (secondPart lin n).lin .read pte2 f →
      populatedAt s.platform (physAddr f (secondPart lin n).lin) (n - bytesBefore lin) = true) →
    ∃ t v f1 f2, exec (.read lin n) s = .next t ∧ exec (.fetch lin n) s = .next t ∧
      (∀ sel off, segTranslate s.platform sel off n .read s.mode = some lin →
        exec (.logicalRead sel off n) s = .next t) ∧
      SameRegisters s t ∧ PlaceCompleted s t ∧ t.results = v :: s.results ∧
      MayUseFrame s lin .read pte1 f1 ∧ MayUseFrame s (secondPart lin n).lin .read pte2 f2 ∧
      (PartsApart s lin n pde1 pde2 f1 f2 →
        v = physRead s.mem (physAddr f1 lin) (bytesBefore lin) |||
          physRead s.mem (physAddr f2 (secondPart lin n).lin) (n - bytesBefore lin) <<< (8 * bytesBefore lin))

/-- 40_page_translation.md R88 (the spec's decision D17), 41_translation_cache.md R105: an operand across a page boundary,
both of whose parts are served, each by the tables or by a line of the cache, stale or not, and neither of which overwrites an
entry of the walks: WRITE and LOGICAL_WRITE complete for every draw, part 1's bytes go to the first frame used and part 2's
to the second, the PTE's or that of the line the part hits, and no other byte outside the entries changes. -/
def Obligations.WritesAcrossPagesComplete : Prop :=
  ∀ (s : State) (lin : Word) (n : Nat) (v : Word) (pde1 pte1 pde2 pte2 : PresentEntry),
    s.Inv → OperandAdmitted lin n → crossesPage lin n = true →
    AccessServed s lin .write pde1 pte1 → AccessServed s (secondPart lin n).lin .write pde2 pte2 →
    (∀ f, MayUseFrame s lin .write pte1 f → populatedAt s.platform (physAddr f lin) (bytesBefore lin) = true) →
    (∀ f, MayUseFrame s (secondPart lin n).lin .write pte2 f →
      populatedAt s.platform (physAddr f (secondPart lin n).lin) (n - bytesBefore lin) = true) →
    (∀ f1 f2, MayUseFrame s lin .write pte1 f1 → MayUseFrame s (secondPart lin n).lin .write pte2 f2 →
      PartsApart s lin n pde1 pde2 f1 f2) →
    ∃ t f1 f2, exec (.write lin n v) s = .next t ∧
      (∀ sel off, segTranslate s.platform sel off n .write s.mode = some lin →
        exec (.logicalWrite sel off n v) s = .next t) ∧
      SameRegisters s t ∧ PlaceCompleted s t ∧ t.results = s.results ∧
      MayUseFrame s lin .write pte1 f1 ∧ MayUseFrame s (secondPart lin n).lin .write pte2 f2 ∧
      (∀ k, k < bytesBefore lin →
        Memory.read t.mem ((physAddr f1 lin).toNat + k) = (v >>> (8 * k)).setWidth 8) ∧
      (∀ k, k < n - bytesBefore lin →
        Memory.read t.mem ((physAddr f2 (secondPart lin n).lin).toNat + k) =
          (v >>> (8 * (bytesBefore lin + k))).setWidth 8) ∧
      ∀ a, translationMayWrite s lin a = false → translationMayWrite s (secondPart lin n).lin a = false →
        (a < (physAddr f1 lin).toNat ∨ (physAddr f1 lin).toNat + bytesBefore lin ≤ a) →
        (a < (physAddr f2 (secondPart lin n).lin).toNat ∨
          (physAddr f2 (secondPart lin n).lin).toNat + (n - bytesBefore lin) ≤ a) →
        Memory.read t.mem a = Memory.read s.mem a

/-- 40_page_translation.md R87 (the spec's decision D18): FETCH is READ. -/
def Obligations.FetchIsRead : Prop :=
  ∀ (s : State) (lin : Word) (n : Nat), exec (.fetch lin n) s = exec (.read lin n) s

/-- The frame of READ, FETCH and LOGICAL_READ, completed or taking the exception: registers unchanged; one result more, or
the record of an exception of the operand, or of one of its parts, with its own linear address, a read and the mode
(60_exceptions.md R145); and no byte changes but in the entries of the translations of the operand's parts. -/
def Obligations.ReadFrame : Prop :=
  ∀ (s t : State) (lin : Word) (n : Nat),
    Memory.wf s.mem = true →
    (exec (.read lin n) s = .next t ∨ exec (.fetch lin n) s = .next t ∨
      ∃ sel off, segTranslate s.platform sel off n .read s.mode = some lin ∧ exec (.logicalRead sel off n) s = .next t) →
    SameRegisters s t ∧
    ((PlaceCompleted s t ∧ ∃ v, t.results = v :: s.results) ∨
      (t.results = s.results ∧ t.index = s.index ∧
        ∃ info, t.exception = some info ∧ info.acc = .read ∧ info.mode = s.mode ∧
          (info.lin = lin ∨ (crossesPage lin n = true ∧ info.lin = (secondPart lin n).lin)))) ∧
    ∀ a, translationMayWrite s lin a = false →
      (crossesPage lin n = true → translationMayWrite s (secondPart lin n).lin a = false) →
      Memory.read t.mem a = Memory.read s.mem a

/-- The frame of WRITE and LOGICAL_WRITE on an operand within a page, completed or taking the exception, whose record has the
operand's linear address, a write and the mode (60_exceptions.md R145): registers and results unchanged; no byte changes but
in the entries of the translation and, where the translation gives `pa`, the `n` bytes at `pa`. -/
def Obligations.WriteFrame : Prop :=
  ∀ (s t : State) (lin : Word) (n : Nat) (v : Word),
    crossesPage lin n = false →
    (exec (.write lin n v) s = .next t ∨
      ∃ sel off, segTranslate s.platform sel off n .write s.mode = some lin ∧ exec (.logicalWrite sel off n v) s = .next t) →
    SameRegisters s t ∧ t.results = s.results ∧
    (PlaceCompleted s t ∨
      (t.index = s.index ∧
        ∃ info, t.exception = some info ∧ info.acc = .write ∧ info.mode = s.mode ∧ info.lin = lin)) ∧
    ∀ a, translationMayWrite s lin a = false →
      (∀ pa u, Machine.translate Config.choose lin .write s = .done pa u → a < pa.toNat ∨ pa.toNat + n ≤ a) →
      Memory.read t.mem a = Memory.read s.mem a

/-- The frame of WRITE and LOGICAL_WRITE on an operand across a page boundary, completed or taking the exception, whose record
has the linear address of one of the parts, a write and the mode (60_exceptions.md R145): registers and results unchanged. Of
its two parts in the drawn order (`p` first), with `betweenParts` the state in which the second is translated: no byte changes
but in the entries of the two translations and in the bytes at the two physical addresses they give. -/
def Obligations.WriteAcrossPagesFrame : Prop :=
  ∀ (s t : State) (lin : Word) (n : Nat) (v : Word),
    crossesPage lin n = true →
    (exec (.write lin n v) s = .next t ∨
      ∃ sel off, segTranslate s.platform sel off n .write s.mode = some lin ∧ exec (.logicalWrite sel off n v) s = .next t) →
    SameRegisters s t ∧ t.results = s.results ∧
    (PlaceCompleted s t ∨
      (t.index = s.index ∧
        ∃ info, t.exception = some info ∧ info.acc = .write ∧ info.mode = s.mode ∧
          (info.lin = lin ∨ info.lin = (secondPart lin n).lin))) ∧
    ∀ p q, (p, q) = partsInOrder s lin n →
    ∀ a, translationMayWrite s p.lin a = false →
      (∀ pa s1, Machine.translate Config.choose p.lin .write s.tick = .done pa s1 →
        (a < pa.toNat ∨ pa.toNat + p.len ≤ a) ∧
        translationMayWrite (betweenParts s (.store v) p pa s1) q.lin a = false ∧
        ∀ qa s2, Machine.translate Config.choose q.lin .write (betweenParts s (.store v) p pa s1) = .done qa s2 →
          a < qa.toNat ∨ qa.toNat + q.len ≤ a) →
      Memory.read t.mem a = Memory.read s.mem a

/-- 40_page_translation.md R85, R86, 20_memory.md R34, 42_segment_and_page.md R121: a size outside {1, 2, 4} and an operand
past linear address FFFFFFFF (D17) are refused, and a failure of `SegTranslate` is, before any table is read; an operand
within a page that is translated to where there is no memory is refused (20_memory.md R38, D21). -/
def Obligations.RefusedOperands : Prop :=
  ∀ (s : State) (lin : Word) (n : Nat) (v : Word) (sel : Selector) (off : Word),
    (sizeAdmitted n = false → exec (.read lin n) s = .refused .sizeNotAdmitted ∧
      exec (.fetch lin n) s = .refused .sizeNotAdmitted ∧ exec (.write lin n v) s = .refused .sizeNotAdmitted) ∧
    (sizeAdmitted n = true → spaceSize < lin.toNat + n → exec (.read lin n) s = .refused .linearWrap ∧
      exec (.fetch lin n) s = .refused .linearWrap ∧ exec (.write lin n v) s = .refused .linearWrap) ∧
    (segTranslate s.platform sel off n .read s.mode = none →
      exec (.logicalRead sel off n) s = .refused .segmentCheckNotInSource) ∧
    (segTranslate s.platform sel off n .write s.mode = none →
      exec (.logicalWrite sel off n v) s = .refused .segmentCheckNotInSource) ∧
    (OperandAdmitted lin n → crossesPage lin n = false → ∀ pa t, populatedAt s.platform pa n = false →
      (Machine.translate Config.choose lin .read s = .done pa t →
        exec (.read lin n) s = .refused .unpopulated ∧ exec (.fetch lin n) s = .refused .unpopulated) ∧
      (Machine.translate Config.choose lin .write s = .done pa t → exec (.write lin n v) s = .refused .unpopulated))

/-! ### Segment and page translation combined -/

/-- 42_segment_and_page.md R120, R122 (the sum modulo 2^32 is the spec's decision D22, log 17): where the descriptor's checks
pass, a logical access is the linear access at base plus offset. -/
def Obligations.LogicalAccessIsLinearAccessAtTheSum : Prop :=
  ∀ (s : State) (sel : Selector) (off : Word) (n : Nat) (v : Word) (d : Descriptor),
    descriptorOf sel s.platform.segments = some d →
    (segPermits d.check off n .read s.mode = true →
      exec (.logicalRead sel off n) s = exec (.read (d.base + off) n) s) ∧
    (segPermits d.check off n .write s.mode = true →
      exec (.logicalWrite sel off n v) s = exec (.write (d.base + off) n v) s)

/-- 42_segment_and_page.md R127: with a base whose low 22 bits are zero, every offset below 2^22 is translated by the one
PDE `d` and its one page table: DIR = d, PAGE = off[21:12], OFFSET = off[11:0]. -/
def Obligations.PageTablePerSegment : Prop :=
  ∀ (d : BitVec 10) (off : Word), off.toNat < 2 ^ 22 →
    (splitLinear ((d ++ 0#22) + off)).dir = d ∧
    (splitLinear ((d ++ 0#22) + off)).page = (splitLinear off).page ∧
    (splitLinear ((d ++ 0#22) + off)).offset = (splitLinear off).offset
end

