-- ==== Sys2Proof/Laws/State.lean ====
section
/-!
SUPPORT. One lemma per field per update of the state, so that no proof unfolds a record update.
-/

namespace Sys2Proof.Machine

@[simp] theorem State.withPg_pg (s : State) (b : Bool) : (s.withPg b).pg = b := rfl
@[simp] theorem State.withPg_cr3 (s : State) (b : Bool) : (s.withPg b).cr3 = s.cr3 := rfl
@[simp] theorem State.withPg_eax (s : State) (b : Bool) : (s.withPg b).eax = s.eax := rfl
@[simp] theorem State.withPg_mem (s : State) (b : Bool) : (s.withPg b).mem = s.mem := rfl
@[simp] theorem State.withPg_tlb (s : State) (b : Bool) : (s.withPg b).tlb = s.tlb := rfl
@[simp] theorem State.withPg_mode (s : State) (b : Bool) : (s.withPg b).mode = s.mode := rfl
@[simp] theorem State.withPg_program (s : State) (b : Bool) : (s.withPg b).program = s.program := rfl
@[simp] theorem State.withPg_index (s : State) (b : Bool) : (s.withPg b).index = s.index := rfl
@[simp] theorem State.withPg_handlerQueue (s : State) (b : Bool) : (s.withPg b).handlerQueue = s.handlerQueue := rfl
@[simp] theorem State.withPg_exception (s : State) (b : Bool) : (s.withPg b).exception = s.exception := rfl
@[simp] theorem State.withPg_results (s : State) (b : Bool) : (s.withPg b).results = s.results := rfl
@[simp] theorem State.withPg_platform (s : State) (b : Bool) : (s.withPg b).platform = s.platform := rfl
@[simp] theorem State.withPg_drawIdx (s : State) (b : Bool) : (s.withPg b).drawIdx = s.drawIdx := rfl

@[simp] theorem State.withCr3_pg (s : State) (v : Word) : (s.withCr3 v).pg = s.pg := rfl
@[simp] theorem State.withCr3_cr3 (s : State) (v : Word) : (s.withCr3 v).cr3 = v := rfl
@[simp] theorem State.withCr3_eax (s : State) (v : Word) : (s.withCr3 v).eax = s.eax := rfl
@[simp] theorem State.withCr3_mem (s : State) (v : Word) : (s.withCr3 v).mem = s.mem := rfl
@[simp] theorem State.withCr3_tlb (s : State) (v : Word) : (s.withCr3 v).tlb = s.tlb := rfl
@[simp] theorem State.withCr3_mode (s : State) (v : Word) : (s.withCr3 v).mode = s.mode := rfl
@[simp] theorem State.withCr3_program (s : State) (v : Word) : (s.withCr3 v).program = s.program := rfl
@[simp] theorem State.withCr3_index (s : State) (v : Word) : (s.withCr3 v).index = s.index := rfl
@[simp] theorem State.withCr3_handlerQueue (s : State) (v : Word) : (s.withCr3 v).handlerQueue = s.handlerQueue := rfl
@[simp] theorem State.withCr3_exception (s : State) (v : Word) : (s.withCr3 v).exception = s.exception := rfl
@[simp] theorem State.withCr3_results (s : State) (v : Word) : (s.withCr3 v).results = s.results := rfl
@[simp] theorem State.withCr3_platform (s : State) (v : Word) : (s.withCr3 v).platform = s.platform := rfl
@[simp] theorem State.withCr3_drawIdx (s : State) (v : Word) : (s.withCr3 v).drawIdx = s.drawIdx := rfl

@[simp] theorem State.withEax_pg (s : State) (v : Word) : (s.withEax v).pg = s.pg := rfl
@[simp] theorem State.withEax_cr3 (s : State) (v : Word) : (s.withEax v).cr3 = s.cr3 := rfl
@[simp] theorem State.withEax_eax (s : State) (v : Word) : (s.withEax v).eax = v := rfl
@[simp] theorem State.withEax_mem (s : State) (v : Word) : (s.withEax v).mem = s.mem := rfl
@[simp] theorem State.withEax_tlb (s : State) (v : Word) : (s.withEax v).tlb = s.tlb := rfl
@[simp] theorem State.withEax_mode (s : State) (v : Word) : (s.withEax v).mode = s.mode := rfl
@[simp] theorem State.withEax_program (s : State) (v : Word) : (s.withEax v).program = s.program := rfl
@[simp] theorem State.withEax_index (s : State) (v : Word) : (s.withEax v).index = s.index := rfl
@[simp] theorem State.withEax_handlerQueue (s : State) (v : Word) : (s.withEax v).handlerQueue = s.handlerQueue := rfl
@[simp] theorem State.withEax_exception (s : State) (v : Word) : (s.withEax v).exception = s.exception := rfl
@[simp] theorem State.withEax_results (s : State) (v : Word) : (s.withEax v).results = s.results := rfl
@[simp] theorem State.withEax_platform (s : State) (v : Word) : (s.withEax v).platform = s.platform := rfl
@[simp] theorem State.withEax_drawIdx (s : State) (v : Word) : (s.withEax v).drawIdx = s.drawIdx := rfl

@[simp] theorem State.withMem_pg (s : State) (m : Memory) : (s.withMem m).pg = s.pg := rfl
@[simp] theorem State.withMem_cr3 (s : State) (m : Memory) : (s.withMem m).cr3 = s.cr3 := rfl
@[simp] theorem State.withMem_eax (s : State) (m : Memory) : (s.withMem m).eax = s.eax := rfl
@[simp] theorem State.withMem_mem (s : State) (m : Memory) : (s.withMem m).mem = m := rfl
@[simp] theorem State.withMem_tlb (s : State) (m : Memory) : (s.withMem m).tlb = s.tlb := rfl
@[simp] theorem State.withMem_mode (s : State) (m : Memory) : (s.withMem m).mode = s.mode := rfl
@[simp] theorem State.withMem_program (s : State) (m : Memory) : (s.withMem m).program = s.program := rfl
@[simp] theorem State.withMem_index (s : State) (m : Memory) : (s.withMem m).index = s.index := rfl
@[simp] theorem State.withMem_handlerQueue (s : State) (m : Memory) : (s.withMem m).handlerQueue = s.handlerQueue := rfl
@[simp] theorem State.withMem_exception (s : State) (m : Memory) : (s.withMem m).exception = s.exception := rfl
@[simp] theorem State.withMem_results (s : State) (m : Memory) : (s.withMem m).results = s.results := rfl
@[simp] theorem State.withMem_platform (s : State) (m : Memory) : (s.withMem m).platform = s.platform := rfl
@[simp] theorem State.withMem_drawIdx (s : State) (m : Memory) : (s.withMem m).drawIdx = s.drawIdx := rfl

@[simp] theorem State.withTlb_pg (s : State) (t : Tlb) : (s.withTlb t).pg = s.pg := rfl
@[simp] theorem State.withTlb_cr3 (s : State) (t : Tlb) : (s.withTlb t).cr3 = s.cr3 := rfl
@[simp] theorem State.withTlb_eax (s : State) (t : Tlb) : (s.withTlb t).eax = s.eax := rfl
@[simp] theorem State.withTlb_mem (s : State) (t : Tlb) : (s.withTlb t).mem = s.mem := rfl
@[simp] theorem State.withTlb_tlb (s : State) (t : Tlb) : (s.withTlb t).tlb = t := rfl
@[simp] theorem State.withTlb_mode (s : State) (t : Tlb) : (s.withTlb t).mode = s.mode := rfl
@[simp] theorem State.withTlb_program (s : State) (t : Tlb) : (s.withTlb t).program = s.program := rfl
@[simp] theorem State.withTlb_index (s : State) (t : Tlb) : (s.withTlb t).index = s.index := rfl
@[simp] theorem State.withTlb_handlerQueue (s : State) (t : Tlb) : (s.withTlb t).handlerQueue = s.handlerQueue := rfl
@[simp] theorem State.withTlb_exception (s : State) (t : Tlb) : (s.withTlb t).exception = s.exception := rfl
@[simp] theorem State.withTlb_results (s : State) (t : Tlb) : (s.withTlb t).results = s.results := rfl
@[simp] theorem State.withTlb_platform (s : State) (t : Tlb) : (s.withTlb t).platform = s.platform := rfl
@[simp] theorem State.withTlb_drawIdx (s : State) (t : Tlb) : (s.withTlb t).drawIdx = s.drawIdx := rfl

@[simp] theorem State.withMode_pg (s : State) (m : Mode) : (s.withMode m).pg = s.pg := rfl
@[simp] theorem State.withMode_cr3 (s : State) (m : Mode) : (s.withMode m).cr3 = s.cr3 := rfl
@[simp] theorem State.withMode_eax (s : State) (m : Mode) : (s.withMode m).eax = s.eax := rfl
@[simp] theorem State.withMode_mem (s : State) (m : Mode) : (s.withMode m).mem = s.mem := rfl
@[simp] theorem State.withMode_tlb (s : State) (m : Mode) : (s.withMode m).tlb = s.tlb := rfl
@[simp] theorem State.withMode_mode (s : State) (m : Mode) : (s.withMode m).mode = m := rfl
@[simp] theorem State.withMode_program (s : State) (m : Mode) : (s.withMode m).program = s.program := rfl
@[simp] theorem State.withMode_index (s : State) (m : Mode) : (s.withMode m).index = s.index := rfl
@[simp] theorem State.withMode_handlerQueue (s : State) (m : Mode) : (s.withMode m).handlerQueue = s.handlerQueue := rfl
@[simp] theorem State.withMode_exception (s : State) (m : Mode) : (s.withMode m).exception = s.exception := rfl
@[simp] theorem State.withMode_results (s : State) (m : Mode) : (s.withMode m).results = s.results := rfl
@[simp] theorem State.withMode_platform (s : State) (m : Mode) : (s.withMode m).platform = s.platform := rfl
@[simp] theorem State.withMode_drawIdx (s : State) (m : Mode) : (s.withMode m).drawIdx = s.drawIdx := rfl

@[simp] theorem State.withProgram_pg (s : State) (p : List Slot) : (s.withProgram p).pg = s.pg := rfl
@[simp] theorem State.withProgram_cr3 (s : State) (p : List Slot) : (s.withProgram p).cr3 = s.cr3 := rfl
@[simp] theorem State.withProgram_eax (s : State) (p : List Slot) : (s.withProgram p).eax = s.eax := rfl
@[simp] theorem State.withProgram_mem (s : State) (p : List Slot) : (s.withProgram p).mem = s.mem := rfl
@[simp] theorem State.withProgram_tlb (s : State) (p : List Slot) : (s.withProgram p).tlb = s.tlb := rfl
@[simp] theorem State.withProgram_mode (s : State) (p : List Slot) : (s.withProgram p).mode = s.mode := rfl
@[simp] theorem State.withProgram_program (s : State) (p : List Slot) : (s.withProgram p).program = p := rfl
@[simp] theorem State.withProgram_index (s : State) (p : List Slot) : (s.withProgram p).index = s.index := rfl
@[simp] theorem State.withProgram_handlerQueue (s : State) (p : List Slot) : (s.withProgram p).handlerQueue = s.handlerQueue := rfl
@[simp] theorem State.withProgram_exception (s : State) (p : List Slot) : (s.withProgram p).exception = s.exception := rfl
@[simp] theorem State.withProgram_results (s : State) (p : List Slot) : (s.withProgram p).results = s.results := rfl
@[simp] theorem State.withProgram_platform (s : State) (p : List Slot) : (s.withProgram p).platform = s.platform := rfl
@[simp] theorem State.withProgram_drawIdx (s : State) (p : List Slot) : (s.withProgram p).drawIdx = s.drawIdx := rfl

@[simp] theorem State.withIndex_pg (s : State) (i : Nat) : (s.withIndex i).pg = s.pg := rfl
@[simp] theorem State.withIndex_cr3 (s : State) (i : Nat) : (s.withIndex i).cr3 = s.cr3 := rfl
@[simp] theorem State.withIndex_eax (s : State) (i : Nat) : (s.withIndex i).eax = s.eax := rfl
@[simp] theorem State.withIndex_mem (s : State) (i : Nat) : (s.withIndex i).mem = s.mem := rfl
@[simp] theorem State.withIndex_tlb (s : State) (i : Nat) : (s.withIndex i).tlb = s.tlb := rfl
@[simp] theorem State.withIndex_mode (s : State) (i : Nat) : (s.withIndex i).mode = s.mode := rfl
@[simp] theorem State.withIndex_program (s : State) (i : Nat) : (s.withIndex i).program = s.program := rfl
@[simp] theorem State.withIndex_index (s : State) (i : Nat) : (s.withIndex i).index = i := rfl
@[simp] theorem State.withIndex_handlerQueue (s : State) (i : Nat) : (s.withIndex i).handlerQueue = s.handlerQueue := rfl
@[simp] theorem State.withIndex_exception (s : State) (i : Nat) : (s.withIndex i).exception = s.exception := rfl
@[simp] theorem State.withIndex_results (s : State) (i : Nat) : (s.withIndex i).results = s.results := rfl
@[simp] theorem State.withIndex_platform (s : State) (i : Nat) : (s.withIndex i).platform = s.platform := rfl
@[simp] theorem State.withIndex_drawIdx (s : State) (i : Nat) : (s.withIndex i).drawIdx = s.drawIdx := rfl

@[simp] theorem State.withQueue_pg (s : State) (q : List Code) : (s.withQueue q).pg = s.pg := rfl
@[simp] theorem State.withQueue_cr3 (s : State) (q : List Code) : (s.withQueue q).cr3 = s.cr3 := rfl
@[simp] theorem State.withQueue_eax (s : State) (q : List Code) : (s.withQueue q).eax = s.eax := rfl
@[simp] theorem State.withQueue_mem (s : State) (q : List Code) : (s.withQueue q).mem = s.mem := rfl
@[simp] theorem State.withQueue_tlb (s : State) (q : List Code) : (s.withQueue q).tlb = s.tlb := rfl
@[simp] theorem State.withQueue_mode (s : State) (q : List Code) : (s.withQueue q).mode = s.mode := rfl
@[simp] theorem State.withQueue_program (s : State) (q : List Code) : (s.withQueue q).program = s.program := rfl
@[simp] theorem State.withQueue_index (s : State) (q : List Code) : (s.withQueue q).index = s.index := rfl
@[simp] theorem State.withQueue_handlerQueue (s : State) (q : List Code) : (s.withQueue q).handlerQueue = q := rfl
@[simp] theorem State.withQueue_exception (s : State) (q : List Code) : (s.withQueue q).exception = s.exception := rfl
@[simp] theorem State.withQueue_results (s : State) (q : List Code) : (s.withQueue q).results = s.results := rfl
@[simp] theorem State.withQueue_platform (s : State) (q : List Code) : (s.withQueue q).platform = s.platform := rfl
@[simp] theorem State.withQueue_drawIdx (s : State) (q : List Code) : (s.withQueue q).drawIdx = s.drawIdx := rfl

@[simp] theorem State.withException_pg (s : State) (info : PageInfo) : (s.withException info).pg = s.pg := rfl
@[simp] theorem State.withException_cr3 (s : State) (info : PageInfo) : (s.withException info).cr3 = s.cr3 := rfl
@[simp] theorem State.withException_eax (s : State) (info : PageInfo) : (s.withException info).eax = s.eax := rfl
@[simp] theorem State.withException_mem (s : State) (info : PageInfo) : (s.withException info).mem = s.mem := rfl
@[simp] theorem State.withException_tlb (s : State) (info : PageInfo) : (s.withException info).tlb = s.tlb := rfl
@[simp] theorem State.withException_mode (s : State) (info : PageInfo) : (s.withException info).mode = s.mode := rfl
@[simp] theorem State.withException_program (s : State) (info : PageInfo) : (s.withException info).program = s.program := rfl
@[simp] theorem State.withException_index (s : State) (info : PageInfo) : (s.withException info).index = s.index := rfl
@[simp] theorem State.withException_handlerQueue (s : State) (info : PageInfo) : (s.withException info).handlerQueue = s.handlerQueue := rfl
@[simp] theorem State.withException_exception (s : State) (info : PageInfo) : (s.withException info).exception = some info := rfl
@[simp] theorem State.withException_results (s : State) (info : PageInfo) : (s.withException info).results = s.results := rfl
@[simp] theorem State.withException_platform (s : State) (info : PageInfo) : (s.withException info).platform = s.platform := rfl
@[simp] theorem State.withException_drawIdx (s : State) (info : PageInfo) : (s.withException info).drawIdx = s.drawIdx := rfl

@[simp] theorem State.pushResult_pg (s : State) (v : Word) : (s.pushResult v).pg = s.pg := rfl
@[simp] theorem State.pushResult_cr3 (s : State) (v : Word) : (s.pushResult v).cr3 = s.cr3 := rfl
@[simp] theorem State.pushResult_eax (s : State) (v : Word) : (s.pushResult v).eax = s.eax := rfl
@[simp] theorem State.pushResult_mem (s : State) (v : Word) : (s.pushResult v).mem = s.mem := rfl
@[simp] theorem State.pushResult_tlb (s : State) (v : Word) : (s.pushResult v).tlb = s.tlb := rfl
@[simp] theorem State.pushResult_mode (s : State) (v : Word) : (s.pushResult v).mode = s.mode := rfl
@[simp] theorem State.pushResult_program (s : State) (v : Word) : (s.pushResult v).program = s.program := rfl
@[simp] theorem State.pushResult_index (s : State) (v : Word) : (s.pushResult v).index = s.index := rfl
@[simp] theorem State.pushResult_handlerQueue (s : State) (v : Word) : (s.pushResult v).handlerQueue = s.handlerQueue := rfl
@[simp] theorem State.pushResult_exception (s : State) (v : Word) : (s.pushResult v).exception = s.exception := rfl
@[simp] theorem State.pushResult_results (s : State) (v : Word) : (s.pushResult v).results = v :: s.results := rfl
@[simp] theorem State.pushResult_platform (s : State) (v : Word) : (s.pushResult v).platform = s.platform := rfl
@[simp] theorem State.pushResult_drawIdx (s : State) (v : Word) : (s.pushResult v).drawIdx = s.drawIdx := rfl

@[simp] theorem State.tick_pg (s : State) : s.tick.pg = s.pg := rfl
@[simp] theorem State.tick_cr3 (s : State) : s.tick.cr3 = s.cr3 := rfl
@[simp] theorem State.tick_eax (s : State) : s.tick.eax = s.eax := rfl
@[simp] theorem State.tick_mem (s : State) : s.tick.mem = s.mem := rfl
@[simp] theorem State.tick_tlb (s : State) : s.tick.tlb = s.tlb := rfl
@[simp] theorem State.tick_mode (s : State) : s.tick.mode = s.mode := rfl
@[simp] theorem State.tick_program (s : State) : s.tick.program = s.program := rfl
@[simp] theorem State.tick_index (s : State) : s.tick.index = s.index := rfl
@[simp] theorem State.tick_handlerQueue (s : State) : s.tick.handlerQueue = s.handlerQueue := rfl
@[simp] theorem State.tick_exception (s : State) : s.tick.exception = s.exception := rfl
@[simp] theorem State.tick_results (s : State) : s.tick.results = s.results := rfl
@[simp] theorem State.tick_platform (s : State) : s.tick.platform = s.platform := rfl
@[simp] theorem State.tick_drawIdx (s : State) : s.tick.drawIdx = s.drawIdx + 1 := rfl

end Sys2Proof.Machine
end

