-- ==== Sys2Proof/Laws/Cache.lean ====
section
/-!
SUPPORT. The laws of the page-translation cache as a map from pages (spec/10_state.md R16, 41_translation_cache.md R101 to
R103).
-/

namespace Sys2Proof.Machine

theorem lookupLine_mem {vpn : Vpn} {m : List TlbLine} {l : TlbLine} (h : lookupLine vpn m = some l) :
    l ∈ m ∧ l.vpn = vpn := by
  induction m with
  | nil => cases h
  | cons x rest ih =>
    simp only [lookupLine] at h
    split at h
    · next hx => cases h; exact ⟨List.mem_cons_self, hx⟩
    · exact ⟨List.mem_cons_of_mem _ (ih h).1, (ih h).2⟩

theorem hitLine_mem {lin : Word} {acc : Access} {m : List TlbLine} {l : TlbLine} (h : hitLine lin acc m = some l) :
    l ∈ m ∧ l.vpn = vpnOf lin ∧ lineUsable acc l = true := by
  unfold hitLine at h
  split at h
  · next l' hl =>
    split at h
    · next hu => cases h; exact ⟨(lookupLine_mem hl).1, (lookupLine_mem hl).2, hu⟩
    · cases h
  · cases h

theorem mem_keptLines {ch : Draws} {m : List TlbLine} {l : TlbLine} :
    l ∈ keptLines ch m ↔ l ∈ m ∧ ch (.keepLine l.vpn) = true := by
  simp [keptLines]

/-- The lines after an insertion: the new one, and old ones. -/
theorem mem_insertLine {l x : TlbLine} {m : List TlbLine} (h : x ∈ insertLine l m) : x = l ∨ x ∈ m := by
  induction m with
  | nil => simpa [insertLine] using h
  | cons y rest ih =>
    simp only [insertLine] at h
    split at h
    · simpa using h
    · split at h
      · rcases List.mem_cons.1 h with h | h
        · exact .inl h
        · exact .inr (List.mem_cons_of_mem _ h)
      · rcases List.mem_cons.1 h with h | h
        · exact .inr (h ▸ List.mem_cons_self)
        · rcases ih h with h | h
          · exact .inl h
          · exact .inr (List.mem_cons_of_mem _ h)

/-- A page just inserted is found. -/
theorem lookup_insertLine (l : TlbLine) (m : List TlbLine) : lookupLine l.vpn (insertLine l m) = some l := by
  induction m with
  | nil => simp [insertLine, lookupLine]
  | cons y rest ih =>
    simp only [insertLine]
    split
    · simp [lookupLine]
    · split
      · simp [lookupLine]
      · next h => simp only [lookupLine]; rw [if_neg (fun hh => h hh.symm)]; exact ih

theorem linesRiseFrom_mono {lo lo' : Nat} (h : lo' ≤ lo) {m : List TlbLine} (hm : linesRiseFrom lo m = true) :
    linesRiseFrom lo' m = true := by
  cases m with
  | nil => rfl
  | cons x rest =>
    simp only [linesRiseFrom, Bool.and_eq_true, decide_eq_true_eq] at hm ⊢
    exact ⟨by omega, hm.2⟩

theorem linesRiseFrom_filter (p : TlbLine → Bool) {lo : Nat} {m : List TlbLine} (hm : linesRiseFrom lo m = true) :
    linesRiseFrom lo (m.filter p) = true := by
  induction m generalizing lo with
  | nil => rfl
  | cons x rest ih =>
    simp only [linesRiseFrom, Bool.and_eq_true, decide_eq_true_eq] at hm
    rw [List.filter_cons]
    split
    · simp only [linesRiseFrom, Bool.and_eq_true, decide_eq_true_eq]
      exact ⟨hm.1, ih hm.2⟩
    · exact ih (linesRiseFrom_mono (by omega) hm.2)

theorem linesRiseFrom_insert (l : TlbLine) {lo : Nat} {m : List TlbLine} (hl : lo ≤ l.vpn.toNat)
    (hm : linesRiseFrom lo m = true) : linesRiseFrom lo (insertLine l m) = true := by
  induction m generalizing lo with
  | nil => simp [insertLine, linesRiseFrom, hl]
  | cons x rest ih =>
    simp only [linesRiseFrom, Bool.and_eq_true, decide_eq_true_eq] at hm
    simp only [insertLine]
    split
    · next h =>
      simp only [linesRiseFrom, Bool.and_eq_true, decide_eq_true_eq]
      exact ⟨hl, by omega, hm.2⟩
    · split
      · next h =>
        simp only [linesRiseFrom, Bool.and_eq_true, decide_eq_true_eq]
        exact ⟨hl, h ▸ hm.2⟩
      · next h1 h2 =>
        simp only [linesRiseFrom, Bool.and_eq_true, decide_eq_true_eq]
        refine ⟨hm.1, ih ?_ hm.2⟩
        have : l.vpn.toNat ≠ x.vpn.toNat := fun h => h2 (BitVec.eq_of_toNat_eq h)
        omega

theorem keptLines_wf (ch : Draws) {m : List TlbLine} (h : Tlb.wf (.known m) = true) :
    Tlb.wf (.known (keptLines ch m)) = true :=
  linesRiseFrom_filter _ h

theorem insertLine_wf (l : TlbLine) {m : List TlbLine} (h : Tlb.wf (.known m) = true) :
    Tlb.wf (.known (insertLine l m)) = true :=
  linesRiseFrom_insert l (Nat.zero_le _) h

/-- After a drop the lookup of a page gives its line or nothing. -/
theorem lookupLine_kept (ch : Draws) (vpn : Vpn) (m : List TlbLine) :
    lookupLine vpn (keptLines ch m) = if ch (.keepLine vpn) then lookupLine vpn m else none := by
  induction m with
  | nil => simp [keptLines, lookupLine]
  | cons x rest ih' =>
    unfold keptLines at ih' ⊢
    rw [List.filter_cons]
    simp only [lookupLine]
    by_cases hx : x.vpn = vpn
    · subst hx
      by_cases hk : ch (.keepLine x.vpn) = true
      · simp [hk, lookupLine]
      · simp only [hk]
        simpa [hk] using ih'
    · simp only [hx, if_false]
      split
      · simp only [lookupLine, hx, if_false]; exact ih'
      · exact ih'

/-- After a drop an access hits the line it hit before, or none. -/
theorem hitLine_kept (ch : Draws) (lin : Word) (acc : Access) (m : List TlbLine) :
    hitLine lin acc (keptLines ch m) = if ch (.keepLine (vpnOf lin)) then hitLine lin acc m else none := by
  unfold hitLine
  rw [lookupLine_kept]
  split <;> simp_all

theorem lookupLine_of_mem {m : List TlbLine} {lo : Nat} (hm : linesRiseFrom lo m = true) {l : TlbLine} (h : l ∈ m) :
    lookupLine l.vpn m = some l ∧ lo ≤ l.vpn.toNat := by
  induction m generalizing lo with
  | nil => cases h
  | cons x rest ih =>
    simp only [linesRiseFrom, Bool.and_eq_true, decide_eq_true_eq] at hm
    rcases List.mem_cons.1 h with rfl | h
    · exact ⟨by simp [lookupLine], hm.1⟩
    · obtain ⟨h1, h2⟩ := ih hm.2 h
      have : x.vpn ≠ l.vpn := fun he => by rw [he] at h2; omega
      exact ⟨by simp [lookupLine, this, h1], by omega⟩

/-- In a canonical cache a line of the page that an access may use is the line it hits. -/
theorem hitLine_of_mem {m : List TlbLine} (hm : Tlb.wf (.known m) = true) {l : TlbLine} (h : l ∈ m) {lin : Word}
    {acc : Access} (hv : l.vpn = vpnOf lin) (hu : lineUsable acc l = true) : hitLine lin acc m = some l := by
  unfold hitLine
  rw [← hv, (lookupLine_of_mem hm h).1]
  simp [hu]

end Sys2Proof.Machine
end

