-- ==== Sys2Proof/Laws/Memory.lean ====
section
/-!
SUPPORT. The laws of physical memory: a read after a write, the canonical form, and the little-endian accesses built from
bytes (spec/20_memory.md R31, R39).
-/

namespace Sys2Proof.Machine

/-! ### One byte -/

/-- A write leaves every other byte alone. -/
theorem Memory.read_write_ne (m : Memory) {a c : Nat} (b : Byte) (h : c ≠ a) :
    Memory.read (Memory.write m a b) c = Memory.read m c := by
  induction m with
  | nil => simp only [Memory.write]; split <;> simp [Memory.read, h.symm]
  | cons p rest ih =>
    obtain ⟨x, d⟩ := p
    simp only [Memory.write]
    split
    · split <;> simp [Memory.read, h.symm]
    · split
      · subst_vars; split <;> simp [Memory.read, h.symm]
      · simp only [Memory.read, ih]

/-- Below the first address of a canonical list nothing is listed. -/
theorem Memory.read_of_lt {m : Memory} {lo a : Nat} (hm : Memory.wfFrom lo m = true) (h : a < lo) :
    Memory.read m a = unlistedByte := by
  induction m generalizing lo with
  | nil => rfl
  | cons p rest ih =>
    obtain ⟨x, d⟩ := p
    simp only [Memory.wfFrom, Bool.and_eq_true, decide_eq_true_eq] at hm
    have hx : x ≠ a := by omega
    simp only [Memory.read, hx, if_false]
    exact ih hm.2 (by omega)

theorem Memory.wfFrom_mono {m : Memory} {lo lo' : Nat} (h : lo' ≤ lo) (hm : Memory.wfFrom lo m = true) :
    Memory.wfFrom lo' m = true := by
  cases m with
  | nil => rfl
  | cons p rest =>
    obtain ⟨x, d⟩ := p
    simp only [Memory.wfFrom, Bool.and_eq_true, decide_eq_true_eq] at hm ⊢
    exact ⟨⟨⟨by omega, hm.1.1.2⟩, hm.1.2⟩, hm.2⟩

theorem Memory.read_write_eq_from {m : Memory} {lo : Nat} (hm : Memory.wfFrom lo m = true) (a : Nat) (b : Byte) :
    Memory.read (Memory.write m a b) a = b := by
  induction m generalizing lo with
  | nil =>
    by_cases hb : b = unlistedByte <;> simp [Memory.write, Memory.read, hb]
  | cons p rest ih =>
    obtain ⟨x, d⟩ := p
    simp only [Memory.wfFrom, Bool.and_eq_true, decide_eq_true_eq] at hm
    simp only [Memory.write]
    split
    · next hlt =>
      split
      · next hb =>
        have hx : x ≠ a := by omega
        rw [hb]; simp only [Memory.read, hx, if_false]
        exact Memory.read_of_lt hm.2 (by omega)
      · simp [Memory.read]
    · split
      · next heq =>
        split
        · next hb => rw [hb]; exact Memory.read_of_lt hm.2 (by omega)
        · simp [Memory.read]
      · next hne =>
        have hx : x ≠ a := fun h => hne h.symm
        simp only [Memory.read, hx, if_false]
        exact ih hm.2

/-- A read after a write to the same address gives the byte written. -/
theorem Memory.read_write_eq {m : Memory} (hm : Memory.wf m = true) (a : Nat) (b : Byte) :
    Memory.read (Memory.write m a b) a = b :=
  Memory.read_write_eq_from hm a b

theorem Memory.write_wfFrom {m : Memory} {lo a : Nat} (hm : Memory.wfFrom lo m = true) (hlo : lo ≤ a)
    (ha : a < spaceSize) (b : Byte) : Memory.wfFrom lo (Memory.write m a b) = true := by
  induction m generalizing lo with
  | nil =>
    simp only [Memory.write]
    split
    · rfl
    · next hb => simp [Memory.wfFrom, hlo, ha, hb]
  | cons p rest ih =>
    obtain ⟨x, d⟩ := p
    have hm' := hm
    simp only [Memory.wfFrom, Bool.and_eq_true, decide_eq_true_eq] at hm
    simp only [Memory.write]
    split
    · next hlt =>
      split
      · exact hm'
      · next hb =>
        simp only [Memory.wfFrom, Bool.and_eq_true, decide_eq_true_eq, bne_iff_ne]
        exact ⟨⟨⟨hlo, ha⟩, hb⟩, ⟨⟨by omega, hm.1.1.2⟩, by simpa using hm.1.2⟩, hm.2⟩
    · split
      · split
        · exact Memory.wfFrom_mono (by omega) hm.2
        · next heq hb =>
          simp only [Memory.wfFrom, Bool.and_eq_true, decide_eq_true_eq, bne_iff_ne]
          exact ⟨⟨⟨hlo, ha⟩, hb⟩, by rw [heq]; exact hm.2⟩
      · simp only [Memory.wfFrom, Bool.and_eq_true, decide_eq_true_eq]
        exact ⟨hm.1, ih hm.2 (by omega)⟩

/-- A write within the physical space keeps the canonical form. -/
theorem Memory.write_wf {m : Memory} (hm : Memory.wf m = true) {a : Nat} (ha : a < spaceSize) (b : Byte) :
    Memory.wf (Memory.write m a b) = true :=
  Memory.write_wfFrom hm (Nat.zero_le _) ha b

theorem Memory.eq_of_read_eq_from {m1 m2 : Memory} {lo : Nat} (h1 : Memory.wfFrom lo m1 = true)
    (h2 : Memory.wfFrom lo m2 = true) (h : ∀ a, Memory.read m1 a = Memory.read m2 a) : m1 = m2 := by
  induction m1 generalizing m2 lo with
  | nil =>
    cases m2 with
    | nil => rfl
    | cons q r2 =>
      obtain ⟨y, e⟩ := q
      simp only [Memory.wfFrom, Bool.and_eq_true, decide_eq_true_eq, bne_iff_ne] at h2
      have := h y
      simp only [Memory.read, if_true] at this
      exact absurd this.symm h2.1.2
  | cons p r1 ih =>
    obtain ⟨x, d⟩ := p
    have h1' := h1
    simp only [Memory.wfFrom, Bool.and_eq_true, decide_eq_true_eq, bne_iff_ne] at h1
    cases m2 with
    | nil =>
      have := h x
      simp only [Memory.read, if_true] at this
      exact absurd this h1.1.2
    | cons q r2 =>
      obtain ⟨y, e⟩ := q
      simp only [Memory.wfFrom, Bool.and_eq_true, decide_eq_true_eq, bne_iff_ne] at h2
      have hxy : x = y := by
        rcases Nat.lt_trichotomy x y with hlt | heq | hgt
        · have := h x
          have hne : y ≠ x := by omega
          simp only [Memory.read, if_true, hne, if_false] at this
          rw [Memory.read_of_lt h2.2 (by omega)] at this
          exact absurd this h1.1.2
        · exact heq
        · have := h y
          have hne : x ≠ y := by omega
          simp only [Memory.read, if_true, hne, if_false] at this
          rw [Memory.read_of_lt h1.2 (by omega)] at this
          exact absurd this.symm h2.1.2
      subst hxy
      have hde : d = e := by simpa [Memory.read] using h x
      subst hde
      congr 1
      refine ih h1.2 h2.2 fun a => ?_
      by_cases hax : x = a
      · subst hax
        rw [Memory.read_of_lt h1.2 (by omega), Memory.read_of_lt h2.2 (by omega)]
      · simpa [Memory.read, hax] using h a

/-- Canonical memories that read alike are equal. -/
theorem Memory.eq_of_read_eq {m1 m2 : Memory} (h1 : Memory.wf m1 = true) (h2 : Memory.wf m2 = true)
    (h : ∀ a, Memory.read m1 a = Memory.read m2 a) : m1 = m2 :=
  Memory.eq_of_read_eq_from h1 h2 h

/-! ### Several bytes -/

/-- Bit `i` of a little-endian read is bit `i % 8` of byte `i / 8`. -/
theorem readLE_bit (m : Memory) (a n i : Nat) (hi : i < 32) :
    (readLE m a n).getLsbD i = (decide (i < 8 * n) && (Memory.read m (a + i / 8)).getLsbD (i % 8)) := by
  induction n generalizing a i with
  | zero => simp [readLE]
  | succ n ih =>
    simp only [readLE, BitVec.getLsbD_or, BitVec.getLsbD_setWidth, BitVec.getLsbD_shiftLeft, hi, decide_true,
      Bool.true_and]
    by_cases h8 : i < 8
    · have h0 : i / 8 = 0 := by omega
      have hm : i % 8 = i := by omega
      have hn : i < 8 * (n + 1) := by omega
      simp [h8, h0, hm, hn]
    · have hb : (Memory.read m a).getLsbD i = false := BitVec.getLsbD_of_ge _ _ (by omega)
      have hd : (i - 8) / 8 + 1 = i / 8 := by omega
      have hm : (i - 8) % 8 = i % 8 := by omega
      rw [ih (a + 1) (i - 8) (by omega), hb, hm]
      have ha : a + 1 + (i - 8) / 8 = a + i / 8 := by omega
      rw [ha]
      have hiff : (i - 8 < 8 * n) ↔ (i < 8 * (n + 1)) := by omega
      simp [h8, hiff]

/-- A read depends on its own bytes only. -/
theorem readLE_congr {m1 m2 : Memory} {a n : Nat}
    (h : ∀ k, k < n → Memory.read m1 (a + k) = Memory.read m2 (a + k)) : readLE m1 a n = readLE m2 a n := by
  refine BitVec.eq_of_getLsbD_eq fun i hi => ?_
  rw [readLE_bit _ _ _ _ hi, readLE_bit _ _ _ _ hi]
  by_cases hn : i < 8 * n
  · rw [h (i / 8) (by omega)]
  · simp [hn]

/-- A store leaves every byte outside it alone. -/
theorem writeLE_read_out (m : Memory) (a n : Nat) (v : Word) (c : Nat) (h : c < a ∨ a + n ≤ c) :
    Memory.read (writeLE m a n v) c = Memory.read m c := by
  induction n generalizing a v with
  | zero => rfl
  | succ n ih =>
    simp only [writeLE]
    rw [Memory.read_write_ne _ _ (by omega), ih (a + 1) (v >>> 8) (by omega)]

/-- A store within the physical space keeps the canonical form. -/
theorem writeLE_wf {m : Memory} (hm : Memory.wf m = true) (a n : Nat) (v : Word) (h : a + n ≤ spaceSize) :
    Memory.wf (writeLE m a n v) = true := by
  induction n generalizing a v with
  | zero => exact hm
  | succ n ih => exact Memory.write_wf (ih (a + 1) (v >>> 8) (by omega)) (by omega) _

/-- Byte `k` of a store is bits `8k+7:8k` of its value (20_memory.md R31). -/
theorem writeLE_read_in {m : Memory} (hm : Memory.wf m = true) (a n : Nat) (v : Word) (h : a + n ≤ spaceSize)
    (k : Nat) (hk : k < n) : Memory.read (writeLE m a n v) (a + k) = (v >>> (8 * k)).setWidth 8 := by
  induction n generalizing a v k with
  | zero => omega
  | succ n ih =>
    simp only [writeLE]
    cases k with
    | zero =>
      have hw : Memory.wf (writeLE m (a + 1) n (v >>> 8)) = true := writeLE_wf hm _ _ _ (by omega)
      simpa using Memory.read_write_eq hw a (v.setWidth 8)
    | succ k =>
      rw [Memory.read_write_ne _ _ (by omega)]
      have : a + (k + 1) = a + 1 + k := by omega
      rw [this, ih (a + 1) (v >>> 8) (by omega) k (by omega), BitVec.shiftRight_add v 8 (8 * k) |>.symm]
      congr 2
      omega

/-- A read of the bytes just stored gives the low `n` bytes of the value. -/
theorem readLE_writeLE_bit {m : Memory} (hm : Memory.wf m = true) (a n : Nat) (v : Word) (h : a + n ≤ spaceSize)
    (i : Nat) (hi : i < 32) :
    (readLE (writeLE m a n v) a n).getLsbD i = (decide (i < 8 * n) && v.getLsbD i) := by
  rw [readLE_bit _ _ _ _ hi]
  by_cases hn : i < 8 * n
  · rw [writeLE_read_in hm a n v h (i / 8) (by omega)]
    have : 8 * (i / 8) + i % 8 = i := by omega
    simp [hn, this, Nat.mod_lt]
  · simp [hn]

/-- A word stored and read back. -/
theorem physRead_physWrite_word {m : Memory} (hm : Memory.wf m = true) (pa v : Word) (h : pa.toNat + 4 ≤ spaceSize) :
    physRead (physWrite m pa 4 v) pa 4 = v := by
  refine BitVec.eq_of_getLsbD_eq fun i hi => ?_
  simp only [physRead, physWrite]
  rw [readLE_writeLE_bit hm _ _ _ h i hi]
  have : i < 8 * 4 := by omega
  simp [this]

/-- A read of bytes that a store does not touch. -/
theorem physRead_physWrite_apart (m : Memory) (pa qa v : Word) (n k : Nat)
    (h : pa.toNat + n ≤ qa.toNat ∨ qa.toNat + k ≤ pa.toNat) :
    physRead (physWrite m pa n v) qa k = physRead m qa k := by
  refine readLE_congr fun j hj => ?_
  exact writeLE_read_out _ _ _ _ _ (by omega)

/-- A store within the physical space keeps the canonical form. -/
theorem physWrite_wf {m : Memory} (hm : Memory.wf m = true) (pa v : Word) (n : Nat) (h : pa.toNat + n ≤ spaceSize) :
    Memory.wf (physWrite m pa n v) = true :=
  writeLE_wf hm _ _ _ h

/-- The unlisted memory of reset is canonical. -/
theorem Memory.wf_nil : Memory.wf [] = true := rfl

theorem physRead_congr {m m' : Memory} {pa : Word} {n : Nat}
    (h : ∀ a, pa.toNat ≤ a → a < pa.toNat + n → Memory.read m' a = Memory.read m a) :
    physRead m' pa n = physRead m pa n :=
  readLE_congr fun k hk => h _ (by omega) (by omega)

theorem readLE_split (m : Memory) (a k j : Nat) :
    readLE m a (k + j) = readLE m a k ||| readLE m (a + k) j <<< (8 * k) := by
  refine BitVec.eq_of_getLsbD_eq fun i hi => ?_
  rw [BitVec.getLsbD_or, BitVec.getLsbD_shiftLeft, readLE_bit _ _ _ _ hi, readLE_bit _ _ _ _ hi,
    readLE_bit _ _ _ _ (by omega)]
  by_cases h1 : i < 8 * k
  · have h2 : i < 8 * (k + j) := by omega
    simp [h1, h2]
  · have e1 : a + k + (i - 8 * k) / 8 = a + i / 8 := by omega
    have e2 : (i - 8 * k) % 8 = i % 8 := by omega
    rw [e1, e2]
    have e3 : (i - 8 * k < 8 * j) ↔ (i < 8 * (k + j)) := by omega
    simp [h1, hi, e3]

theorem writeLE_split {m : Memory} (hm : Memory.wf m = true) (a k j : Nat) (v : Word) (h : a + (k + j) ≤ spaceSize) :
    writeLE (writeLE m (a + k) j (v >>> (8 * k))) a k v = writeLE m a (k + j) v ∧
    writeLE (writeLE m a k v) (a + k) j (v >>> (8 * k)) = writeLE m a (k + j) v := by
  have w1 : Memory.wf (writeLE m (a + k) j (v >>> (8 * k))) = true := writeLE_wf hm _ _ _ (by omega)
  have w2 : Memory.wf (writeLE m a k v) = true := writeLE_wf hm _ _ _ (by omega)
  constructor
  all_goals
    refine Memory.eq_of_read_eq (writeLE_wf (by assumption) _ _ _ (by omega)) (writeLE_wf hm _ _ _ h) fun c => ?_
    by_cases c1 : c < a ∨ a + (k + j) ≤ c
    · rw [writeLE_read_out _ _ _ _ _ (by omega), writeLE_read_out _ _ _ _ _ (by omega), writeLE_read_out _ _ _ _ _ (by omega)]
    · obtain ⟨i, rfl⟩ : ∃ i, c = a + i := ⟨c - a, by omega⟩
      rw [writeLE_read_in hm a (k + j) v h i (by omega)]
      by_cases hi : i < k
      · first
          | rw [writeLE_read_in w1 a k v (by omega) i hi]
          | rw [writeLE_read_out _ _ _ _ _ (by omega), writeLE_read_in hm a k v (by omega) i hi]
      · have ha : a + i = a + k + (i - k) := by omega
        have hs : (v >>> (8 * k)) >>> (8 * (i - k)) = v >>> (8 * i) := by
          rw [← BitVec.shiftRight_add]; congr 1; omega
        first
          | rw [writeLE_read_out _ a k _ _ (by omega), ha, writeLE_read_in hm _ _ _ (by omega) _ (by omega), hs]
          | rw [ha, writeLE_read_in w2 _ _ _ (by omega) _ (by omega), hs]

end Sys2Proof.Machine
end

