-- ==== Sys2Proof/Laws/Entry.lean ====
section
/-!
SUPPORT. The laws of table entries: where an entry lies, what an update of one changes, and what decoding one gives
(spec/30_encoding.md R51, R52, R53, R57, spec/40_page_translation.md R80 to R84).
-/

namespace Sys2Proof.Machine

/-! ### Addresses of entries -/

theorem toNat_append_zero2 (x : BitVec 30) : (x ++ 0#2 : BitVec 32).toNat = 4 * x.toNat := by
  rw [BitVec.toNat_append, Nat.shiftLeft_eq]
  simp
  omega

/-- A PDE's address is a multiple of four (20_memory.md R32). -/
theorem pdeAddr_aligned (cr3 lin : Word) : (pdeAddr cr3 lin).toNat % 4 = 0 := by
  have := toNat_append_zero2 (cr3.extractLsb' 12 20 ++ (splitLinear lin).dir)
  simp only [pdeAddr]; omega

/-- A PTE's address is a multiple of four (20_memory.md R32). -/
theorem pteAddr_aligned (table : Frame) (lin : Word) : (pteAddr table lin).toNat % 4 = 0 := by
  have := toNat_append_zero2 (table ++ (splitLinear lin).page)
  simp only [pteAddr]; omega

theorem pdeAddr_frame (cr3 lin : Word) : (pdeAddr cr3 lin).extractLsb' 12 20 = cr3.extractLsb' 12 20 := by
  refine BitVec.eq_of_getLsbD_eq fun i hi => ?_
  simp only [pdeAddr, BitVec.getLsbD_extractLsb', BitVec.getLsbD_append, hi, decide_true, Bool.true_and]
  have h1 : ¬ 12 + i < 2 := by omega
  have h2 : ¬ 12 + i - 2 < 10 := by omega
  have h3 : 12 + i - 2 - 10 = i := by omega
  simp [h1, h2, h3, hi]

theorem pteAddr_frame (table : Frame) (lin : Word) : (pteAddr table lin).extractLsb' 12 20 = table := by
  refine BitVec.eq_of_getLsbD_eq fun i hi => ?_
  simp only [pteAddr, BitVec.getLsbD_extractLsb', BitVec.getLsbD_append, hi, decide_true, Bool.true_and]
  have h1 : ¬ 12 + i < 2 := by omega
  have h2 : ¬ 12 + i - 2 < 10 := by omega
  have h3 : 12 + i - 2 - 10 = i := by omega
  simp [h1, h2, h3]

/-- A PTE in a table that is not the directory is no PDE. -/
theorem pteAddr_ne_pdeAddr {table : Frame} {cr3 : Word} (h : table ≠ cr3.extractLsb' 12 20) (lin lin' : Word) :
    pteAddr table lin ≠ pdeAddr cr3 lin' := by
  intro he
  rw [← pteAddr_frame table lin, he, pdeAddr_frame] at h
  exact h rfl

/-- An aligned entry lies within the physical space. -/
theorem aligned_fits {e : Word} (h : e.toNat % 4 = 0) : e.toNat + 4 ≤ spaceSize := by
  have : e.toNat < 4294967296 := e.isLt
  simp only [spaceSize]; omega

theorem aligned_apart {e f : Word} (he : e.toNat % 4 = 0) (hf : f.toNat % 4 = 0) (h : f ≠ e) :
    e.toNat + 4 ≤ f.toNat ∨ f.toNat + 4 ≤ e.toNat := by
  have : f.toNat ≠ e.toNat := fun hh => h (BitVec.eq_of_toNat_eq hh)
  omega

/-! ### One update -/

theorem updateEntry_wf {m : Memory} (hm : Memory.wf m = true) {e : Word} (he : e.toNat % 4 = 0) (f : Word → Word) :
    Memory.wf (updateEntry m e f) = true :=
  physWrite_wf hm _ _ _ (aligned_fits he)

theorem updateEntry_read_out (m : Memory) (e : Word) (f : Word → Word) (a : Nat) (h : a < e.toNat ∨ e.toNat + 4 ≤ a) :
    Memory.read (updateEntry m e f) a = Memory.read m a :=
  writeLE_read_out _ _ _ _ _ h

/-- An update of an entry is a read-modify-write of it. -/
theorem updateEntry_same {m : Memory} (hm : Memory.wf m = true) {e : Word} (he : e.toNat % 4 = 0) (f : Word → Word) :
    physRead (updateEntry m e f) e 4 = f (physRead m e 4) :=
  physRead_physWrite_word hm _ _ (aligned_fits he)

/-- An update of an entry leaves every other entry alone. -/
theorem updateEntry_apart (m : Memory) {e e' : Word} (he : e.toNat % 4 = 0) (he' : e'.toNat % 4 = 0) (h : e' ≠ e)
    (f : Word → Word) : physRead (updateEntry m e f) e' 4 = physRead m e' 4 :=
  physRead_physWrite_apart _ _ _ _ _ _ (aligned_apart he he' h)

theorem orEntry_wf {m : Memory} (hm : Memory.wf m = true) {e : Word} (he : e.toNat % 4 = 0) (mask : Word) :
    Memory.wf (orEntry m e mask) = true :=
  updateEntry_wf hm he _

theorem orEntry_same {m : Memory} (hm : Memory.wf m = true) {e : Word} (he : e.toNat % 4 = 0) (mask : Word) :
    physRead (orEntry m e mask) e 4 = physRead m e 4 ||| mask :=
  updateEntry_same hm he _

theorem orEntry_apart (m : Memory) {e e' : Word} (he : e.toNat % 4 = 0) (he' : e'.toNat % 4 = 0) (h : e' ≠ e)
    (mask : Word) : physRead (orEntry m e mask) e' 4 = physRead m e' 4 :=
  updateEntry_apart m he he' h _

theorem orEntry_read_out (m : Memory) (e mask : Word) (a : Nat) (h : a < e.toNat ∨ e.toNat + 4 ≤ a) :
    Memory.read (orEntry m e mask) a = Memory.read m a :=
  updateEntry_read_out m e _ a h

theorem drawPdeBit6_wf {m : Memory} (hm : Memory.wf m = true) {e : Word} (he : e.toNat % 4 = 0) (b : Bool) :
    Memory.wf (drawPdeBit6 m e b) = true :=
  updateEntry_wf hm he _

theorem drawPdeBit6_same {m : Memory} (hm : Memory.wf m = true) {e : Word} (he : e.toNat % 4 = 0) (b : Bool) :
    physRead (drawPdeBit6 m e b) e 4 = withBit6 (physRead m e 4) b :=
  updateEntry_same hm he _

theorem drawPdeBit6_apart (m : Memory) {e e' : Word} (he : e.toNat % 4 = 0) (he' : e'.toNat % 4 = 0) (h : e' ≠ e)
    (b : Bool) : physRead (drawPdeBit6 m e b) e' 4 = physRead m e' 4 :=
  updateEntry_apart m he he' h _

theorem drawPdeBit6_read_out (m : Memory) (e : Word) (b : Bool) (a : Nat) (h : a < e.toNat ∨ e.toNat + 4 ≤ a) :
    Memory.read (drawPdeBit6 m e b) a = Memory.read m a :=
  updateEntry_read_out m e _ a h

/-! ### What the processor does to entries (40_page_translation.md R84) -/

/-- The words agree but for A and D. -/
def AgreeButAD (w w' : Word) : Prop := ∀ i, i ≠ 5 → i ≠ 6 → w'.getLsbD i = w.getLsbD i

theorem AgreeButAD.refl (w : Word) : AgreeButAD w w := fun _ _ _ => rfl

theorem AgreeButAD.trans {w w' w'' : Word} (h : AgreeButAD w w') (h' : AgreeButAD w' w'') : AgreeButAD w w'' :=
  fun i h5 h6 => (h' i h5 h6).trans (h i h5 h6)

theorem agreeButAD_accessed (w : Word) : AgreeButAD w (w ||| accessedMask) := by
  intro i h5 h6
  rw [BitVec.getLsbD_or]
  have : accessedMask.getLsbD i = false := by
    rw [show accessedMask = BitVec.twoPow 32 5 from rfl, BitVec.getLsbD_twoPow]
    simp; omega
  rw [this, Bool.or_false]

theorem agreeButAD_dirty (w : Word) : AgreeButAD w (w ||| dirtyMask) := by
  intro i h5 h6
  rw [BitVec.getLsbD_or]
  have : dirtyMask.getLsbD i = false := by
    rw [show dirtyMask = BitVec.twoPow 32 6 from rfl, BitVec.getLsbD_twoPow]
    simp; omega
  rw [this, Bool.or_false]

theorem agreeButAD_clearDirty (w : Word) : AgreeButAD w (w &&& ~~~dirtyMask) := by
  intro i h5 h6
  by_cases hi : i < 32
  · have : dirtyMask.getLsbD i = false := by
      rw [show dirtyMask = BitVec.twoPow 32 6 from rfl, BitVec.getLsbD_twoPow]
      simp; omega
    rw [BitVec.getLsbD_and, BitVec.getLsbD_not, this]; simp [hi]
  · rw [BitVec.getLsbD_of_ge _ _ (by omega), BitVec.getLsbD_of_ge _ _ (by omega)]

theorem agreeButAD_withBit6 (w : Word) (b : Bool) : AgreeButAD w (withBit6 w b) := by
  cases b
  · exact agreeButAD_clearDirty w
  · exact agreeButAD_dirty w

theorem accessed_or (w : Word) : (w ||| accessedMask).getLsbD 5 = true := by
  rw [BitVec.getLsbD_or, show accessedMask.getLsbD 5 = true from by decide, Bool.or_true]

theorem dirty_or (w : Word) : (w ||| dirtyMask).getLsbD 6 = true := by
  rw [BitVec.getLsbD_or, show dirtyMask.getLsbD 6 = true from by decide, Bool.or_true]

theorem accessed_or_dirty (w : Word) : (w ||| dirtyMask).getLsbD 5 = w.getLsbD 5 := by
  rw [BitVec.getLsbD_or, show dirtyMask.getLsbD 5 = false from by decide, Bool.or_false]

theorem dirty_or_accessed (w : Word) : (w ||| accessedMask).getLsbD 6 = w.getLsbD 6 := by
  rw [BitVec.getLsbD_or, show accessedMask.getLsbD 6 = false from by decide, Bool.or_false]

theorem withBit6_accessed (w : Word) (b : Bool) : (withBit6 w b).getLsbD 5 = w.getLsbD 5 := by
  cases b
  · simp only [withBit6, Bool.false_eq_true, if_false, BitVec.getLsbD_and]
    rw [show (~~~dirtyMask).getLsbD 5 = true from by decide, Bool.and_true]
  · exact accessed_or_dirty w

theorem withBit6_dirty (w : Word) (b : Bool) : (withBit6 w b).getLsbD 6 = b := by
  cases b
  · simp only [withBit6, Bool.false_eq_true, if_false, BitVec.getLsbD_and]
    rw [show (~~~dirtyMask).getLsbD 6 = false from by decide, Bool.and_false]
  · exact dirty_or w

theorem or_zero_word (w : Word) : w ||| 0#32 = w := by simp

/-- The PTE update sets A, sets D for a write, and changes no other bit. -/
theorem pteUpdate_spec (w : Word) (acc : Access) :
    AgreeButAD w (w ||| pteUpdateMask acc) ∧ (w ||| pteUpdateMask acc).getLsbD 5 = true ∧
      (w ||| pteUpdateMask acc).getLsbD 6 = (w.getLsbD 6 || acc == .write) := by
  cases acc with
  | read =>
    refine ⟨agreeButAD_accessed w, accessed_or w, ?_⟩
    simp only [pteUpdateMask]; rw [dirty_or_accessed]; simp
  | write =>
    have : w ||| pteUpdateMask .write = (w ||| accessedMask) ||| dirtyMask := by
      simp only [pteUpdateMask, BitVec.or_assoc]
    rw [this]
    refine ⟨(agreeButAD_accessed w).trans (agreeButAD_dirty _), ?_, ?_⟩
    · rw [accessed_or_dirty, accessed_or]
    · rw [dirty_or]; simp

/-- What a walk may do to the entries of memory: an aligned entry changes in A and D at most, A is never cleared, and an
entry with P = 0 does not change (40_page_translation.md R84). -/
def EntriesKept (m m' : Memory) : Prop :=
  ∀ e : Word, e.toNat % 4 = 0 →
    AgreeButAD (physRead m e 4) (physRead m' e 4) ∧
      ((physRead m e 4).getLsbD 5 = true → (physRead m' e 4).getLsbD 5 = true) ∧
      ((physRead m e 4).getLsbD 0 = false → physRead m' e 4 = physRead m e 4)

theorem EntriesKept.refl (m : Memory) : EntriesKept m m :=
  fun _ _ => ⟨AgreeButAD.refl _, fun h => h, fun _ => rfl⟩

theorem EntriesKept.trans {m m' m'' : Memory} (h : EntriesKept m m') (h' : EntriesKept m' m'') : EntriesKept m m'' := by
  intro e he
  obtain ⟨a1, a2, a3⟩ := h e he
  obtain ⟨b1, b2, b3⟩ := h' e he
  refine ⟨a1.trans b1, fun hh => b2 (a2 hh), fun hh => ?_⟩
  rw [b3 (by rw [a3 hh]; exact hh), a3 hh]

/-- The update of one present entry in A and D at most. -/
theorem updateEntry_kept {m : Memory} (hm : Memory.wf m = true) {e : Word} (he : e.toNat % 4 = 0) {f : Word → Word}
    (hf : ∀ w, AgreeButAD w (f w)) (hA : ∀ w, w.getLsbD 5 = true → (f w).getLsbD 5 = true)
    (hp : (physRead m e 4).getLsbD 0 = true) : EntriesKept m (updateEntry m e f) := by
  intro e' he'
  by_cases h : e' = e
  · subst h
    rw [updateEntry_same hm he' f]
    exact ⟨hf _, hA _, fun h0 => by rw [hp] at h0; exact absurd h0 (by decide)⟩
  · rw [updateEntry_apart m he he' h f]
    exact ⟨AgreeButAD.refl _, fun h => h, fun _ => rfl⟩

/-- An entry's P bit survives what a walk may do. -/
theorem EntriesKept.present {m m' : Memory} (h : EntriesKept m m') {e : Word} (he : e.toNat % 4 = 0) :
    (physRead m' e 4).getLsbD 0 = (physRead m e 4).getLsbD 0 :=
  (h e he).1 0 (by decide) (by decide)

/-! ### Decoding -/

theorem extract_congr {w w' : Word} {lo n : Nat} (h : ∀ i, lo ≤ i → i < lo + n → w'.getLsbD i = w.getLsbD i) :
    w'.extractLsb' lo n = w.extractLsb' lo n := by
  refine BitVec.eq_of_getLsbD_eq fun i hi => ?_
  simp only [BitVec.getLsbD_extractLsb', hi, decide_true, Bool.true_and]
  exact h _ (by omega) (by omega)

/-- A word decodes as present exactly when P is 1 and the reserved bits are 0, with these fields. -/
theorem decodeEntry_present {w : Word} {e : PresentEntry} (h : decodeEntry w = .present e) :
    w.getLsbD 0 = true ∧ w.extractLsb' 7 2 = 0#2 ∧ w.extractLsb' 3 2 = 0#2 ∧
      e = ⟨w.extractLsb' 12 20, w.extractLsb' 9 3, bitOf w 6, bitOf w 5, bitOf w 2, bitOf w 1⟩ := by
  unfold decodeEntry at h
  split at h
  · cases h
  · next h0 =>
    split at h
    · cases h
    · next hr =>
      simp only [not_or, ne_eq, not_not] at hr
      cases h
      exact ⟨by simpa [bitOf] using h0, hr.1, hr.2, rfl⟩

theorem decodeEntry_notPresent {w : Word} {a : BitVec 31} (h : decodeEntry w = .notPresent a) : w.getLsbD 0 = false := by
  unfold decodeEntry at h
  split at h
  · next h0 => exact h0
  · split at h <;> cases h

theorem decodeEntry_of_clear {w : Word} (h : w.getLsbD 0 = false) :
    decodeEntry w = .notPresent (w.extractLsb' 1 31) := by
  unfold decodeEntry; exact if_pos h

/-- A present entry changed in A and D at most decodes with the same frame, AVAIL, U/S and R/W. -/
theorem decodeEntry_agree {w w' : Word} (h : AgreeButAD w w') {e : PresentEntry} (hd : decodeEntry w = .present e) :
    decodeEntry w' = .present ⟨e.frame, e.avail, w'.getLsbD 6, w'.getLsbD 5, e.us, e.rw⟩ := by
  obtain ⟨h0, h7, h3, rfl⟩ := decodeEntry_present hd
  have e0 : bitOf w' 0 = true := by simpa [bitOf] using (h 0 (by decide) (by decide)).trans h0
  have e7 : w'.extractLsb' 7 2 = w.extractLsb' 7 2 := extract_congr fun i h1 h2 => h i (by omega) (by omega)
  have e3 : w'.extractLsb' 3 2 = w.extractLsb' 3 2 := extract_congr fun i h1 h2 => h i (by omega) (by omega)
  have e12 : w'.extractLsb' 12 20 = w.extractLsb' 12 20 := extract_congr fun i h1 h2 => h i (by omega) (by omega)
  have e9 : w'.extractLsb' 9 3 = w.extractLsb' 9 3 := extract_congr fun i h1 h2 => h i (by omega) (by omega)
  have e2 : bitOf w' 2 = bitOf w 2 := h 2 (by decide) (by decide)
  have e1 : bitOf w' 1 = bitOf w 1 := h 1 (by decide) (by decide)
  unfold decodeEntry
  rw [e7, e3, e0, e12, e9, e2, e1, h7, h3]
  simp [bitOf]

/-! ### The updates of a walk -/

theorem orEntry_kept {m : Memory} (hm : Memory.wf m = true) {e : Word} (he : e.toNat % 4 = 0)
    (hp : (physRead m e 4).getLsbD 0 = true) (acc : Access) : EntriesKept m (orEntry m e (pteUpdateMask acc)) :=
  updateEntry_kept hm he (fun w => (pteUpdate_spec w acc).1) (fun w _ => (pteUpdate_spec w acc).2.1) hp

theorem orAccessed_kept {m : Memory} (hm : Memory.wf m = true) {e : Word} (he : e.toNat % 4 = 0)
    (hp : (physRead m e 4).getLsbD 0 = true) : EntriesKept m (orEntry m e accessedMask) :=
  orEntry_kept hm he hp .read

theorem orDrawn_kept {m : Memory} (hm : Memory.wf m = true) {e : Word} (he : e.toNat % 4 = 0)
    (hp : (physRead m e 4).getLsbD 0 = true) (b : Bool) :
    EntriesKept m (orEntry m e (if b then accessedMask else 0#32)) := by
  cases b
  · exact updateEntry_kept hm he (fun w => by simpa using AgreeButAD.refl w) (fun w h => by simpa using h) hp
  · exact orAccessed_kept hm he hp

theorem drawPdeBit6_kept {m : Memory} (hm : Memory.wf m = true) {e : Word} (he : e.toNat % 4 = 0)
    (hp : (physRead m e 4).getLsbD 0 = true) (b : Bool) : EntriesKept m (drawPdeBit6 m e b) :=
  updateEntry_kept hm he (fun w => agreeButAD_withBit6 w b) (fun w h => by rw [withBit6_accessed]; exact h) hp

theorem markPdeOnRaise_read_out (ch : Draws) (m : Memory) (pdeAt : Word) (a : Nat)
    (h : a < pdeAt.toNat ∨ pdeAt.toNat + 4 ≤ a) : Memory.read (markPdeOnRaise ch m pdeAt) a = Memory.read m a := by
  rw [markPdeOnRaise, drawPdeBit6_read_out _ _ _ _ h, orEntry_read_out _ _ _ _ h]

theorem markPteOnRaise_read_out (ch : Draws) (m : Memory) (pteAt : Word) (a : Nat)
    (h : a < pteAt.toNat ∨ pteAt.toNat + 4 ≤ a) : Memory.read (markPteOnRaise ch m pteAt) a = Memory.read m a := by
  rw [markPteOnRaise, orEntry_read_out _ _ _ _ h]

/-- The updates of a walk touch its two entries only. -/
theorem markUsed_read_out (ch : Draws) (m : Memory) (pdeAt pteAt : Word) (acc : Access) (a : Nat)
    (h : a < pdeAt.toNat ∨ pdeAt.toNat + 4 ≤ a) (h' : a < pteAt.toNat ∨ pteAt.toNat + 4 ≤ a) :
    Memory.read (markUsed ch m pdeAt pteAt acc) a = Memory.read m a := by
  unfold markUsed
  dsimp only
  split
  · rw [orEntry_read_out _ _ _ _ h', orEntry_read_out _ _ _ _ h]
  · rw [drawPdeBit6_read_out _ _ _ _ h, orEntry_read_out _ _ _ _ h', orEntry_read_out _ _ _ _ h]

/-- D is not cleared in any entry but the one at `x`, whose bit 6 a walk draws (40_page_translation.md R83, R84). -/
def DirtyKept (x : Word) (m m' : Memory) : Prop :=
  ∀ e : Word, e.toNat % 4 = 0 → e ≠ x → (physRead m e 4).getLsbD 6 = true → (physRead m' e 4).getLsbD 6 = true

theorem DirtyKept.refl (x : Word) (m : Memory) : DirtyKept x m m := fun _ _ _ h => h

theorem DirtyKept.trans {x : Word} {m m' m'' : Memory} (h : DirtyKept x m m') (h' : DirtyKept x m' m'') :
    DirtyKept x m m'' :=
  fun e he hx hd => h' e he hx (h e he hx hd)

theorem orEntry_dirtyKept (x : Word) {m : Memory} (hm : Memory.wf m = true) {e : Word} (he : e.toNat % 4 = 0)
    (mask : Word) : DirtyKept x m (orEntry m e mask) := by
  intro e' he' _ hd
  by_cases h : e' = e
  · subst h
    rw [orEntry_same hm he', BitVec.getLsbD_or, hd, Bool.true_or]
  · rw [orEntry_apart m he he' h, hd]

theorem drawPdeBit6_dirtyKept (m : Memory) {e : Word} (he : e.toNat % 4 = 0) (b : Bool) :
    DirtyKept e m (drawPdeBit6 m e b) := by
  intro e' he' hne hd
  rw [drawPdeBit6_apart m he he' hne, hd]

/-- What an update of a walk with its PDE at `pdeAt` leaves of memory: the canonical form, and the entries as R83 and R84
say. -/
structure WalkUpdate (pdeAt : Word) (m m' : Memory) : Prop where
  wf : Memory.wf m' = true
  kept : EntriesKept m m'
  dirty : DirtyKept pdeAt m m'

section
variable {m : Memory} {pdeAt pteAt : Word} (hm : Memory.wf m = true) (hd : pdeAt.toNat % 4 = 0)
  (ht : pteAt.toNat % 4 = 0) (hpd : (physRead m pdeAt 4).getLsbD 0 = true)
include hm hd hpd

theorem markPdeOnRaise_update (ch : Draws) : WalkUpdate pdeAt m (markPdeOnRaise ch m pdeAt) := by
  unfold markPdeOnRaise
  generalize hm1 : orEntry m pdeAt (if ch .pdeAccessed then accessedMask else 0#32) = m1
  have w1 : Memory.wf m1 = true := hm1 ▸ orEntry_wf hm hd _
  have k1 : EntriesKept m m1 := hm1 ▸ orDrawn_kept hm hd hpd (ch .pdeAccessed)
  exact ⟨drawPdeBit6_wf w1 hd _, k1.trans (drawPdeBit6_kept w1 hd ((k1.present hd).trans hpd) _),
    DirtyKept.trans (hm1 ▸ orEntry_dirtyKept _ hm hd _) (drawPdeBit6_dirtyKept _ hd _)⟩

include ht

theorem markBothOnRaise_update (ch : Draws) (hpt : (physRead m pteAt 4).getLsbD 0 = true) :
    WalkUpdate pdeAt m (markPteOnRaise ch (markPdeOnRaise ch m pdeAt) pteAt) := by
  have u := markPdeOnRaise_update hm hd hpd ch
  unfold markPteOnRaise
  exact ⟨orEntry_wf u.wf ht _, u.kept.trans (orDrawn_kept u.wf ht ((u.kept.present ht).trans hpt) _),
    u.dirty.trans (orEntry_dirtyKept _ u.wf ht _)⟩

/-- The updates of a walk that succeeds: what they leave alone, and A of both entries and, for a write, D of the PTE set
(40_page_translation.md R80, R81, R91). -/
theorem markUsed_update (ch : Draws) (acc : Access) (hpt : (physRead m pteAt 4).getLsbD 0 = true) :
    WalkUpdate pdeAt m (markUsed ch m pdeAt pteAt acc) ∧
      (physRead (markUsed ch m pdeAt pteAt acc) pdeAt 4).getLsbD 5 = true ∧
      (physRead (markUsed ch m pdeAt pteAt acc) pteAt 4).getLsbD 5 = true ∧
      (acc = .write → (physRead (markUsed ch m pdeAt pteAt acc) pteAt 4).getLsbD 6 = true) := by
  unfold markUsed
  dsimp only
  generalize hm1 : orEntry m pdeAt accessedMask = m1
  have w1 : Memory.wf m1 = true := hm1 ▸ orEntry_wf hm hd _
  have k1 : EntriesKept m m1 := hm1 ▸ orAccessed_kept hm hd hpd
  have a1 : (physRead m1 pdeAt 4).getLsbD 5 = true := by rw [← hm1, orEntry_same hm hd]; exact accessed_or _
  generalize hm2 : orEntry m1 pteAt (pteUpdateMask acc) = m2
  have w2 : Memory.wf m2 = true := hm2 ▸ orEntry_wf w1 ht _
  have k2 : EntriesKept m1 m2 := hm2 ▸ orEntry_kept w1 ht ((k1.present ht).trans hpt) acc
  have t2 : physRead m2 pteAt 4 = physRead m1 pteAt 4 ||| pteUpdateMask acc := by rw [← hm2, orEntry_same w1 ht]
  have b2 : (physRead m2 pteAt 4).getLsbD 5 = true := by rw [t2]; exact (pteUpdate_spec _ acc).2.1
  have d2 : acc = .write → (physRead m2 pteAt 4).getLsbD 6 = true := fun h => by
    rw [t2, (pteUpdate_spec _ acc).2.2, h]; simp
  have a2 := (k2 _ hd).2.1 a1
  have k12 := k1.trans k2
  have y12 : DirtyKept pdeAt m m2 :=
    DirtyKept.trans (hm1 ▸ orEntry_dirtyKept _ hm hd _) (hm2 ▸ orEntry_dirtyKept _ w1 ht _)
  split
  · exact ⟨⟨w2, k12, y12⟩, a2, b2, d2⟩
  · next hne =>
    have k3 := drawPdeBit6_kept w2 hd ((k12.present hd).trans hpd) (ch .pdeBit6)
    refine ⟨⟨drawPdeBit6_wf w2 hd _, k12.trans k3, y12.trans (drawPdeBit6_dirtyKept _ hd _)⟩, (k3 _ hd).2.1 a2, (k3 _ ht).2.1 b2, fun hw => ?_⟩
    have hap : pteAt ≠ pdeAt := fun h => hne ⟨h.symm, hw⟩
    rw [drawPdeBit6_apart _ hd ht hap]
    exact d2 hw

end

/-- A present entry that a translation may have updated: its frame and protection bits stay, and A is not cleared. -/
theorem decodeEntry_kept {w w' : Word} {e : PresentEntry}
    (h : AgreeButAD w w' ∧ (w.getLsbD 5 = true → w'.getLsbD 5 = true) ∧ (w.getLsbD 0 = false → w' = w))
    (hd : decodeEntry w = .present e) :
    ∃ e', decodeEntry w' = .present e' ∧ e'.frame = e.frame ∧ e'.us = e.us ∧ e'.rw = e.rw ∧
      (e.accessed = true → e'.accessed = true) := by
  refine ⟨_, decodeEntry_agree h.1 hd, rfl, rfl, rfl, fun ha => h.2.1 ?_⟩
  rw [(decodeEntry_present hd).2.2.2] at ha; exact ha

end Sys2Proof.Machine
end

