-- ==== Sys2Proof/Laws/Translate.lean ====
section
/-!
SUPPORT. What a walk and a translation can do, said once (spec/40_page_translation.md R78, R84, R89,
spec/41_translation_cache.md R101 to R111).
-/

namespace Sys2Proof.Machine

/-! ### Attempts -/

/-- Where the attempt ends in a state, completed or raised, that state satisfies `P`. -/
def Attempt.Ends {α : Type} (r : Attempt α) (P : State → Prop) : Prop :=
  match r with
  | .done _ s => P s
  | .raise _ s => P s
  | .refuse _ => True

theorem Attempt.Ends.mono {α : Type} {r : Attempt α} {P Q : State → Prop} (h : r.Ends P) (hPQ : ∀ s, P s → Q s) :
    r.Ends Q := by
  cases r with
  | done a s => exact hPQ s h
  | raise info s => exact hPQ s h
  | refuse e => trivial

/-- Sequencing composes what each part does. -/
theorem Attempt.Ends.andThen {α β : Type} {r : Attempt α} {f : α → State → Attempt β} {P Q : State → Prop}
    (h : r.Ends P) (hraise : ∀ s, P s → Q s) (hf : ∀ a s, P s → (f a s).Ends Q) : (r.andThen f).Ends Q := by
  cases r with
  | done a s => exact hf a s h
  | raise info s => exact hraise s h
  | refuse e => trivial

theorem Attempt.andThen_done {α β : Type} {r : Attempt α} {f : α → State → Attempt β} {b : β} {t : State}
    (h : r.andThen f = .done b t) : ∃ a s, r = .done a s ∧ f a s = .done b t := by
  cases r with
  | done a s => exact ⟨a, s, rfl, h⟩
  | raise info s => cases h
  | refuse e => cases h

theorem Attempt.andThen_raise {α β : Type} {r : Attempt α} {f : α → State → Attempt β} {info : PageInfo} {t : State}
    (h : r.andThen f = .raise info t) : r = .raise info t ∨ ∃ a s, r = .done a s ∧ f a s = .raise info t := by
  cases r with
  | done a s => exact .inr ⟨a, s, rfl, h⟩
  | raise i s => cases h; exact .inl rfl
  | refuse e => cases h

/-! ### Frames -/

theorem SameRegisters.refl (s : State) : SameRegisters s s := ⟨rfl, rfl, rfl, rfl, rfl, rfl⟩

theorem SameRegisters.trans {s t u : State} (h : SameRegisters s t) (h' : SameRegisters t u) : SameRegisters s u :=
  ⟨h'.pg.trans h.pg, h'.cr3.trans h.cr3, h'.eax.trans h.eax, h'.mode.trans h.mode, h'.program.trans h.program,
    h'.platform.trans h.platform⟩

theorem SameControl.refl (s : State) : SameControl s s := ⟨SameRegisters.refl s, rfl, rfl, rfl, rfl⟩

theorem SameControl.trans {s t u : State} (h : SameControl s t) (h' : SameControl t u) : SameControl s u :=
  ⟨h.regs.trans h'.regs, h'.index.trans h.index, h'.handlerQueue.trans h.handlerQueue,
    h'.exception.trans h.exception, h'.results.trans h.results⟩

theorem SameControl.tick (s : State) : SameControl s s.tick := ⟨⟨rfl, rfl, rfl, rfl, rfl, rfl⟩, rfl, rfl, rfl, rfl⟩

theorem SameControl.withMem (s : State) (m : Memory) : SameControl s (s.withMem m) :=
  ⟨⟨rfl, rfl, rfl, rfl, rfl, rfl⟩, rfl, rfl, rfl, rfl⟩

theorem SameControl.withTlb (s : State) (t : Tlb) : SameControl s (s.withTlb t) :=
  ⟨⟨rfl, rfl, rfl, rfl, rfl, rfl⟩, rfl, rfl, rfl, rfl⟩

theorem SameControl.dropOnce (s : State) (t : Tlb) : SameControl s (s.withTlb t).tick :=
  ⟨⟨rfl, rfl, rfl, rfl, rfl, rfl⟩, rfl, rfl, rfl, rfl⟩

theorem SameControl.dropped (O : Oracle) (m : List TlbLine) (s : State) : SameControl s (droppedState O m s) :=
  ⟨⟨rfl, rfl, rfl, rfl, rfl, rfl⟩, rfl, rfl, rfl, rfl⟩

@[simp] theorem droppedState_tlb (O : Oracle) (m : List TlbLine) (s : State) :
    (droppedState O m s).tlb = .known (keptLines (O s.drawIdx) m) := rfl
@[simp] theorem droppedState_mem (O : Oracle) (m : List TlbLine) (s : State) : (droppedState O m s).mem = s.mem := rfl
@[simp] theorem droppedState_cr3 (O : Oracle) (m : List TlbLine) (s : State) : (droppedState O m s).cr3 = s.cr3 := rfl
@[simp] theorem droppedState_pg (O : Oracle) (m : List TlbLine) (s : State) : (droppedState O m s).pg = s.pg := rfl
@[simp] theorem droppedState_mode (O : Oracle) (m : List TlbLine) (s : State) : (droppedState O m s).mode = s.mode := rfl
@[simp] theorem droppedState_platform (O : Oracle) (m : List TlbLine) (s : State) :
    (droppedState O m s).platform = s.platform := rfl

/-! ### The walk -/

/-- A walk's cases: it stops at the directory, or at the table, or it finds both entries and goes on to protection. -/
theorem walk_of_reads {s : State} {lin : Word} {pde pte : PresentEntry} (h : WalkReads s lin pde pte) (ch : Draws)
    (acc : Access) :
    walk ch lin acc s = walkEnd ch lin acc (pdeAddr s.cr3 lin) (pteAddr pde.frame lin) pde pte s := by
  obtain ⟨h1, h2, h3, h4⟩ := h
  simp only [walk, h1, h2, walkTable, h3, h4, if_true]

/-- Everything a walk can do where it does not refuse. -/
theorem walk_cases (ch : Draws) (lin : Word) (acc : Access) (s : State) :
    (∃ e, walk ch lin acc s = .refuse e) ∨
    (∃ a, decodeEntry (physRead s.mem (pdeAddr s.cr3 lin) 4) = .notPresent a ∧
      walk ch lin acc s = .raise ⟨lin, acc, s.mode, .notPresent, .directory⟩ s) ∨
    (∃ pde a, decodeEntry (physRead s.mem (pdeAddr s.cr3 lin) 4) = .present pde ∧
      decodeEntry (physRead s.mem (pteAddr pde.frame lin) 4) = .notPresent a ∧
      walk ch lin acc s = .raise ⟨lin, acc, s.mode, .notPresent, .table⟩
        (s.withMem (markPdeOnRaise ch s.mem (pdeAddr s.cr3 lin)))) ∨
    (∃ pde pte, WalkReads s lin pde pte ∧
      walk ch lin acc s = walkEnd ch lin acc (pdeAddr s.cr3 lin) (pteAddr pde.frame lin) pde pte s) := by
  unfold walk
  dsimp only
  split
  · next hp =>
    split
    · next a hd => exact .inr (.inl ⟨a, hd, rfl⟩)
    · exact .inl ⟨_, rfl⟩
    · next pde hd =>
      unfold walkTable
      dsimp only
      split
      · next hp' =>
        split
        · next a ht => exact .inr (.inr (.inl ⟨pde, a, hd, ht, rfl⟩))
        · exact .inl ⟨_, rfl⟩
        · next pte ht => exact .inr (.inr (.inr ⟨pde, pte, ⟨hp, hd, hp', ht⟩, rfl⟩))
      · exact .inl ⟨_, rfl⟩
  · exact .inl ⟨_, rfl⟩

/-- What the cache is after a walk that succeeds: as it was, or with the line of the walk (41_translation_cache.md R102). -/
theorem fillLine_known {ch : Draws} {m : List TlbLine} {mem : Memory} {pteAt lin : Word} {acc : Access}
    {pde pte : PresentEntry} : ∃ m', fillLine ch (.known m) mem pteAt lin acc pde pte = .known m' ∧
      (∀ l ∈ m', l ∈ m ∨ l = ⟨vpnOf lin, pte.frame, pde.us, pde.rw, pte.us, pte.rw,
        filledD ch acc pte (physRead mem pteAt 4)⟩) ∧
      (Tlb.wf (.known m) = true → Tlb.wf (.known m') = true) := by
  unfold fillLine
  dsimp only
  split
  · exact ⟨_, rfl, fun l hl => (mem_insertLine hl).symm.imp id id, fun h => insertLine_wf _ h⟩
  · exact ⟨m, rfl, fun l hl => .inl hl, id⟩

/-- What a translation leaves of a state. -/
structure TranslationEffect (s t : State) (lin : Word) : Prop where
  control : SameControl s t
  cacheWf : Tlb.wf s.tlb = true → Tlb.wf t.tlb = true
  cacheFrom : CacheFrom s t lin
  memWf : Memory.wf s.mem = true → Memory.wf t.mem = true
  kept : Memory.wf s.mem = true → EntriesKept s.mem t.mem
  dirty : Memory.wf s.mem = true → DirtyKept (pdeAddr s.cr3 lin) s.mem t.mem
  out : ∀ a, translationMayWrite s lin a = false → Memory.read t.mem a = Memory.read s.mem a

theorem CacheFrom.refl (s : State) (lin : Word) : CacheFrom s s lin := by
  unfold CacheFrom
  split
  · next h => exact h
  · next m h => exact ⟨m, h, fun l hl => .inl hl⟩

theorem TranslationEffect.refl (s : State) (lin : Word) : TranslationEffect s s lin :=
  ⟨SameControl.refl s, id, CacheFrom.refl s lin, id, fun _ => EntriesKept.refl _,
    fun _ => DirtyKept.refl _ _, fun _ _ => rfl⟩

/-- An effect on memory alone. -/
theorem TranslationEffect.ofMem {s : State} {lin : Word} {m : Memory}
    (hk : Memory.wf s.mem = true → WalkUpdate (pdeAddr s.cr3 lin) s.mem m)
    (ho : ∀ a, translationMayWrite s lin a = false → Memory.read m a = Memory.read s.mem a) :
    TranslationEffect s (s.withMem m) lin :=
  ⟨SameControl.withMem s m, id, CacheFrom.refl s lin, fun h => (hk h).wf, fun h => (hk h).kept,
    fun h => (hk h).dirty, ho⟩

theorem entryHolds_false {e : Word} {a : Nat} (h : entryHolds e a = false) : a < e.toNat ∨ e.toNat + 4 ≤ a := by
  simp only [entryHolds, Bool.and_eq_false_iff, decide_eq_false_iff_not] at h
  omega

theorem outside_pde {s : State} {lin : Word} {a : Nat} (hpg : s.pg = true)
    (h : translationMayWrite s lin a = false) :
    a < (pdeAddr s.cr3 lin).toNat ∨ (pdeAddr s.cr3 lin).toNat + 4 ≤ a := by
  simp only [translationMayWrite, walkHolds, hpg, Bool.true_and, Bool.or_eq_false_iff] at h
  exact entryHolds_false h.1

theorem outside_pte {s : State} {lin : Word} {a : Nat} {pde : PresentEntry} (hpg : s.pg = true)
    (hd : decodeEntry (physRead s.mem (pdeAddr s.cr3 lin) 4) = .present pde)
    (h : translationMayWrite s lin a = false) :
    a < (pteAddr pde.frame lin).toNat ∨ (pteAddr pde.frame lin).toNat + 4 ≤ a := by
  simp only [translationMayWrite, walkHolds, hpg, hd, Bool.true_and, Bool.or_eq_false_iff] at h
  exact entryHolds_false h.2

theorem walkEnd_effect {s : State} {lin : Word} {pde pte : PresentEntry} (hr : WalkReads s lin pde pte)
    (hpg : s.pg = true) (ch : Draws) (acc : Access) :
    (walkEnd ch lin acc (pdeAddr s.cr3 lin) (pteAddr pde.frame lin) pde pte s).Ends (TranslationEffect s · lin) := by
  have hd := pdeAddr_aligned s.cr3 lin
  have ht := pteAddr_aligned pde.frame lin
  have hpd := (decodeEntry_present hr.2.1).1
  have hpt := (decodeEntry_present hr.2.2.2).1
  have ho := fun a h => markUsed_read_out ch s.mem _ _ acc a (outside_pde hpg h) (outside_pte hpg hr.2.1 h)
  have hk := fun hm => (markUsed_update (m := s.mem) hm hd ht hpd ch acc hpt).1
  unfold walkEnd
  split
  · dsimp only
    cases htlb : s.tlb with
    | unknown =>
      refine ⟨SameControl.withMem s _ |>.trans (SameControl.withTlb _ _), fun _ => rfl, ?_, fun h => (hk h).wf,
        fun h => (hk h).kept, fun h => (hk h).dirty, ho⟩
      simp [CacheFrom, htlb, fillLine]
    | known m =>
      obtain ⟨m', he, hl, hw⟩ := fillLine_known (ch := ch) (m := m)
        (mem := markUsed ch s.mem (pdeAddr s.cr3 lin) (pteAddr pde.frame lin) acc) (pteAt := pteAddr pde.frame lin)
        (lin := lin) (acc := acc) (pde := pde) (pte := pte)
      rw [he]
      refine ⟨SameControl.withMem s _ |>.trans (SameControl.withTlb _ _), fun h => hw (htlb ▸ h), ?_,
        fun h => (hk h).wf, fun h => (hk h).kept, fun h => (hk h).dirty, ho⟩
      simp only [CacheFrom, htlb]
      exact ⟨m', rfl, fun l h => (hl l h).imp id fun h => by rw [h]⟩
  · refine TranslationEffect.ofMem (fun hm => markBothOnRaise_update hm hd ht hpd ch hpt) fun a h => ?_
    rw [markPteOnRaise_read_out _ _ _ _ (outside_pte hpg hr.2.1 h), markPdeOnRaise_read_out _ _ _ _ (outside_pde hpg h)]

theorem walk_effect (ch : Draws) (lin : Word) (acc : Access) (s : State) (hpg : s.pg = true) :
    (walk ch lin acc s).Ends (TranslationEffect s · lin) := by
  obtain ⟨e, h⟩ | ⟨a, hd, h⟩ | ⟨pde, a, hd, ht, h⟩ | ⟨pde, pte, hr, h⟩ := walk_cases ch lin acc s <;> rw [h]
  · trivial
  · exact TranslationEffect.refl s lin
  · exact TranslationEffect.ofMem
      (fun hm => markPdeOnRaise_update hm (pdeAddr_aligned _ _) (decodeEntry_present hd).1 ch)
      fun a h => markPdeOnRaise_read_out _ _ _ _ (outside_pde hpg h)
  · exact walkEnd_effect hr hpg ch acc

/-! ### The translation -/

theorem hitOrWalk_effect (ch : Draws) (lin : Word) (acc : Access) (m : List TlbLine) (s : State) (hpg : s.pg = true) :
    (hitOrWalk ch lin acc m s).Ends (TranslationEffect s · lin) := by
  unfold hitOrWalk
  split
  · unfold hit
    split <;> exact TranslationEffect.refl s lin
  · exact walk_effect ch lin acc s hpg

/-- With PG = 0 a translation is the identity (40_page_translation.md R70). -/
theorem translate_off (O : Oracle) (lin : Word) (acc : Access) {s : State} (h : s.pg = false) :
    translate O lin acc s = .done lin s := by
  simp [translate, h]

/-- With PG = 1 and the cache known it is a drop and then a hit or a walk. -/
theorem translate_on (O : Oracle) (lin : Word) (acc : Access) {s : State} {m : List TlbLine} (hpg : s.pg = true)
    (h : s.tlb = .known m) :
    translate O lin acc s = hitOrWalk (O (s.drawIdx + 1)) lin acc (keptLines (O s.drawIdx) m)
      (droppedState O m s) := by
  simp [translate, hpg, h]

/-- Everything a translation leaves of a state. -/
theorem translate_effect (O : Oracle) (lin : Word) (acc : Access) (s : State) :
    (translate O lin acc s).Ends (TranslationEffect s · lin) := by
  by_cases hpg : s.pg = true
  · cases htlb : s.tlb with
    | unknown => simp [translate, hpg, htlb, Attempt.Ends]
    | known m =>
      rw [translate_on O lin acc hpg htlb]
      refine Attempt.Ends.mono (hitOrWalk_effect (O (s.drawIdx + 1)) lin acc (keptLines (O s.drawIdx) m)
        (droppedState O m s) hpg) fun t ht => ?_
      refine ⟨(SameControl.dropped O m s).trans ht.control, fun h => ht.cacheWf ?_, ?_, ht.memWf, ht.kept, ht.dirty, ht.out⟩
      · exact keptLines_wf _ (htlb ▸ h)
      · have := ht.cacheFrom
        simp only [CacheFrom, droppedState_tlb, htlb] at this ⊢
        obtain ⟨m', he, hl⟩ := this
        exact ⟨m', he, fun l h => (hl l h).imp (fun h => (mem_keptLines.1 h).1) id⟩
  · rw [translate_off O lin acc (by simpa using hpg)]
    exact TranslationEffect.refl s lin

/-- A miss walks, in the state the drop leaves. -/
theorem translate_miss (O : Oracle) {lin : Word} {acc : Access} {s : State} {m : List TlbLine}
    (h : Misses s lin acc m) :
    translate O lin acc s = walk (O (s.drawIdx + 1)) lin acc
      (droppedState O m s) := by
  rw [translate_on O lin acc h.1 h.2.1, hitOrWalk, hitLine_kept, h.2.2]
  simp

/-- A translation hits the line of the page, if a draw kept it and the access may use it, or it walks. -/
theorem translate_hit_or_walk (O : Oracle) {lin : Word} {acc : Access} {s : State} {m : List TlbLine}
    (hpg : s.pg = true) (hm : s.tlb = .known m) :
    (∃ l, hitLine lin acc m = some l ∧ O s.drawIdx (.keepLine (vpnOf lin)) = true ∧
      translate O lin acc s = hit lin acc l (droppedState O m s)) ∨
    translate O lin acc s = walk (O (s.drawIdx + 1)) lin acc
      (droppedState O m s) := by
  rw [translate_on O lin acc hpg hm, hitOrWalk, hitLine_kept]
  by_cases hk : O s.drawIdx (.keepLine (vpnOf lin)) = true
  · rw [if_pos hk]
    cases hl : hitLine lin acc m with
    | none => exact .inr rfl
    | some l => exact .inl ⟨l, rfl, hk, rfl⟩
  · rw [if_neg hk]
    exact .inr rfl

/-- A hit, where a draw keeps the line. -/
theorem translate_hit (O : Oracle) {lin : Word} {acc : Access} {s : State} {m : List TlbLine} {l : TlbLine}
    (hpg : s.pg = true) (hm : s.tlb = .known m) (hl : hitLine lin acc m = some l)
    (hk : O s.drawIdx (.keepLine (vpnOf lin)) = true) : translate O lin acc s = hit lin acc l (droppedState O m s) := by
  rw [translate_on O lin acc hpg hm, hitOrWalk, hitLine_kept, if_pos hk, hl]

/-- What a walk reads depends on CR3, memory and the populated addresses alone. -/
theorem WalkReads.congr {s t : State} {lin : Word} {pde pte : PresentEntry} (h : WalkReads s lin pde pte)
    (hp : t.platform = s.platform) (hc : t.cr3 = s.cr3) (hm : t.mem = s.mem) : WalkReads t lin pde pte := by
  obtain ⟨h1, h2, h3, h4⟩ := h
  exact ⟨by rw [hp, hc]; exact h1, by rw [hm, hc]; exact h2, by rw [hp]; exact h3, by rw [hm]; exact h4⟩

/-- A walk that succeeds: the physical address, and the state with the tables updated and the cache perhaps filled. -/
theorem walk_done {s : State} {lin : Word} {acc : Access} {pde pte : PresentEntry} (h : WalkSucceeds s lin acc pde pte)
    (ch : Draws) :
    walk ch lin acc s = .done (physAddr pte.frame lin)
      ((s.withMem (markUsed ch s.mem (pdeAddr s.cr3 lin) (pteAddr pde.frame lin) acc)).withTlb
        (fillLine ch s.tlb (markUsed ch s.mem (pdeAddr s.cr3 lin) (pteAddr pde.frame lin) acc)
          (pteAddr pde.frame lin) lin acc pde pte)) := by
  rw [walk_of_reads h.1, walkEnd, if_pos h.2]

/-- A miss whose walk succeeds. -/
theorem translate_miss_done (O : Oracle) {s : State} {lin : Word} {acc : Access} {m : List TlbLine}
    {pde pte : PresentEntry} (h : Misses s lin acc m) (hw : WalkSucceeds s lin acc pde pte) :
    ∃ t, translate O lin acc s = .done (physAddr pte.frame lin) t ∧
      t.mem = markUsed (O (s.drawIdx + 1)) s.mem (pdeAddr s.cr3 lin) (pteAddr pde.frame lin) acc :=
  ⟨_, (translate_miss O h).trans (walk_done (s := droppedState O m s) ⟨hw.1.congr rfl rfl rfl, hw.2⟩ _), rfl⟩

/-- Everything a translation that raises can be (40_page_translation.md R78, R89). -/
theorem translate_raise {O : Oracle} {lin : Word} {acc : Access} {s t : State} {info : PageInfo}
    (h : translate O lin acc s = .raise info t) :
    s.pg = true ∧ ∃ m, s.tlb = .known m ∧ info.lin = lin ∧ info.acc = acc ∧ info.mode = s.mode ∧
      t.tlb = .known (keptLines (O s.drawIdx) m) ∧
      (t.mem = s.mem ∨
        (∃ pde a, decodeEntry (physRead s.mem (pdeAddr s.cr3 lin) 4) = .present pde ∧
          decodeEntry (physRead s.mem (pteAddr pde.frame lin) 4) = .notPresent a ∧
          t.mem = markPdeOnRaise (O (s.drawIdx + 1)) s.mem (pdeAddr s.cr3 lin)) ∨
        (∃ pde pte, WalkReads s lin pde pte ∧
          t.mem = markPteOnRaise (O (s.drawIdx + 1))
            (markPdeOnRaise (O (s.drawIdx + 1)) s.mem (pdeAddr s.cr3 lin)) (pteAddr pde.frame lin))) := by
  by_cases hpg : s.pg = true
  · cases htlb : s.tlb with
    | unknown => simp [translate, hpg, htlb] at h
    | known m =>
      refine ⟨hpg, m, rfl, ?_⟩
      obtain ⟨l, -, -, e⟩ | e := translate_hit_or_walk O (lin := lin) (acc := acc) hpg htlb
      · rw [e] at h
        unfold hit at h
        split at h
        · cases h
        · cases h; exact ⟨rfl, rfl, rfl, rfl, .inl rfl⟩
      · rw [e] at h
        obtain ⟨e, hh⟩ | ⟨a, hd, hh⟩ | ⟨pde, a, hd, ht, hh⟩ | ⟨pde, pte, hr, hh⟩ :=
          walk_cases (O (s.drawIdx + 1)) lin acc (droppedState O m s) <;> rw [hh] at h
        · cases h
        · cases h; exact ⟨rfl, rfl, rfl, rfl, .inl rfl⟩
        · cases h; exact ⟨rfl, rfl, rfl, rfl, .inr (.inl ⟨pde, a, hd, ht, rfl⟩)⟩
        · unfold walkEnd at h
          split at h
          · cases h
          · cases h; exact ⟨rfl, rfl, rfl, rfl, .inr (.inr ⟨pde, pte, hr.congr rfl rfl rfl, rfl⟩)⟩
  · rw [translate_off O lin acc (by simpa using hpg)] at h
    cases h

/-! ### A translation that is ready -/

/-- Where an access is served, a translation gives a frame it may use, whatever the draws. -/
theorem translate_served (O : Oracle) {s : State} {lin : Word} {acc : Access} {pde pte : PresentEntry}
    (h : AccessServed s lin acc pde pte) :
    ∃ f t, MayUseFrame s lin acc pte f ∧ translate O lin acc s = .done (physAddr f lin) t ∧
      TranslationEffect s t lin := by
  obtain ⟨hpg, hw, hk, hl⟩ := h
  have key := translate_effect O lin acc s
  suffices hd : ∃ f t, MayUseFrame s lin acc pte f ∧ translate O lin acc s = .done (physAddr f lin) t by
    obtain ⟨f, t, hf, hd⟩ := hd
    rw [hd] at key
    exact ⟨f, t, hf, hd, key⟩
  cases hm : s.tlb with
  | unknown => exact absurd hm hk
  | known m =>
    obtain ⟨l, hh, -, e⟩ | e := translate_hit_or_walk O (lin := lin) (acc := acc) hpg hm
    · exact ⟨_, _, .inr ⟨m, l, hm, hh, rfl⟩, e.trans (if_pos (hl m l hm hh))⟩
    · exact ⟨_, _, .inl rfl, e.trans (walk_done (s := droppedState O m s) ⟨hw.1.congr rfl rfl rfl, hw.2⟩ _)⟩

/-- A ready access is served, by the frame of the PTE alone. -/
theorem AccessReady.served {s : State} {lin : Word} {acc : Access} {pde pte : PresentEntry}
    (h : AccessReady s lin acc pde pte) :
    AccessServed s lin acc pde pte ∧ ∀ f, MayUseFrame s lin acc pte f → f = pte.frame := by
  obtain ⟨hpg, hw, hl⟩ := h
  have key : ∀ m l, CacheIs s m → hitLine lin acc m = some l →
      l.frame = pte.frame ∧ linePermits s.platform l acc s.mode = true := fun m l hm hh => by
    unfold lineAgreesWith at hl
    rw [show s.tlb = .known m from hm] at hl
    simpa [hh] using hl
  refine ⟨⟨hpg, hw, fun hu => ?_, fun m l hm hh => (key m l hm hh).2⟩, fun f hf => ?_⟩
  · unfold lineAgreesWith at hl; rw [hu] at hl; cases hl
  · rcases hf with hf | ⟨m, l, hm, hh, hf⟩
    · exact hf
    · exact hf.trans (key m l hm hh).1

/-- Where an access is ready, a translation gives the frame of its PTE, whatever the draws. -/
theorem translate_ready (O : Oracle) {s : State} {lin : Word} {acc : Access} {pde pte : PresentEntry}
    (h : AccessReady s lin acc pde pte) :
    ∃ t, translate O lin acc s = .done (physAddr pte.frame lin) t ∧ TranslationEffect s t lin := by
  obtain ⟨f, t, hf, ht, e⟩ := translate_served O h.served.1
  exact ⟨t, (h.served.2 f hf) ▸ ht, e⟩

/-- What a walk reads keeps its frames and its protection bits under what translations do to the entries. -/
theorem WalkReads.kept {s t : State} {lin : Word} {pde pte : PresentEntry} (h : WalkReads s lin pde pte)
    (hp : t.platform = s.platform) (hc : t.cr3 = s.cr3) (hk : EntriesKept s.mem t.mem) :
    ∃ pde' pte', WalkReads t lin pde' pte' ∧ pde'.frame = pde.frame ∧ pde'.us = pde.us ∧ pde'.rw = pde.rw ∧
      pte'.frame = pte.frame ∧ pte'.us = pte.us ∧ pte'.rw = pte.rw ∧
      (pde.accessed = true → pde'.accessed = true) ∧ (pte.accessed = true → pte'.accessed = true) ∧
      pte'.dirty = (physRead t.mem (pteAddr pde.frame lin) 4).getLsbD 6 := by
  obtain ⟨h1, h2, h3, h4⟩ := h
  have kd := hk _ (pdeAddr_aligned s.cr3 lin)
  have kt := hk _ (pteAddr_aligned pde.frame lin)
  obtain ⟨pde', d2, f1, u1, w1, b1⟩ := decodeEntry_kept kd h2
  obtain ⟨pte', d4, f2, u2, w2, b2⟩ := decodeEntry_kept kt h4
  rw [← f1] at h3 d4
  exact ⟨pde', pte', ⟨by rw [hp, hc]; exact h1, by rw [hc]; exact d2, by rw [hp]; exact h3, d4⟩,
    f1, u1, w1, f2, u2, w2, b1, b2, by rw [(decodeEntry_present d4).2.2.2, f1]; rfl⟩

/-- The translation of another page leaves no line that an access hits but one it hit before. -/
theorem hit_after {s t : State} {lin lin' : Word} {acc : Access} (hwf : Tlb.wf s.tlb = true)
    (he : TranslationEffect s t lin') (hne : vpnOf lin' ≠ vpnOf lin) {m' : List TlbLine} {l : TlbLine}
    (hm : CacheIs t m') (hh : hitLine lin acc m' = some l) : ∃ m, CacheIs s m ∧ hitLine lin acc m = some l := by
  have hc := he.cacheFrom
  unfold CacheFrom at hc
  split at hc
  · have := hc.symm.trans hm; cases this
  · next m hs =>
    obtain ⟨m'', ht, hsub⟩ := hc
    have : m'' = m' := by have := ht.symm.trans hm; simpa using this
    subst this
    rw [hs] at hwf
    obtain ⟨hmem, hv, hu⟩ := hitLine_mem hh
    rcases hsub l hmem with hin | hv'
    · exact ⟨m, hs, hitLine_of_mem hwf hin hv hu⟩
    · exact absurd (hv'.symm.trans hv) hne

/-- The translation of another page leaves a known cache known. -/
theorem known_after {s t : State} {lin' : Word} (he : TranslationEffect s t lin') (h : s.tlb ≠ .unknown) :
    ∃ m', CacheIs t m' := by
  have hc := he.cacheFrom
  unfold CacheFrom at hc
  split at hc
  · next hu => exact absurd hu h
  · obtain ⟨m', ht, -⟩ := hc
    exact ⟨m', ht⟩

/-- An access that misses still misses after the translation of another page. -/
theorem Misses.after {s t : State} {lin lin' : Word} {acc : Access} {m : List TlbLine} (h : Misses s lin acc m)
    (hwf : Tlb.wf s.tlb = true) (he : TranslationEffect s t lin') (hne : vpnOf lin' ≠ vpnOf lin) :
    ∃ m', Misses t lin acc m' := by
  obtain ⟨m', hm'⟩ := known_after he (fun hu => by have := h.2.1.symm.trans hu; cases this)
  refine ⟨m', he.control.regs.pg.trans h.1, hm', ?_⟩
  cases hh : hitLine lin acc m' with
  | none => rfl
  | some l =>
    obtain ⟨m0, hm0, hh0⟩ := hit_after hwf he hne hm' hh
    have : m0 = m := by have := hm0.symm.trans h.2.1; simpa using this
    rw [this, h.2.2] at hh0
    cases hh0

/-- An access stays served, with the same frames, when the translation of another page intervenes. -/
theorem AccessServed.after {s t : State} {lin lin' : Word} {acc : Access} {pde pte : PresentEntry}
    (h : AccessServed s lin acc pde pte) (hwf : Tlb.wf s.tlb = true) (he : TranslationEffect s t lin')
    (hm : Memory.wf s.mem = true) (hne : vpnOf lin' ≠ vpnOf lin) :
    ∃ pde' pte', AccessServed t lin acc pde' pte' ∧ pde'.frame = pde.frame ∧
      ∀ f, MayUseFrame t lin acc pte' f → MayUseFrame s lin acc pte f := by
  obtain ⟨hpg, ⟨hr, hp⟩, hk, hl⟩ := h
  obtain ⟨pde', pte', hr', f1, u1, w1, f2, u2, w2, -⟩ :=
    hr.kept he.control.regs.platform he.control.regs.cr3 (he.kept hm)
  obtain ⟨m', hm'⟩ := known_after he hk
  refine ⟨pde', pte', ⟨he.control.regs.pg.trans hpg, ⟨hr', ?_⟩, fun hu => ?_, fun m2 l hm2 hh => ?_⟩, f1, fun f hf => ?_⟩
  · unfold walkPermits at hp ⊢
    rw [he.control.regs.platform, he.control.regs.mode, u1, w1, u2, w2]; exact hp
  · have := hu.symm.trans hm'; cases this
  · obtain ⟨m, hs, hh'⟩ := hit_after hwf he hne hm2 hh
    rw [he.control.regs.platform, he.control.regs.mode]
    exact hl m l hs hh'
  · rcases hf with hf | ⟨m2, l, hm2, hh, hf⟩
    · exact .inl (hf.trans f2)
    · obtain ⟨m, hs, hh'⟩ := hit_after hwf he hne hm2 hh
      exact .inr ⟨m, l, hs, hh', hf⟩

/-- A page that is not present stays so under what translations do to the entries. -/
theorem PageNotPresent.kept {s t : State} {lin : Word} {pde : PresentEntry} (h : PageNotPresent s lin pde)
    (hp : t.platform = s.platform) (hc : t.cr3 = s.cr3) (hk : EntriesKept s.mem t.mem) :
    ∃ pde', PageNotPresent t lin pde' ∧ pde'.frame = pde.frame := by
  obtain ⟨h1, h2, h3, h4⟩ := h
  obtain ⟨pde', d, f, -⟩ := decodeEntry_kept (hk _ (pdeAddr_aligned s.cr3 lin)) h2
  refine ⟨pde', ⟨by rw [hp, hc]; exact h1, by rw [hc]; exact d, by rw [hp, f]; exact h3, ?_⟩, f⟩
  rw [f, (hk _ (pteAddr_aligned pde.frame lin)).2.2 h4]; exact h4

/-- And under a store apart from its entries. -/
theorem PageNotPresent.store {s : State} {lin pa : Word} {n : Nat} {pde : PresentEntry} (h : PageNotPresent s lin pde)
    (ha : ApartFromWalk s lin pde pa n) (v : Word) : PageNotPresent (s.withMem (physWrite s.mem pa n v)) lin pde := by
  obtain ⟨h1, h2, h3, h4⟩ := h
  have d := physRead_physWrite_apart s.mem pa (pdeAddr s.cr3 lin) v n 4 ha.1
  have t := physRead_physWrite_apart s.mem pa (pteAddr pde.frame lin) v n 4 ha.2
  exact ⟨h1, (congrArg decodeEntry d).trans h2, h3, (congrArg (·.getLsbD 0) t).trans h4⟩

/-- Bytes apart from the entries of a walk are none that its translation may write. -/
theorem mayWrite_of_apart {s : State} {lin : Word} {pde pte : PresentEntry} (hr : WalkReads s lin pde pte) {pa : Word}
    {n : Nat} (h : ApartFromWalk s lin pde pa n) {a : Nat} (h1 : pa.toNat ≤ a) (h2 : a < pa.toNat + n) :
    translationMayWrite s lin a = false := by
  obtain ⟨hd, ht⟩ := h
  have e1 : entryHolds (pdeAddr s.cr3 lin) a = false := by simp [entryHolds]; omega
  have e2 : entryHolds (pteAddr pde.frame lin) a = false := by simp [entryHolds]; omega
  simp [translationMayWrite, walkHolds, hr.2.1, e1, e2]

/-- A store apart from the entries of a walk leaves the access served. -/
theorem AccessServed.store {s : State} {lin : Word} {acc : Access} {pde pte : PresentEntry}
    (h : AccessServed s lin acc pde pte) {pa : Word} {n : Nat} (ha : ApartFromWalk s lin pde pa n) (v : Word) :
    AccessServed (s.withMem (physWrite s.mem pa n v)) lin acc pde pte ∧
      ∀ a, translationMayWrite (s.withMem (physWrite s.mem pa n v)) lin a = translationMayWrite s lin a := by
  obtain ⟨hpg, ⟨⟨h1, h2, h3, h4⟩, hp⟩, hl⟩ := h
  have d := physRead_physWrite_apart s.mem pa (pdeAddr s.cr3 lin) v n 4 ha.1
  have t := physRead_physWrite_apart s.mem pa (pteAddr pde.frame lin) v n 4 ha.2
  refine ⟨⟨hpg, ⟨⟨h1, ?_, h3, ?_⟩, hp⟩, hl⟩, fun a => ?_⟩
  · show decodeEntry (physRead (physWrite s.mem pa n v) (pdeAddr s.cr3 lin) 4) = _
    rw [d]; exact h2
  · show decodeEntry (physRead (physWrite s.mem pa n v) (pteAddr pde.frame lin) 4) = _
    rw [t]; exact h4
  · simp only [translationMayWrite, walkHolds, State.withMem_pg, State.withMem_cr3, State.withMem_mem, d]

end Sys2Proof.Machine
end

