-- ==== Sys2Proof/Laws/Access.lean ====
section
/-!
SUPPORT. What completing an operation, taking the page exception and a memory access can do, said once
(spec/10_state.md R13, spec/60_exceptions.md R143, R144, spec/40_page_translation.md R85 to R88).
-/

namespace Sys2Proof.Machine

/-! ### Completing and raising -/

@[simp] theorem completeOp_mem (s : State) : (completeOp s).mem = s.mem := by unfold completeOp; split <;> rfl
@[simp] theorem completeOp_tlb (s : State) : (completeOp s).tlb = s.tlb := by unfold completeOp; split <;> rfl
@[simp] theorem completeOp_pg (s : State) : (completeOp s).pg = s.pg := by unfold completeOp; split <;> rfl
@[simp] theorem completeOp_cr3 (s : State) : (completeOp s).cr3 = s.cr3 := by unfold completeOp; split <;> rfl
@[simp] theorem completeOp_eax (s : State) : (completeOp s).eax = s.eax := by unfold completeOp; split <;> rfl
@[simp] theorem completeOp_mode (s : State) : (completeOp s).mode = s.mode := by unfold completeOp; split <;> rfl
@[simp] theorem completeOp_program (s : State) : (completeOp s).program = s.program := by
  unfold completeOp; split <;> rfl
@[simp] theorem completeOp_platform (s : State) : (completeOp s).platform = s.platform := by
  unfold completeOp; split <;> rfl
@[simp] theorem completeOp_results (s : State) : (completeOp s).results = s.results := by
  unfold completeOp; split <;> rfl
@[simp] theorem completeOp_exception (s : State) : (completeOp s).exception = s.exception := by
  unfold completeOp; split <;> rfl

theorem completeOp_list {s : State} (h : s.handlerQueue = []) : completeOp s = s.withIndex (s.index + 1) := by
  unfold completeOp; split
  · rfl
  · next hq => rw [h] at hq; cases hq

theorem completeOp_handler {s : State} {c : Code} {rest : List Code} (h : s.handlerQueue = c :: rest) :
    completeOp s = s.withQueue rest := by
  unfold completeOp; split
  · next hq => rw [h] at hq; cases hq
  · next hq => rw [h] at hq; cases hq; rfl

theorem completeOp_regs (s : State) : SameRegisters s (completeOp s) := by
  constructor <;> simp

/-- Where a completed operation leaves the place in the program depends on the place alone. -/
theorem completeOp_place {s t : State} (hi : t.index = s.index) (hq : t.handlerQueue = s.handlerQueue) :
    (completeOp t).index = (completeOp s).index ∧ (completeOp t).handlerQueue = (completeOp s).handlerQueue := by
  unfold completeOp
  rw [hq]
  cases h : s.handlerQueue <;> simp [hi, hq, h]

theorem takePageException_handled {info : PageInfo} {s : State} {ops : List Code} (hq : s.handlerQueue = [])
    (hh : handlerFor info s.platform.handler = some ops) :
    takePageException info s = .next ((s.withException info).withQueue ops) := by
  unfold takePageException; split <;> simp_all

theorem takePageException_unhandled {info : PageInfo} {s : State}
    (h : s.handlerQueue ≠ [] ∨ handlerFor info s.platform.handler = none) :
    takePageException info s = .fault (.pageException info (s.withException info)) := by
  unfold takePageException; split <;> simp_all

/-- Taking the page exception answers a next state only outside the handler and with a handler for the record. -/
theorem takePageException_next {info : PageInfo} {s t : State} (h : takePageException info s = .next t) :
    s.handlerQueue = [] ∧ ∃ ops, handlerFor info s.platform.handler = some ops ∧
      t = (s.withException info).withQueue ops := by
  unfold takePageException at h
  split at h
  · next ops hq hh => cases h; exact ⟨hq, ops, hh, rfl⟩
  · cases h
  · cases h

/-- Everything an operation's end can be where it answers a next state: it completed, or the handler took its raise. -/
theorem finish_next {α : Type} {r : Attempt α} {k : α → State → State} {t : State} (h : finish r k = .next t) :
    (∃ a s', r = .done a s' ∧ t = completeOp (k a s')) ∨
    (∃ info s' ops, r = .raise info s' ∧ t = (s'.withException info).withQueue ops ∧ s'.handlerQueue = []) := by
  cases r with
  | done a s' => simp only [finish, Host.Outcome.next.injEq] at h; exact .inl ⟨a, s', rfl, h.symm⟩
  | raise info s' =>
    obtain ⟨hq, ops, -, ht⟩ := takePageException_next h
    exact .inr ⟨info, s', ops, rfl, ht, hq⟩
  | refuse e => cases h

/-! ### Transfers -/

/-- Populated bytes lie within the physical space. -/
theorem populatedAt_fits {p : Platform} {pa : Word} {n : Nat} (h : populatedAt p pa n = true) :
    pa.toNat + n ≤ spaceSize := by
  cases n with
  | zero => have : pa.toNat < 4294967296 := pa.isLt; simp only [spaceSize]; omega
  | succ k =>
    simp only [populatedAt, List.all_eq_true, List.mem_range, List.any_eq_true, Bool.and_eq_true,
      decide_eq_true_eq] at h
    obtain ⟨r, -, -, hr⟩ := h k (by omega)
    have : r.last.toNat < 4294967296 := r.last.isLt
    simp only [spaceSize]; omega

/-- Bytes of populated bytes are populated. -/
theorem populatedAt_part {p : Platform} {pa qa : Word} {n k j : Nat} (h : populatedAt p pa n = true)
    (hq : qa.toNat = pa.toNat + j) (hk : j + k ≤ n) : populatedAt p qa k = true := by
  simp only [populatedAt, List.all_eq_true, List.mem_range] at h ⊢
  intro i hi
  have := h (j + i) (by omega)
  rw [hq]
  simpa [Nat.add_assoc] using this

/-- What a transfer does where it is not refused. -/
theorem transfer_done (x : Transfer) (p : Part) {pa : Word} {s : State} (h : populatedAt s.platform pa p.len = true) :
    transfer x p pa s = match x with
      | .load => .done (physRead s.mem pa p.len <<< (8 * p.pos)) s
      | .store v => .done 0#32 (s.withMem (physWrite s.mem pa p.len (v >>> (8 * p.pos)))) := by
  cases x <;> simp [transfer, h]

theorem transfer_cases (x : Transfer) (p : Part) (pa : Word) (s : State) :
    transfer x p pa s = .refuse .unpopulated ∨
    (populatedAt s.platform pa p.len = true ∧
      ((x = .load ∧ transfer x p pa s = .done (physRead s.mem pa p.len <<< (8 * p.pos)) s) ∨
      ∃ v, x = .store v ∧
        transfer x p pa s = .done 0#32 (s.withMem (physWrite s.mem pa p.len (v >>> (8 * p.pos)))))) := by
  unfold transfer
  split
  · next h =>
    cases x with
    | load => exact .inr ⟨h, .inl ⟨rfl, rfl⟩⟩
    | store v => exact .inr ⟨h, .inr ⟨v, rfl, rfl⟩⟩
  · exact .inl rfl

/-! ### What every access keeps -/

/-- What a memory access keeps of a state, whatever it comes to. -/
structure AccessKeeps (s t : State) : Prop where
  control : SameControl s t
  cacheWf : Tlb.wf s.tlb = true → Tlb.wf t.tlb = true
  memWf : Memory.wf s.mem = true → Memory.wf t.mem = true

theorem AccessKeeps.refl (s : State) : AccessKeeps s s := ⟨SameControl.refl s, id, id⟩

theorem AccessKeeps.trans {s t u : State} (h : AccessKeeps s t) (h' : AccessKeeps t u) : AccessKeeps s u :=
  ⟨h.control.trans h'.control, fun hh => h'.cacheWf (h.cacheWf hh), fun hh => h'.memWf (h.memWf hh)⟩

theorem translate_keeps (O : Oracle) (lin : Word) (acc : Access) (s : State) :
    (translate O lin acc s).Ends (AccessKeeps s) :=
  (translate_effect O lin acc s).mono fun _ h => ⟨h.control, h.cacheWf, h.memWf⟩

theorem transfer_keeps (x : Transfer) (p : Part) (pa : Word) (s : State) :
    (transfer x p pa s).Ends (AccessKeeps s) := by
  obtain h | ⟨hp, ⟨-, h⟩ | ⟨v, -, h⟩⟩ := transfer_cases x p pa s <;> rw [h]
  · trivial
  · exact AccessKeeps.refl s
  · exact ⟨SameControl.withMem s _, id, fun hm => physWrite_wf hm _ _ _ (populatedAt_fits hp)⟩

/-- Attempts that each keep a state, in sequence. -/
theorem Attempt.Ends.keepsThen {α β : Type} {s : State} {r : Attempt α} {f : α → State → Attempt β}
    (h : r.Ends (AccessKeeps s)) (hf : ∀ a t, (f a t).Ends (AccessKeeps t)) : (r.andThen f).Ends (AccessKeeps s) :=
  h.andThen (fun _ h => h) fun a t ht => (hf a t).mono fun _ h => ht.trans h

theorem accessPart_keeps (O : Oracle) (x : Transfer) (p : Part) (s : State) :
    (accessPart O x p s).Ends (AccessKeeps s) :=
  (translate_keeps O p.lin x.acc s).keepsThen fun pa t => transfer_keeps x p pa t

theorem accessOrdered_keeps (O : Oracle) (early : Bool) (x : Transfer) (p q : Part) (s : State) :
    (accessOrdered O early x p q s).Ends (AccessKeeps s) := by
  unfold accessOrdered
  split
  · exact (accessPart_keeps O x p s).keepsThen fun v t => (accessPart_keeps O x q t).keepsThen fun w u => AccessKeeps.refl u
  · exact (translate_keeps O p.lin x.acc s).keepsThen fun pa t =>
      (translate_keeps O q.lin x.acc t).keepsThen fun qa u =>
        (transfer_keeps x p pa u).keepsThen fun v u' =>
          (transfer_keeps x q qa u').keepsThen fun w u'' => AccessKeeps.refl u''

theorem AccessKeeps.tick (s : State) : AccessKeeps s s.tick := ⟨SameControl.tick s, id, id⟩

/-- Whatever an access comes to, it keeps the registers, the place in the program and the canonical forms. -/
theorem access_keeps (O : Oracle) (x : Transfer) (lin : Word) (n : Nat) (s : State) :
    (access O x lin n s).Ends (AccessKeeps s) := by
  unfold access
  split
  · trivial
  · split
    · trivial
    · split
      · unfold accessSplit
        split <;> exact (accessOrdered_keeps _ _ _ _ _ _).mono fun _ h => (AccessKeeps.tick s).trans h
      · exact accessPart_keeps O x _ s

/-! What the record of an access that raises says (60_exceptions.md R145). -/

theorem accessPart_raise {O : Oracle} {x : Transfer} {p : Part} {s t : State} {info : PageInfo}
    (h : accessPart O x p s = .raise info t) : info.lin = p.lin ∧ info.acc = x.acc ∧ info.mode = s.mode := by
  unfold accessPart at h
  cases hx : translate O p.lin x.acc s with
  | refuse e => rw [hx] at h; cases h
  | raise i u =>
    rw [hx] at h; cases h
    obtain ⟨-, m, -, a, b, c, -⟩ := translate_raise hx
    exact ⟨a, b, c⟩
  | done pa u =>
    rw [hx] at h
    simp only [Attempt.andThen] at h
    obtain h' | ⟨-, ⟨-, h'⟩ | ⟨v, -, h'⟩⟩ := transfer_cases x p pa u <;> rw [h'] at h <;> cases h

theorem transfer_no_raise {x : Transfer} {p : Part} {pa : Word} {s t : State} {info : PageInfo} :
    transfer x p pa s ≠ .raise info t := by
  intro h
  obtain h' | ⟨-, ⟨-, h'⟩ | ⟨v, -, h'⟩⟩ := transfer_cases x p pa s <;> rw [h'] at h <;> cases h

theorem accessOrdered_raise {O : Oracle} {e : Bool} {x : Transfer} {p q : Part} {s t : State} {info : PageInfo}
    (h : accessOrdered O e x p q s = .raise info t) :
    info.acc = x.acc ∧ info.mode = s.mode ∧ (info.lin = p.lin ∨ info.lin = q.lin) := by
  unfold accessOrdered at h
  split at h
  · unfold accessEarly at h
    have k := accessPart_keeps O x p s
    cases hx : accessPart O x p s with
    | refuse e => rw [hx] at h; cases h
    | raise i u =>
      rw [hx] at h; cases h
      obtain ⟨a, b, c⟩ := accessPart_raise hx
      exact ⟨b, c, .inl a⟩
    | done v u =>
      rw [hx] at h k
      simp only [Attempt.andThen] at h
      cases hy : accessPart O x q u with
      | refuse e => rw [hy] at h; cases h
      | raise i w =>
        rw [hy] at h; cases h
        obtain ⟨a, b, c⟩ := accessPart_raise hy
        exact ⟨b, c.trans k.control.regs.mode, .inr a⟩
      | done v' w => rw [hy] at h; cases h
  · unfold accessLate at h
    have k := translate_keeps O p.lin x.acc s
    cases hx : translate O p.lin x.acc s with
    | refuse e => rw [hx] at h; cases h
    | raise i u =>
      rw [hx] at h; cases h
      obtain ⟨-, m, -, a, b, c, -⟩ := translate_raise hx
      exact ⟨b, c, .inl a⟩
    | done v u =>
      rw [hx] at h k
      simp only [Attempt.andThen] at h
      cases hy : translate O q.lin x.acc u with
      | refuse e => rw [hy] at h; cases h
      | raise i w =>
        rw [hy] at h; cases h
        obtain ⟨-, m, -, a, b, c, -⟩ := translate_raise hy
        exact ⟨b, c.trans k.control.regs.mode, .inr a⟩
      | done v' w =>
        rw [hy] at h
        dsimp only at h
        split at h
        · split at h
          · cases h
          · next hh => exact absurd hh transfer_no_raise
          · cases h
        · next hh => exact absurd hh transfer_no_raise
        · cases h

/-- The access, the mode, and the linear address of the operand or of its second part. -/
theorem access_raise {O : Oracle} {x : Transfer} {lin : Word} {n : Nat} {s t : State} {info : PageInfo}
    (h : access O x lin n s = .raise info t) : info.acc = x.acc ∧ info.mode = s.mode ∧
      (info.lin = lin ∨ (crossesPage lin n = true ∧ info.lin = (secondPart lin n).lin)) := by
  unfold access at h
  split at h
  · cases h
  · split at h
    · cases h
    · split at h
      · next hc =>
        unfold accessSplit at h
        split at h
        · obtain ⟨a, b, c⟩ := accessOrdered_raise h
          exact ⟨a, b, c.symm.imp id fun h => ⟨hc, h⟩⟩
        · obtain ⟨a, b, c⟩ := accessOrdered_raise h
          exact ⟨a, b, c.imp id fun h => ⟨hc, h⟩⟩
      · obtain ⟨a, b, c⟩ := accessPart_raise h
        exact ⟨b, c, .inl a⟩

/-- A next state of `finish` keeps what the attempt kept. -/
theorem finish_keeps {r : Attempt Word} {k : Word → State → State} {s t : State} (h : finish r k = .next t)
    (hr : r.Ends (AccessKeeps s)) (hk : ∀ a u, SameRegisters u (k a u) ∧ (k a u).tlb = u.tlb ∧ (k a u).mem = u.mem) :
    SameRegisters s t ∧ (Tlb.wf s.tlb = true → Tlb.wf t.tlb = true) ∧
      (Memory.wf s.mem = true → Memory.wf t.mem = true) := by
  obtain ⟨a, s', rfl, rfl⟩ | ⟨info, s', ops, rfl, rfl, -⟩ := finish_next h
  · obtain ⟨h1, h2, h3⟩ := hk a s'
    have hr : AccessKeeps s s' := hr
    refine ⟨(hr.control.regs.trans h1).trans (completeOp_regs _), fun hh => ?_, fun hh => ?_⟩
    · simpa [h2] using hr.cacheWf hh
    · simpa [h3] using hr.memWf hh
  · have hr : AccessKeeps s s' := hr
    exact ⟨hr.control.regs.trans ⟨rfl, rfl, rfl, rfl, rfl, rfl⟩, hr.cacheWf, hr.memWf⟩

/-! ### Loads -/

/-- What a load leaves of a state: the entries as R84 says, and every byte outside the entries of the translations. -/
structure LoadKeeps (s t : State) (P : Nat → Prop) : Prop where
  control : SameControl s t
  memWf : Memory.wf t.mem = true
  kept : EntriesKept s.mem t.mem
  out : ∀ a, P a → Memory.read t.mem a = Memory.read s.mem a

/-- Where the entries of a walk lie does not depend on what translations have done. -/
theorem walkHolds_kept {s t : State} (hc : t.cr3 = s.cr3) (hk : EntriesKept s.mem t.mem) (lin : Word) (a : Nat) :
    walkHolds t lin a = walkHolds s lin a := by
  have hag := (hk _ (pdeAddr_aligned s.cr3 lin)).1
  have hnp := (hk _ (pdeAddr_aligned s.cr3 lin)).2.2
  unfold walkHolds
  rw [hc]
  cases hs : decodeEntry (physRead s.mem (pdeAddr s.cr3 lin) 4) with
  | notPresent x => rw [hnp (decodeEntry_notPresent hs), hs]
  | present e => rw [decodeEntry_agree hag hs]
  | reserved x =>
    cases ht : decodeEntry (physRead t.mem (pdeAddr s.cr3 lin) 4) with
    | notPresent y =>
      have h0 : (physRead s.mem (pdeAddr s.cr3 lin) 4).getLsbD 0 = false :=
        (hag 0 (by decide) (by decide)).symm.trans (decodeEntry_notPresent ht)
      exact absurd (ht.symm.trans (by rw [hnp h0, hs])) (by simp)
    | reserved y => rfl
    | present e =>
      have hag' : AgreeButAD (physRead t.mem (pdeAddr s.cr3 lin) 4) (physRead s.mem (pdeAddr s.cr3 lin) 4) :=
        fun i h5 h6 => (hag i h5 h6).symm
      rw [decodeEntry_agree hag' ht] at hs; cases hs

/-- What a translation may write does not depend on what other translations have done. -/
theorem translationMayWrite_kept {s t : State} (hc : SameControl s t) (hk : EntriesKept s.mem t.mem) (lin : Word)
    (a : Nat) : translationMayWrite t lin a = translationMayWrite s lin a := by
  rw [translationMayWrite, translationMayWrite, hc.regs.pg, walkHolds_kept hc.regs.cr3 hk]

theorem LoadKeeps.refl {s : State} (hm : Memory.wf s.mem = true) (P : Nat → Prop) : LoadKeeps s s P :=
  ⟨SameControl.refl s, hm, EntriesKept.refl _, fun _ _ => rfl⟩

theorem LoadKeeps.trans {s t u : State} {P : Nat → Prop} (h : LoadKeeps s t P) (h' : LoadKeeps t u P) : LoadKeeps s u P :=
  ⟨h.control.trans h'.control, h'.memWf, h.kept.trans h'.kept, fun a ha => (h'.out a ha).trans (h.out a ha)⟩

/-- A translation, in a state that other translations have led to from `s`. -/
theorem translate_loadKeeps (O : Oracle) (lin : Word) (acc : Access) {s t : State} {P : Nat → Prop}
    (h : LoadKeeps s t P) (hP : ∀ a, P a → translationMayWrite s lin a = false) :
    (translate O lin acc t).Ends (LoadKeeps s · P) :=
  (translate_effect O lin acc t).mono fun _ e => h.trans ⟨e.control, e.memWf h.memWf, e.kept h.memWf, fun a ha =>
    e.out a (by rw [translationMayWrite_kept h.control h.kept]; exact hP a ha)⟩

theorem transfer_load_ends {P : State → Prop} (p : Part) (pa : Word) {s : State} (h : P s) :
    (transfer .load p pa s).Ends P := by
  obtain h' | ⟨hp, ⟨-, h'⟩ | ⟨v, hx, -⟩⟩ := transfer_cases .load p pa s
  · rw [h']; trivial
  · rw [h']; exact h
  · cases hx

/-- A property that the translations of an operand's parts keep holds wherever its load ends. -/
theorem access_load_ends {O : Oracle} {lin : Word} {n : Nat} {s : State} {P : State → Prop} (h : P s) (h' : P s.tick)
    (ht : ∀ w l, P w → (l = lin ∨ (crossesPage lin n = true ∧ l = (secondPart lin n).lin)) →
      (translate O l .read w).Ends P) : (access O .load lin n s).Ends P := by
  have part : ∀ (r : Part) (w : State), P w → (r.lin = lin ∨ (crossesPage lin n = true ∧ r.lin = (secondPart lin n).lin)) →
      (accessPart O .load r w).Ends P := fun r w hw hr =>
    (ht w r.lin hw hr).andThen (fun _ h => h) fun pa _ hu => transfer_load_ends r pa hu
  have ordered : ∀ (early : Bool) (p q : Part), (p.lin = lin ∨ (crossesPage lin n = true ∧ p.lin = (secondPart lin n).lin)) →
      (q.lin = lin ∨ (crossesPage lin n = true ∧ q.lin = (secondPart lin n).lin)) →
      (accessOrdered O early .load p q s.tick).Ends P := fun early p q hp hq => by
    unfold accessOrdered
    split
    · exact (part p _ h' hp).andThen (fun _ h => h) fun _ t ht' =>
        (part q t ht' hq).andThen (fun _ h => h) fun _ _ hu => hu
    · exact (ht _ p.lin h' hp).andThen (fun _ h => h) fun pa t ht' =>
        (ht t q.lin ht' hq).andThen (fun _ h => h) fun qa u hu =>
          (transfer_load_ends p pa hu).andThen (fun _ h => h) fun _ _ hu' =>
            (transfer_load_ends q qa hu').andThen (fun _ h => h) fun _ _ hh => hh
  unfold access
  split
  · trivial
  · split
    · trivial
    · split
      · next hc =>
        unfold accessSplit
        split
        · exact ordered _ _ _ (.inr ⟨hc, rfl⟩) (.inl rfl)
        · exact ordered _ _ _ (.inl rfl) (.inr ⟨hc, rfl⟩)
      · exact part _ _ h (.inl rfl)

/-- The bytes that no translation of a part of the operand may write. -/
def Outside (s : State) (lin : Word) (n : Nat) (a : Nat) : Prop :=
  translationMayWrite s lin a = false ∧ (crossesPage lin n = true → translationMayWrite s (secondPart lin n).lin a = false)

theorem access_load_keeps (O : Oracle) (lin : Word) (n : Nat) {s : State} (hm : Memory.wf s.mem = true) :
    (access O .load lin n s).Ends (LoadKeeps s · (Outside s lin n)) :=
  access_load_ends (P := (LoadKeeps s · (Outside s lin n))) (LoadKeeps.refl hm _)
    ⟨SameControl.tick s, hm, EntriesKept.refl _, fun _ _ => rfl⟩ fun w l hw hl =>
      translate_loadKeeps O l .read hw fun a ha => by
        rcases hl with rfl | ⟨hc, rfl⟩
        · exact ha.1
        · exact ha.2 hc

/-! ### Operands within a page and across two -/

theorem access_within (O : Oracle) (x : Transfer) {lin : Word} {n : Nat} (s : State) (h : OperandAdmitted lin n)
    (hc : crossesPage lin n = false) : access O x lin n s = accessPart O x ⟨lin, n, 0⟩ s := by
  unfold access; simp [h.1, h.2, hc]

theorem access_across (O : Oracle) (x : Transfer) {lin : Word} {n : Nat} (s : State) (h : OperandAdmitted lin n)
    (hc : crossesPage lin n = true) : access O x lin n s = accessSplit O x (firstPart lin) (secondPart lin n) s := by
  unfold access; simp [h.1, h.2, hc]

theorem accessPart_load {O : Oracle} {p : Part} {s t : State} {pa : Word}
    (h : translate O p.lin .read s = .done pa t) (hp : populatedAt t.platform pa p.len = true) :
    accessPart O .load p s = .done (physRead t.mem pa p.len <<< (8 * p.pos)) t := by
  rw [accessPart, show Transfer.load.acc = .read from rfl, h]
  exact transfer_done .load p hp

theorem accessPart_store {O : Oracle} {p : Part} {s t : State} {pa v : Word}
    (h : translate O p.lin .write s = .done pa t) (hp : populatedAt t.platform pa p.len = true) :
    accessPart O (.store v) p s = .done 0#32 (t.withMem (physWrite t.mem pa p.len (v >>> (8 * p.pos)))) := by
  rw [accessPart, show (Transfer.store v).acc = .write from rfl, h]
  exact transfer_done (.store v) p hp

theorem pageOffset_eq (lin : Word) : pageOffset lin = lin.toNat % 4096 := by
  simp [pageOffset, splitLinear, BitVec.extractLsb'_toNat]

theorem vpnOf_toNat (lin : Word) : (vpnOf lin).toNat = lin.toNat / 4096 := by
  have : lin.toNat < 4294967296 := lin.isLt
  simp only [vpnOf, BitVec.extractLsb'_toNat, Nat.shiftRight_eq_div_pow]
  omega

theorem physAddr_toNat (f : Frame) (lin : Word) : (physAddr f lin).toNat = f.toNat * 4096 + pageOffset lin := by
  have h : (splitLinear lin).offset.toNat < 2 ^ 12 := (splitLinear lin).offset.isLt
  rw [physAddr, BitVec.toNat_append, Nat.shiftLeft_eq, Nat.mul_comm, ← Nat.two_pow_add_eq_or_of_lt h, pageOffset]

theorem secondPart_lin {lin : Word} {n : Nat} (ho : OperandAdmitted lin n) (hc : crossesPage lin n = true) :
    (secondPart lin n).lin.toNat = lin.toNat + bytesBefore lin ∧ bytesBefore lin < n ∧ n ≤ 4 ∧
      pageOffset lin + bytesBefore lin = 4096 := by
  obtain ⟨h1, h2⟩ := ho
  have hn : n ≤ 4 := by
    simp only [sizeAdmitted, Bool.or_eq_true, beq_iff_eq] at h1; omega
  have hoff : pageOffset lin < 4096 := (splitLinear lin).offset.isLt
  simp only [crossesPage, decide_eq_true_eq, pageSize] at hc
  simp only [wrapsLinear, decide_eq_false_iff_not, spaceSize] at h2
  have hb : bytesBefore lin = 4096 - pageOffset lin := rfl
  refine ⟨?_, by omega, hn, by omega⟩
  simp only [secondPart, BitVec.toNat_add, BitVec.toNat_ofNat]
  have : lin.toNat < 4294967296 := lin.isLt
  omega

/-- The two parts of an operand lie in different pages. -/
theorem parts_pages {lin : Word} {n : Nat} (ho : OperandAdmitted lin n) (hc : crossesPage lin n = true) :
    vpnOf lin ≠ vpnOf (secondPart lin n).lin := by
  obtain ⟨h1, h2, h3, h4⟩ := secondPart_lin ho hc
  rw [pageOffset_eq] at h4
  intro h
  have := congrArg BitVec.toNat h
  rw [vpnOf_toNat, vpnOf_toNat, h1] at this
  omega

/-- A property that the translations and the stores of both parts of an operand keep holds wherever its access ends. -/
theorem accessOrdered_store_ends {O : Oracle} {early : Bool} {v : Word} {p q : Part} {s : State} {P : State → Prop}
    (h : (translate O p.lin .write s).Ends P) (ht : ∀ w, P w → (translate O q.lin .write w).Ends P)
    (hp : ∀ pa u, translate O p.lin .write s = .done pa u → pa.toNat + p.len ≤ spaceSize → ∀ w, P w →
      P (w.withMem (physWrite w.mem pa p.len (v >>> (8 * p.pos)))))
    (hq : ∀ pa u qa u', translate O p.lin .write s = .done pa u →
      translate O q.lin .write
        (if early then u.withMem (physWrite u.mem pa p.len (v >>> (8 * p.pos))) else u) = .done qa u' →
      qa.toNat + q.len ≤ spaceSize → ∀ w, P w → P (w.withMem (physWrite w.mem qa q.len (v >>> (8 * q.pos))))) :
    (accessOrdered O early (.store v) p q s).Ends P := by
  have store : ∀ (r : Part) (ra : Word) (w : State),
      (ra.toNat + r.len ≤ spaceSize → P (w.withMem (physWrite w.mem ra r.len (v >>> (8 * r.pos))))) →
      (transfer (.store v) r ra w).Ends fun w' =>
        w' = w.withMem (physWrite w.mem ra r.len (v >>> (8 * r.pos))) ∧ P w' := fun r ra w hw => by
    obtain h' | ⟨hpop, ⟨hx, -⟩ | ⟨v', hx, h'⟩⟩ := transfer_cases (.store v) r ra w
    · rw [h']; trivial
    · cases hx
    · cases hx; rw [h']; exact ⟨rfl, hw (populatedAt_fits hpop)⟩
  cases hx : translate O p.lin .write s with
  | refuse e => cases early <;> simp [accessOrdered, accessEarly, accessLate, accessPart, Transfer.acc, hx,
      Attempt.andThen, Attempt.Ends]
  | raise info u =>
    rw [hx] at h
    cases early <;> simpa [accessOrdered, accessEarly, accessLate, accessPart, Transfer.acc, hx, Attempt.andThen,
      Attempt.Ends] using h
  | done pa u =>
    rw [hx] at h
    have hu : P u := h
    cases early with
    | true =>
      simp only [accessOrdered, accessEarly, accessPart, Transfer.acc, hx, if_true, Attempt.andThen]
      refine Attempt.Ends.andThen (store p pa u fun hf => hp pa u hx hf u hu) (fun _ h => h.2) fun _ w hw => ?_
      obtain ⟨rfl, hw⟩ := hw
      refine Attempt.Ends.andThen (P := P) ?_ (fun _ h => h) fun _ _ h => h
      cases hy : translate O q.lin .write (u.withMem (physWrite u.mem pa p.len (v >>> (8 * p.pos)))) with
      | refuse e => trivial
      | raise info w' => have := ht _ hw; rw [hy] at this; exact this
      | done qa w' =>
        have hw' : P w' := by have := ht _ hw; rw [hy] at this; exact this
        exact (store q qa w' fun hf => hq pa u qa w' hx hy hf w' hw').mono fun _ h => h.2
    | false =>
      simp only [accessOrdered, accessLate, Transfer.acc, hx, Attempt.andThen, Bool.false_eq_true, if_false]
      cases hy : translate O q.lin .write u with
      | refuse e => trivial
      | raise info w' => have := ht _ hu; rw [hy] at this; exact this
      | done qa w' =>
        have hw' : P w' := by have := ht _ hu; rw [hy] at this; exact this
        refine Attempt.Ends.andThen (store p pa w' fun hf => hp pa u hx hf w' hw') (fun _ h => h.2) fun _ w2 h2 => ?_
        refine Attempt.Ends.andThen (P := P) ?_ (fun _ h => h) fun _ _ h => h
        exact (store q qa w2 fun hf => hq pa u qa w' hx hy hf w2 h2.2).mono fun _ h => h.2

/-- Two parts of a load, both served: the load completes, and where the parts lie apart from the entries of both walks its
value is that of their bytes in the memory before. -/
theorem accessOrdered_load_served (O : Oracle) (early : Bool) {p q : Part} {s : State} {pde1 pte1 pde2 pte2 : PresentEntry}
    (hm : Memory.wf s.mem = true) (hwf : Tlb.wf s.tlb = true) (hne : vpnOf p.lin ≠ vpnOf q.lin)
    (hr1 : AccessServed s p.lin .read pde1 pte1) (hr2 : AccessServed s q.lin .read pde2 pte2)
    (hp1 : ∀ f, MayUseFrame s p.lin .read pte1 f → populatedAt s.platform (physAddr f p.lin) p.len = true)
    (hp2 : ∀ f, MayUseFrame s q.lin .read pte2 f → populatedAt s.platform (physAddr f q.lin) q.len = true) :
    ∃ v t f1 f2, accessOrdered O early .load p q s = .done v t ∧ SameControl s t ∧
      MayUseFrame s p.lin .read pte1 f1 ∧ MayUseFrame s q.lin .read pte2 f2 ∧
      (ApartFromWalk s p.lin pde1 (physAddr f1 p.lin) p.len → ApartFromWalk s q.lin pde2 (physAddr f1 p.lin) p.len →
        ApartFromWalk s p.lin pde1 (physAddr f2 q.lin) q.len → ApartFromWalk s q.lin pde2 (physAddr f2 q.lin) q.len →
        v = physRead s.mem (physAddr f1 p.lin) p.len <<< (8 * p.pos) |||
          physRead s.mem (physAddr f2 q.lin) q.len <<< (8 * q.pos)) := by
  obtain ⟨f1, s1, hf1, t1, e1⟩ := translate_served O hr1
  obtain ⟨pde2', pte2', hr2', -, hf2⟩ := hr2.after hwf e1 hm hne
  obtain ⟨f2, s2, hff2, t2, e2⟩ := translate_served O hr2'
  have hff2 := hf2 f2 hff2
  have hp1' : populatedAt s1.platform (physAddr f1 p.lin) p.len = true := by
    rw [e1.control.regs.platform]; exact hp1 f1 hf1
  have hp1'' : populatedAt s2.platform (physAddr f1 p.lin) p.len = true := by
    rw [e2.control.regs.platform]; exact hp1'
  have hp2' : populatedAt s2.platform (physAddr f2 q.lin) q.len = true := by
    rw [e2.control.regs.platform, e1.control.regs.platform]; exact hp2 f2 hff2
  have w : ∀ a, translationMayWrite s1 q.lin a = translationMayWrite s q.lin a :=
    fun a => translationMayWrite_kept e1.control (e1.kept hm) q.lin a
  have m1 : ∀ pa n, ApartFromWalk s p.lin pde1 pa n → physRead s1.mem pa n = physRead s.mem pa n := fun pa n h =>
    physRead_congr fun a ha hb => e1.out a (mayWrite_of_apart hr1.2.1.1 h ha hb)
  have m2 : ∀ pa n, ApartFromWalk s q.lin pde2 pa n → physRead s2.mem pa n = physRead s1.mem pa n := fun pa n h =>
    physRead_congr fun a ha hb => e2.out a (by rw [w]; exact mayWrite_of_apart hr2.2.1.1 h ha hb)
  cases early with
  | true =>
    refine ⟨physRead s1.mem (physAddr f1 p.lin) p.len <<< (8 * p.pos) |||
      physRead s2.mem (physAddr f2 q.lin) q.len <<< (8 * q.pos), s2, f1, f2, ?_, e1.control.trans e2.control, hf1, hff2, ?_⟩
    · rw [accessOrdered, if_pos rfl, accessEarly, accessPart_load t1 hp1']
      simp only [Attempt.andThen]
      rw [accessPart_load t2 hp2']
    · intro h1 h2 h3 h4
      rw [m1 _ _ h1, m2 _ _ h4, m1 _ _ h3]
  | false =>
    refine ⟨physRead s2.mem (physAddr f1 p.lin) p.len <<< (8 * p.pos) |||
      physRead s2.mem (physAddr f2 q.lin) q.len <<< (8 * q.pos), s2, f1, f2, ?_, e1.control.trans e2.control, hf1, hff2, ?_⟩
    · rw [accessOrdered, if_neg (by decide), accessLate, show Transfer.load.acc = .read from rfl, t1]
      simp only [Attempt.andThen]
      rw [t2]
      simp only
      rw [transfer_done .load p hp1'']
      dsimp only
      rw [transfer_done .load q hp2']
    · intro h1 h2 h3 h4
      rw [m2 _ _ h2, m1 _ _ h1, m2 _ _ h4, m1 _ _ h3]

/-- How two parts of a store, both served and the first apart from the second's walk, complete: the translations `s1` and
`s2` leave, the state `u` between them, and the two stores. -/
theorem accessOrdered_store_served (O : Oracle) (early : Bool) {p q : Part} {s : State} (v : Word)
    {pde1 pte1 pde2 pte2 : PresentEntry}
    (hm : Memory.wf s.mem = true) (hwf : Tlb.wf s.tlb = true) (hne : vpnOf p.lin ≠ vpnOf q.lin)
    (hr1 : AccessServed s p.lin .write pde1 pte1) (hr2 : AccessServed s q.lin .write pde2 pte2)
    (hp1 : ∀ f, MayUseFrame s p.lin .write pte1 f → populatedAt s.platform (physAddr f p.lin) p.len = true)
    (hp2 : ∀ f, MayUseFrame s q.lin .write pte2 f → populatedAt s.platform (physAddr f q.lin) q.len = true)
    (ha : ∀ f, MayUseFrame s p.lin .write pte1 f → ApartFromWalk s q.lin pde2 (physAddr f p.lin) p.len) :
    ∃ f1 s1 u f2 s2 w t, MayUseFrame s p.lin .write pte1 f1 ∧ MayUseFrame s q.lin .write pte2 f2 ∧
      translate O p.lin .write s = .done (physAddr f1 p.lin) s1 ∧ TranslationEffect s s1 p.lin ∧
      (u = s1 ∨ u = s1.withMem (physWrite s1.mem (physAddr f1 p.lin) p.len (v >>> (8 * p.pos)))) ∧
      translate O q.lin .write u = .done (physAddr f2 q.lin) s2 ∧ TranslationEffect u s2 q.lin ∧
      (∀ a, translationMayWrite u q.lin a = translationMayWrite s q.lin a) ∧
      accessOrdered O early (.store v) p q s = .done w t ∧ SameControl s t ∧
      (t.mem = physWrite s2.mem (physAddr f2 q.lin) q.len (v >>> (8 * q.pos)) ∧
          u.mem = physWrite s1.mem (physAddr f1 p.lin) p.len (v >>> (8 * p.pos)) ∨
        t.mem = physWrite (physWrite s2.mem (physAddr f1 p.lin) p.len (v >>> (8 * p.pos))) (physAddr f2 q.lin) q.len
          (v >>> (8 * q.pos)) ∧ u.mem = s1.mem) := by
  obtain ⟨f1, s1, hf1, t1, e1⟩ := translate_served O hr1
  obtain ⟨pde2', pte2', hr2', g1, hf2⟩ := hr2.after hwf e1 hm hne
  have w : ∀ a, translationMayWrite s1 q.lin a = translationMayWrite s q.lin a :=
    fun a => translationMayWrite_kept e1.control (e1.kept hm) q.lin a
  have ap : ApartFromWalk s1 q.lin pde2' (physAddr f1 p.lin) p.len := by
    rw [ApartFromWalk, e1.control.regs.cr3, g1]; exact ha f1 hf1
  have hp1' : populatedAt s1.platform (physAddr f1 p.lin) p.len = true := by
    rw [e1.control.regs.platform]; exact hp1 f1 hf1
  cases early with
  | true =>
    obtain ⟨hr2'', w2⟩ := hr2'.store ap (v >>> (8 * p.pos))
    obtain ⟨f2, s2, hff2, t2, e2⟩ := translate_served O hr2''
    have hff2 := hf2 f2 hff2
    have hp2' : populatedAt s2.platform (physAddr f2 q.lin) q.len = true := by
      rw [e2.control.regs.platform]
      show populatedAt s1.platform _ _ = true
      rw [e1.control.regs.platform]; exact hp2 f2 hff2
    refine ⟨f1, s1, _, f2, s2, 0#32 ||| 0#32, s2.withMem (physWrite s2.mem (physAddr f2 q.lin) q.len (v >>> (8 * q.pos))),
      hf1, hff2, t1, e1, .inr rfl, t2, e2, fun a => (w2 a).trans (w a), ?_,
      (e1.control.trans (SameControl.withMem _ _)).trans (e2.control.trans (SameControl.withMem s2 _)), .inl ⟨rfl, rfl⟩⟩
    rw [accessOrdered, if_pos rfl, accessEarly, accessPart_store t1 hp1']
    simp only [Attempt.andThen]
    rw [accessPart_store t2 hp2']
  | false =>
    obtain ⟨f2, s2, hff2, t2, e2⟩ := translate_served O hr2'
    have hff2 := hf2 f2 hff2
    have hp1'' : populatedAt s2.platform (physAddr f1 p.lin) p.len = true := by
      rw [e2.control.regs.platform]; exact hp1'
    have hp2' : populatedAt s2.platform (physAddr f2 q.lin) q.len = true := by
      rw [e2.control.regs.platform, e1.control.regs.platform]; exact hp2 f2 hff2
    refine ⟨f1, s1, s1, f2, s2, 0#32 ||| 0#32,
      (s2.withMem (physWrite s2.mem (physAddr f1 p.lin) p.len (v >>> (8 * p.pos)))).withMem
        (physWrite (physWrite s2.mem (physAddr f1 p.lin) p.len (v >>> (8 * p.pos))) (physAddr f2 q.lin) q.len
          (v >>> (8 * q.pos))),
      hf1, hff2, t1, e1, .inl rfl, t2, e2, w, ?_,
      (e1.control.trans e2.control).trans ((SameControl.withMem s2 _).trans (SameControl.withMem _ _)), .inr ⟨rfl, rfl⟩⟩
    rw [accessOrdered, if_neg (by decide), accessLate, show (Transfer.store v).acc = .write from rfl, t1]
    simp only [Attempt.andThen]
    rw [t2]
    simp only
    rw [transfer_done (.store v) p hp1'']
    dsimp only
    rw [transfer_done (.store v) q (by simpa using hp2')]
    rfl

/-- What such a store leaves in memory, the parts lying apart from each other: their bytes, and every byte outside the
entries and the operand. -/
theorem accessOrdered_store_bytes (O : Oracle) (early : Bool) {p q : Part} {s : State} (v : Word)
    {pde1 pte1 pde2 pte2 : PresentEntry}
    (hm : Memory.wf s.mem = true) (hwf : Tlb.wf s.tlb = true) (hne : vpnOf p.lin ≠ vpnOf q.lin)
    (hr1 : AccessServed s p.lin .write pde1 pte1) (hr2 : AccessServed s q.lin .write pde2 pte2)
    (hp1 : ∀ f, MayUseFrame s p.lin .write pte1 f → populatedAt s.platform (physAddr f p.lin) p.len = true)
    (hp2 : ∀ f, MayUseFrame s q.lin .write pte2 f → populatedAt s.platform (physAddr f q.lin) q.len = true)
    (ha : ∀ f, MayUseFrame s p.lin .write pte1 f → ApartFromWalk s q.lin pde2 (physAddr f p.lin) p.len)
    (hd : ∀ f1 f2, (physAddr f1 p.lin).toNat + p.len ≤ (physAddr f2 q.lin).toNat ∨
      (physAddr f2 q.lin).toNat + q.len ≤ (physAddr f1 p.lin).toNat) :
    ∃ w t f1 f2, accessOrdered O early (.store v) p q s = .done w t ∧ SameControl s t ∧
      MayUseFrame s p.lin .write pte1 f1 ∧ MayUseFrame s q.lin .write pte2 f2 ∧
      (∀ k, k < p.len → Memory.read t.mem ((physAddr f1 p.lin).toNat + k) = (v >>> (8 * (p.pos + k))).setWidth 8) ∧
      (∀ k, k < q.len → Memory.read t.mem ((physAddr f2 q.lin).toNat + k) = (v >>> (8 * (q.pos + k))).setWidth 8) ∧
      ∀ a, translationMayWrite s p.lin a = false → translationMayWrite s q.lin a = false →
        (a < (physAddr f1 p.lin).toNat ∨ (physAddr f1 p.lin).toNat + p.len ≤ a) →
        (a < (physAddr f2 q.lin).toNat ∨ (physAddr f2 q.lin).toNat + q.len ≤ a) →
        Memory.read t.mem a = Memory.read s.mem a := by
  obtain ⟨f1, s1, u, f2, s2, w, t, hf1, hf2, t1, e1, hu, t2, e2, hw, hx, hc, hmem⟩ :=
    accessOrdered_store_served O early v hm hwf hne hr1 hr2 hp1 hp2 ha
  have sh : ∀ j k, (v >>> (8 * j)) >>> (8 * k) = v >>> (8 * (j + k)) := fun j k => by
    rw [← BitVec.shiftRight_add]; congr 1; omega
  have hd := hd f1 f2
  have m1 := e1.memWf hm
  have fit1 := populatedAt_fits (hp1 f1 hf1)
  have fit2 := populatedAt_fits (hp2 f2 hf2)
  have out2 : ∀ a, translationMayWrite s q.lin a = false → Memory.read s2.mem a = Memory.read u.mem a :=
    fun a h => e2.out a ((hw a).trans h)
  refine ⟨w, t, f1, f2, hx, hc, hf1, hf2, fun k hk => ?_, fun k hk => ?_, fun a h1 h2 h3 h4 => ?_⟩
  · have hin : translationMayWrite s q.lin ((physAddr f1 p.lin).toNat + k) = false :=
      mayWrite_of_apart hr2.2.1.1 (ha f1 hf1) (by omega) (by omega)
    rcases hmem with ⟨ht, hum⟩ | ⟨ht, hum⟩
    · rw [ht, physWrite, writeLE_read_out _ _ _ _ _ (by omega), out2 _ hin, hum, physWrite,
        writeLE_read_in m1 _ _ _ fit1 k hk, sh]
    · have m2 : Memory.wf s2.mem = true := e2.memWf (by rw [hum]; exact m1)
      rw [ht, physWrite, writeLE_read_out _ _ _ _ _ (by omega), physWrite, writeLE_read_in m2 _ _ _ fit1 k hk, sh]
  · rcases hmem with ⟨ht, hum⟩ | ⟨ht, hum⟩
    · have m2 : Memory.wf s2.mem = true := e2.memWf (by rw [hum]; exact physWrite_wf m1 _ _ _ fit1)
      rw [ht, physWrite, writeLE_read_in m2 _ _ _ fit2 k hk, sh]
    · have m2 : Memory.wf s2.mem = true := e2.memWf (by rw [hum]; exact m1)
      rw [ht, physWrite, writeLE_read_in (physWrite_wf m2 _ _ _ fit1) _ _ _ fit2 k hk, sh]
  · rcases hmem with ⟨ht, hum⟩ | ⟨ht, hum⟩
    · rw [ht, physWrite, writeLE_read_out _ _ _ _ _ h4, out2 _ h2, hum, physWrite, writeLE_read_out _ _ _ _ _ h3,
        e1.out _ h1]
    · rw [ht, physWrite, writeLE_read_out _ _ _ _ _ h4, physWrite, writeLE_read_out _ _ _ _ _ h3, out2 _ h2, hum,
        e1.out _ h1]

/-! ### Where completed operations leave a state -/

theorem SameRegisters.completed {s t : State} (h : SameRegisters s t) : SameRegisters s (completeOp t) :=
  h.trans (completeOp_regs t)

theorem SameRegisters.pushResult (t : State) (v : Word) : SameRegisters t (t.pushResult v) :=
  ⟨rfl, rfl, rfl, rfl, rfl, rfl⟩

theorem PlaceCompleted.ofControl {s t : State} (h : SameControl s t) : PlaceCompleted s (completeOp t) :=
  ⟨(completeOp_place h.index h.handlerQueue).1, (completeOp_place h.index h.handlerQueue).2,
    (completeOp_exception t).trans h.exception⟩

theorem PlaceCompleted.ofControlResult {s t : State} (h : SameControl s t) (v : Word) :
    PlaceCompleted s (completeOp (t.pushResult v)) :=
  ⟨(completeOp_place (t := t.pushResult v) h.index h.handlerQueue).1,
    (completeOp_place (t := t.pushResult v) h.index h.handlerQueue).2,
    (completeOp_exception _).trans h.exception⟩

end Sys2Proof.Machine
end

