-- ==== Sys2Proof/Laws/Step.lean ====
section
/-!
SUPPORT. What a privileged operation, a load of CR3, an instruction and a step can do where they answer a next state, said
once (spec/60_exceptions.md R147, spec/41_translation_cache.md R107, R108, spec/10_state.md R13).
-/

namespace Sys2Proof.Machine

theorem privileged_supervisor {s : State} (h : s.mode = .supervisor) (k : Host.Outcome State Fault Refusal) :
    privileged s k = k := by
  unfold privileged; rw [h]

theorem privileged_user {s : State} (h : s.mode = .user) (k : Host.Outcome State Fault Refusal) :
    privileged s k = .refused .privilegeNotInSource := by
  unfold privileged; rw [h]

theorem loadCr3_zero {v : Word} (h : v.extractLsb' 0 12 = 0#12) (k : Host.Outcome State Fault Refusal) :
    loadCr3 v k = k := if_pos h

theorem loadCr3_nonzero {v : Word} (h : v.extractLsb' 0 12 ≠ 0#12) (k : Host.Outcome State Fault Refusal) :
    loadCr3 v k = .refused .cr3LowBits := if_neg h

theorem dropLines_unknown (O : Oracle) {s : State} (h : s.tlb = .unknown) : dropLines O s = s := by
  unfold dropLines; rw [h]

theorem dropLines_known (O : Oracle) {s : State} {m : List TlbLine} (h : s.tlb = .known m) :
    dropLines O s = (s.withTlb (.known (keptLines (O s.drawIdx) m))).tick := by
  unfold dropLines; rw [h]

/-- A drop keeps everything but lines of the cache (41_translation_cache.md R103). -/
theorem dropLines_keeps (O : Oracle) (s : State) : AccessKeeps s (dropLines O s) := by
  unfold dropLines
  split
  · exact AccessKeeps.refl s
  · next m h => exact ⟨SameControl.dropOnce s _, fun hh => keptLines_wf _ (h ▸ hh), id⟩

/-- A step that answers a next state executed a well-formed operation. -/
theorem step_next {s t : State} (h : step s = .next t) :
    ∃ slot i, nextSlot s = some slot ∧ decodeCode slot.code = .ok i ∧ i.WellFormed ∧
      exec i (beforeOp Config.choose slot.mode s) = .next t := by
  unfold step at h
  split at h
  · cases h
  · next slot hs =>
    split at h
    · cases h
    · next i hi =>
      split at h
      · next hw => exact ⟨slot, i, hs, hi, hw, h⟩
      · cases h

theorem privileged_next {s t : State} {k : Host.Outcome State Fault Refusal} (h : privileged s k = .next t) :
    s.mode = .supervisor ∧ k = .next t := by
  unfold privileged at h
  split at h
  · next hm => exact ⟨hm, h⟩
  · cases h

theorem loadCr3_next {v : Word} {t : State} {k : Host.Outcome State Fault Refusal} (h : loadCr3 v k = .next t) :
    v.extractLsb' 0 12 = 0#12 ∧ k = .next t := by
  unfold loadCr3 at h
  split at h
  · next hm => exact ⟨hm, h⟩
  · cases h

theorem withLinear_next {lin : Option Word} {k : Word → Host.Outcome State Fault Refusal} {t : State}
    (h : withLinear lin k = .next t) : ∃ l, lin = some l ∧ k l = .next t := by
  cases lin with
  | none => cases h
  | some l => exact ⟨l, rfl, h⟩

/-- What a memory operation keeps, whether it completes or takes the exception: the registers, the canonical forms, and the
index but for completing. -/
structure OperationKeeps (s t : State) : Prop where
  regs : SameRegisters s t
  cacheWf : Tlb.wf s.tlb = true → Tlb.wf t.tlb = true
  memWf : Memory.wf s.mem = true → Memory.wf t.mem = true
  index : t.index = s.index ∨ t.index = (completeOp s).index

theorem finish_operationKeeps {r : Attempt Word} {k : Word → State → State} {s t : State} (h : finish r k = .next t)
    (hr : r.Ends (AccessKeeps s))
    (hk : ∀ a u, SameRegisters u (k a u) ∧ (k a u).tlb = u.tlb ∧ (k a u).mem = u.mem ∧ (k a u).index = u.index ∧
      (k a u).handlerQueue = u.handlerQueue) : OperationKeeps s t := by
  obtain ⟨h1, h2, h3⟩ := finish_keeps h hr fun a u => ⟨(hk a u).1, (hk a u).2.1, (hk a u).2.2.1⟩
  refine ⟨h1, h2, h3, ?_⟩
  obtain ⟨a, s', rfl, rfl⟩ | ⟨info, s', ops, rfl, rfl, -⟩ := finish_next h
  · have hr : AccessKeeps s s' := hr
    obtain ⟨-, -, -, hi, hq⟩ := hk a s'
    exact .inr (completeOp_place (hi.trans hr.control.index) (hq.trans hr.control.handlerQueue)).1
  · have hr : AccessKeeps s s' := hr
    exact .inl hr.control.index

theorem readLinear_keeps {O : Oracle} {lin : Word} {n : Nat} {s t : State} (h : readLinear O lin n s = .next t) :
    OperationKeeps s t :=
  finish_operationKeeps h (access_keeps O .load lin n s) fun _ _ => ⟨⟨rfl, rfl, rfl, rfl, rfl, rfl⟩, rfl, rfl, rfl, rfl⟩

theorem writeLinear_keeps {O : Oracle} {lin v : Word} {n : Nat} {s t : State} (h : writeLinear O lin n v s = .next t) :
    OperationKeeps s t :=
  finish_operationKeeps h (access_keeps O (.store v) lin n s) fun _ _ =>
    ⟨⟨rfl, rfl, rfl, rfl, rfl, rfl⟩, rfl, rfl, rfl, rfl⟩

/-- Everything an operation can do to the registers where it answers a next state. -/
theorem exec_next {i : Instr} {s t : State} (h : exec i s = .next t) :
    OperationKeeps s t ∨
    (s.mode = .supervisor ∧ ∃ b, i = (if b then .setPg else .clrPg) ∧ t = completeOp (s.withPg b)) ∨
    (∃ v, i = .loadEax v ∧ t = completeOp (s.withEax v)) ∨
    (s.mode = .supervisor ∧ (i = .movCr3Eax ∨ ∃ img, i = .taskSwitch img) ∧
      ∃ v, v.extractLsb' 0 12 = 0#12 ∧ (t = completeOp (flush (s.withCr3 v)) ∨ t = completeOp (s.withCr3 v))) := by
  cases i with
  | movCr3Eax =>
    obtain ⟨hm, h⟩ := privileged_next h
    obtain ⟨hv, h⟩ := loadCr3_next h
    cases h
    exact .inr (.inr (.inr ⟨hm, .inl rfl, _, hv, .inl rfl⟩))
  | taskSwitch img =>
    obtain ⟨hm, h⟩ := privileged_next h
    obtain ⟨hv, h⟩ := loadCr3_next h
    cases h
    refine .inr (.inr (.inr ⟨hm, .inr ⟨_, rfl⟩, _, hv, ?_⟩))
    split
    · exact .inl rfl
    · exact .inr rfl
  | setPg =>
    obtain ⟨hm, h⟩ := privileged_next h
    cases h
    exact .inr (.inl ⟨hm, true, rfl, rfl⟩)
  | clrPg =>
    obtain ⟨hm, h⟩ := privileged_next h
    cases h
    exact .inr (.inl ⟨hm, false, rfl, rfl⟩)
  | loadEax v => cases h; exact .inr (.inr (.inl ⟨v, rfl, rfl⟩))
  | read lin n => exact .inl (readLinear_keeps h)
  | fetch lin n => exact .inl (readLinear_keeps h)
  | write lin n v => exact .inl (writeLinear_keeps h)
  | logicalRead sel off n => obtain ⟨l, -, h⟩ := withLinear_next h; exact .inl (readLinear_keeps h)
  | logicalWrite sel off n v => obtain ⟨l, -, h⟩ := withLinear_next h; exact .inl (writeLinear_keeps h)

/-- An operation that was there to execute leaves the index within the list or just past it. -/
theorem nextSlot_index {s : State} {slot : Slot} (h : nextSlot s = some slot) (hi : s.index ≤ s.program.length) :
    (completeOp s).index ≤ s.program.length := by
  unfold nextSlot at h
  unfold completeOp
  split at h
  · next hq => rw [hq]; exact hi
  · next hq => rw [hq]; exact (List.getElem?_eq_some_iff.1 h).1

/-- The index after an operation: as it was, or as completing leaves it. -/
theorem exec_index {i : Instr} {s t : State} (h : exec i s = .next t) :
    t.index = s.index ∨ t.index = (completeOp s).index := by
  have pl : ∀ u : State, u.index = s.index → u.handlerQueue = s.handlerQueue →
      ((completeOp u).index = s.index ∨ (completeOp u).index = (completeOp s).index) :=
    fun u hi hq => .inr (completeOp_place hi hq).1
  obtain h | ⟨-, b, -, rfl⟩ | ⟨v, -, rfl⟩ | ⟨-, -, v, -, rfl | rfl⟩ := exec_next h
  · exact h.index
  all_goals exact pl _ rfl rfl

theorem exec_logicalRead {s : State} {sel : Selector} {off lin : Word} {n : Nat}
    (h : segTranslate s.platform sel off n .read s.mode = some lin) :
    exec (.logicalRead sel off n) s = exec (.read lin n) s := by
  show withLinear _ _ = _
  rw [h]; rfl

theorem exec_logicalWrite {s : State} {sel : Selector} {off lin v : Word} {n : Nat}
    (h : segTranslate s.platform sel off n .write s.mode = some lin) :
    exec (.logicalWrite sel off n v) s = exec (.write lin n v) s := by
  show withLinear _ _ = _
  rw [h]; rfl

theorem readLinear_done {O : Oracle} {lin : Word} {n : Nat} {s t : State} {v : Word}
    (h : access O .load lin n s = .done v t) : readLinear O lin n s = .next (completeOp (t.pushResult v)) := by
  rw [readLinear, h]; rfl

theorem writeLinear_done {O : Oracle} {lin v w : Word} {n : Nat} {s t : State}
    (h : access O (.store v) lin n s = .done w t) : writeLinear O lin n v s = .next (completeOp t) := by
  rw [writeLinear, h]; rfl

end Sys2Proof.Machine
end

