-- ==== Sys2Proof/Laws/Coherence.lean ====
section
/-!
SUPPORT. What keeps the cache in agreement with the tables in memory (spec/10_state.md R22, 41_translation_cache.md R102,
R103, R106).
-/

namespace Sys2Proof.Machine

theorem pageStart_fields (lin : Word) : (splitLinear (pageStart (vpnOf lin))).dir = (splitLinear lin).dir ∧
    (splitLinear (pageStart (vpnOf lin))).page = (splitLinear lin).page := by
  have key : ∀ i, 12 ≤ i → (pageStart (vpnOf lin)).getLsbD i = lin.getLsbD i := by
    intro i hi
    by_cases h32 : i < 32
    · simp only [pageStart, vpnOf, BitVec.getLsbD_append, BitVec.getLsbD_extractLsb']
      have h1 : ¬ i < 12 := by omega
      have h2 : i - 12 < 20 := by omega
      have h3 : 12 + (i - 12) = i := by omega
      simp [h1, h2, h3]
    · rw [BitVec.getLsbD_of_ge _ _ (by omega), BitVec.getLsbD_of_ge _ _ (by omega)]
  exact ⟨extract_congr fun i h _ => key i (by omega), extract_congr fun i h _ => key i (by omega)⟩

/-- The walk of an address reads what the walk of its page's first address reads. -/
theorem WalkReads.pageStart {s : State} {lin : Word} {pde pte : PresentEntry} :
    WalkReads s (pageStart (vpnOf lin)) pde pte ↔ WalkReads s lin pde pte := by
  have h := pageStart_fields lin
  simp only [WalkReads, pdeAddr, pteAddr, h.1, h.2]

/-- What translations may do to the tables (40_page_translation.md R84): the entries change in A and D at most, and D is
cleared in no entry outside the directory. -/
structure TablesKept (s t : State) : Prop where
  platform : t.platform = s.platform
  cr3 : t.cr3 = s.cr3
  entries : EntriesKept s.mem t.mem
  dirty : ∀ e : Word, e.toNat % 4 = 0 → e.extractLsb' 12 20 ≠ s.cr3.extractLsb' 12 20 →
    (physRead s.mem e 4).getLsbD 6 = true → (physRead t.mem e 4).getLsbD 6 = true

theorem TablesKept.ofSame {s t : State} (hp : t.platform = s.platform) (hc : t.cr3 = s.cr3) (hm : t.mem = s.mem) :
    TablesKept s t :=
  ⟨hp, hc, hm ▸ EntriesKept.refl _, fun _ _ _ h => hm ▸ h⟩

theorem TranslationEffect.tablesKept {s t : State} {lin : Word} (h : TranslationEffect s t lin)
    (hm : Memory.wf s.mem = true) : TablesKept s t :=
  ⟨h.control.regs.platform, h.control.regs.cr3, h.kept hm, fun e he hne hd =>
    h.dirty hm e he (fun h => hne (by rw [h, pdeAddr_frame])) hd⟩

theorem dirty_of_decode {w : Word} {e : PresentEntry} (h : decodeEntry w = .present e) : e.dirty = w.getLsbD 6 := by
  rw [(decodeEntry_present h).2.2.2]; rfl

/-- A line keeps agreeing where the tables change as translations change them. -/
theorem LineAgrees.kept {s t : State} {l : TlbLine} (h : LineAgrees s l) (hk : TablesKept s t) : LineAgrees t l := by
  obtain ⟨pde, pte, hr, a1, a2, e1, e2, e3, e4, e5, e6⟩ := h
  obtain ⟨pde', pte', hr', f1, u1, w1, f2, u2, w2, b1, b2, d⟩ := hr.kept hk.platform hk.cr3 hk.entries
  refine ⟨pde', pte', hr', b1 a1, b2 a2, e1.trans f2.symm, e2.trans u1.symm, e3.trans w1.symm, e4.trans u2.symm,
    e5.trans w2.symm, fun hne hd => ?_⟩
  rw [f1, hk.cr3] at hne
  rw [d]
  exact hk.dirty _ (pteAddr_aligned _ _) (by rwa [pteAddr_frame]) ((dirty_of_decode hr.2.2.2).symm.trans (e6 hne hd))

/-- The cache stays coherent where lines are lost and the tables change as translations change them. -/
theorem Coherent.kept {s t : State} (h : Coherent s) (hk : TablesKept s t)
    (hl : ∀ m', t.tlb = .known m' → ∃ m, s.tlb = .known m ∧ ∀ l ∈ m', l ∈ m) : Coherent t := by
  intro m' hm' l hlm
  obtain ⟨m, hm, hs⟩ := hl m' hm'
  exact (h m hm l (hs l hlm)).kept hk

theorem Coherent.congr {s t : State} (h : Coherent s) (hp : t.platform = s.platform) (hc : t.cr3 = s.cr3)
    (hm : t.mem = s.mem) (ht : t.tlb = s.tlb) : Coherent t :=
  h.kept (TablesKept.ofSame hp hc hm) fun m' h' => ⟨m', ht ▸ h', fun _ h => h⟩

theorem coherent_empty {s : State} (h : s.tlb = .known []) : Coherent s := by
  intro m hm l hl
  have : m = [] := by have := hm.symm.trans h; simpa using this
  subst this; cases hl

theorem Coherent.dropLines {s : State} (h : Coherent s) (O : Oracle) : Coherent (dropLines O s) := by
  cases hs : s.tlb with
  | unknown => rw [dropLines_unknown O hs]; exact h
  | known m =>
    rw [dropLines_known O hs]
    refine h.kept (TablesKept.ofSame rfl rfl rfl) fun m' hm' => ?_
    cases hm'
    exact ⟨m, hs, fun l hl => (mem_keptLines.1 hl).1⟩

/-- A translation keeps the cache coherent: the line a walk fills is the line of the entries it read. -/
theorem translate_coherent (O : Oracle) (lin : Word) (acc : Access) {s : State} (h : Coherent s)
    (hm : Memory.wf s.mem = true) : (translate O lin acc s).Ends Coherent := by
  have eff := translate_effect O lin acc s
  by_cases hpg : s.pg = true
  · cases htlb : s.tlb with
    | unknown => simp [translate, hpg, htlb, Attempt.Ends]
    | known m =>
      cases hres : translate O lin acc s with
      | refuse e => trivial
      | raise info t =>
        rw [hres] at eff
        obtain ⟨-, m1, hm1, -, -, -, ht, -⟩ := translate_raise hres
        refine h.kept (TranslationEffect.tablesKept eff hm) fun m' hm' => ?_
        rw [ht] at hm'; cases hm'
        exact ⟨m1, hm1, fun l hl => (mem_keptLines.1 hl).1⟩
      | done pa t =>
        rw [hres] at eff
        have eff : TranslationEffect s t lin := eff
        obtain ⟨l, -, -, e⟩ | e := translate_hit_or_walk O (lin := lin) (acc := acc) hpg htlb
        · rw [hres] at e
          unfold hit at e
          split at e
          · cases e
            refine h.kept (TablesKept.ofSame rfl rfl rfl) fun m' hm' => ?_
            cases hm'
            exact ⟨m, htlb, fun l hl => (mem_keptLines.1 hl).1⟩
          · cases e
        · rw [hres] at e
          obtain ⟨e', hh⟩ | ⟨a, hd, hh⟩ | ⟨pde, a, hd, ht, hh⟩ | ⟨pde, pte, hr, hh⟩ :=
            walk_cases (O (s.drawIdx + 1)) lin acc (droppedState O m s) <;> rw [hh] at e
          · cases e
          · cases e
          · cases e
          · have hr : WalkReads s lin pde pte := hr.congr rfl rfl rfl
            obtain ⟨-, a1, a2, a3⟩ := markUsed_update hm (pdeAddr_aligned s.cr3 lin) (pteAddr_aligned pde.frame lin)
              (decodeEntry_present hr.2.1).1 (O (s.drawIdx + 1)) acc (decodeEntry_present hr.2.2.2).1
            unfold walkEnd at e
            split at e
            · cases e
              obtain ⟨m', he, hl, -⟩ := fillLine_known (ch := O (s.drawIdx + 1)) (m := keptLines (O s.drawIdx) m)
                (mem := markUsed (O (s.drawIdx + 1)) s.mem (pdeAddr s.cr3 lin) (pteAddr pde.frame lin) acc)
                (pteAt := pteAddr pde.frame lin) (lin := lin) (acc := acc) (pde := pde) (pte := pte)
              intro m'' hm'' l hlm
              have : m'' = m' := by
                have := hm''.symm.trans he
                cases this; rfl
              subst this
              rcases hl l hlm with hk | rfl
              · exact (h m htlb l (mem_keptLines.1 hk).1).kept (eff.tablesKept hm)
              · obtain ⟨pde', pte', hr', f1, u1, w1, f2, u2, w2, -, -, d⟩ :=
                  hr.kept eff.control.regs.platform eff.control.regs.cr3 (eff.kept hm)
                refine ⟨pde', pte', WalkReads.pageStart.2 hr', ?_, ?_, f2.symm, u1.symm, w1.symm, u2.symm, w2.symm,
                  fun _ hd => ?_⟩
                · rw [(decodeEntry_present hr'.2.1).2.2.2]; exact a1
                · rw [(decodeEntry_present hr'.2.2.2).2.2.2, f1]; exact a2
                · rw [d]
                  simp only [filledD, Bool.or_eq_true, Bool.and_eq_true, beq_iff_eq] at hd
                  rcases hd with hw | ⟨⟨-, hb⟩, -⟩
                  · exact a3 hw
                  · exact hb
            · cases e
  · rw [translate_off O lin acc (by simpa using hpg)]
    exact h

/-! ### Memory operations -/

/-- A page's entries are where its first address says. -/
theorem walkHolds_pageStart (s : State) (lin : Word) (a : Nat) :
    walkHolds s (pageStart (vpnOf lin)) a = walkHolds s lin a := by
  have h := pageStart_fields lin
  simp only [walkHolds, pdeAddr, pteAddr, h.1, h.2]

/-- A store that touches no entry of a walk leaves the walk what it reads. -/
theorem entries_store {s : State} {lin : Word} {pa : Word} {n : Nat} (v : Word)
    (h : ∀ a, pa.toNat ≤ a → a < pa.toNat + n → walkHolds s lin a = false) :
    physRead (physWrite s.mem pa n v) (pdeAddr s.cr3 lin) 4 = physRead s.mem (pdeAddr s.cr3 lin) 4 ∧
    ∀ pde, decodeEntry (physRead s.mem (pdeAddr s.cr3 lin) 4) = .present pde →
      physRead (physWrite s.mem pa n v) (pteAddr pde.frame lin) 4 = physRead s.mem (pteAddr pde.frame lin) 4 := by
  constructor
  · refine physRead_congr fun a h1 h2 => writeLE_read_out _ _ _ _ _ ?_
    by_contra hc
    have hx := h a (by omega) (by omega)
    simp only [walkHolds, Bool.or_eq_false_iff] at hx
    rcases entryHolds_false hx.1 with hx | hx <;> omega
  · intro pde hd
    refine physRead_congr fun a h1 h2 => writeLE_read_out _ _ _ _ _ ?_
    by_contra hc
    have hx := h a (by omega) (by omega)
    simp only [walkHolds, hd, Bool.or_eq_false_iff] at hx
    rcases entryHolds_false hx.2 with hx | hx <;> omega

/-- What a memory operation on the pages `K` keeps: memory canonical, the cache coherent and its lines of pages in `K`, and
the entries of these pages where they were in the state `b` before. -/
structure SoundFor (K : Vpn → Prop) (b t : State) : Prop where
  memWf : Memory.wf t.mem = true
  coherent : Coherent t
  lines : ∀ m, CacheIs t m → ∀ l ∈ m, K l.vpn
  holds : ∀ v, K v → ∀ a, walkHolds t (pageStart v) a = walkHolds b (pageStart v) a

theorem translate_soundFor (O : Oracle) {lin : Word} (acc : Access) {K : Vpn → Prop} {b t : State} (h : SoundFor K b t)
    (hK : K (vpnOf lin)) : (translate O lin acc t).Ends (SoundFor K b) := by
  have key : ∀ u, TranslationEffect t u lin → Coherent u → SoundFor K b u := fun u e hc =>
    ⟨e.memWf h.memWf, hc, fun m hm l hl => by
      have hf := e.cacheFrom
      unfold CacheFrom at hf
      split at hf
      · have := hf.symm.trans hm; cases this
      · next m0 h0 =>
        obtain ⟨m', hm', hs⟩ := hf
        have : m' = m := by have := hm'.symm.trans hm; simpa using this
        subst this
        rcases hs l hl with hin | hv
        · exact h.lines m0 h0 l hin
        · exact hv ▸ hK,
      fun v hv a => (walkHolds_kept e.control.regs.cr3 (e.kept h.memWf) _ a).trans (h.holds v hv a)⟩
  have h1 := translate_coherent O lin acc h.coherent h.memWf
  have h2 := translate_effect O lin acc t
  revert h1 h2
  cases translate O lin acc t with
  | done a u => exact fun h1 h2 => key u h2 h1
  | raise i u => exact fun h1 h2 => key u h2 h1
  | refuse e => exact fun _ _ => trivial

/-- A store that touches no entry of the pages keeps the cache coherent. -/
theorem SoundFor.store {K : Vpn → Prop} {b t : State} (h : SoundFor K b t) {pa : Word} {n : Nat} (v : Word)
    (hf : pa.toNat + n ≤ spaceSize)
    (ha : ∀ a, pa.toNat ≤ a → a < pa.toNat + n → ∀ w, K w → walkHolds b (pageStart w) a = false) :
    SoundFor K b (t.withMem (physWrite t.mem pa n v)) := by
  have hx : ∀ w, K w → ∀ a, pa.toNat ≤ a → a < pa.toNat + n → walkHolds t (pageStart w) a = false :=
    fun w hw a h1 h2 => (h.holds w hw a).trans (ha a h1 h2 w hw)
  refine ⟨physWrite_wf h.memWf _ _ _ hf, fun m hm l hl => ?_, h.lines, fun w hw a => ?_⟩
  · obtain ⟨pde, pte, ⟨r1, r2, r3, r4⟩, hrest⟩ := h.coherent m hm l hl
    obtain ⟨e1, e2⟩ := entries_store v (hx l.vpn (h.lines m hm l hl))
    exact ⟨pde, pte, ⟨r1, by simpa [e1] using r2, r3, by simpa [e2 pde r2] using r4⟩, hrest⟩
  · rw [← h.holds w hw a]
    simp only [walkHolds, State.withMem_mem, State.withMem_cr3, (entries_store v (hx w hw)).1]

/-- Any page: for loads. -/
theorem SoundFor.all {s : State} (hm : Memory.wf s.mem = true) (h : Coherent s) : SoundFor (fun _ => True) s s :=
  ⟨hm, h, fun _ _ _ _ => trivial, fun _ _ _ => rfl⟩

/-- A load, whatever it comes to, keeps the cache coherent. -/
theorem access_load_coherent (O : Oracle) (lin : Word) (n : Nat) {s : State} (hm : Memory.wf s.mem = true)
    (h : Coherent s) : (access O .load lin n s).Ends Coherent :=
  (access_load_ends (P := SoundFor (fun _ => True) s) (SoundFor.all hm h)
    ⟨hm, h, fun _ _ _ _ => trivial, fun _ _ _ => rfl⟩
    fun _ _ hw _ => translate_soundFor O .read hw trivial).mono fun _ h => h.coherent

/-- The pages that a store and the cache of a state concern. -/
def Concerned (s : State) (lin : Word) (n : Nat) (v : Vpn) : Prop :=
  v = vpnOf lin ∨ (crossesPage lin n = true ∧ v = vpnOf (secondPart lin n).lin) ∨ ∃ m, CacheIs s m ∧ ∃ l ∈ m, l.vpn = v

theorem StoresApart.concerned {s : State} {lin v : Word} {n : Nat} (h : StoresApart s lin n v) {a : Nat}
    (ha : storesTo s lin n v a) {w : Vpn} (hw : Concerned s lin n w) : walkHolds s (pageStart w) a = false := by
  obtain ⟨h1, h2, h3⟩ := h a ha
  rcases hw with rfl | ⟨hc, rfl⟩ | ⟨m, hm, l, hl, rfl⟩
  · rw [walkHolds_pageStart]; exact h1
  · rw [walkHolds_pageStart]; exact h2 hc
  · exact h3 m hm l hl

/-- A store to no entry of the pages it and the cache concern, whatever it comes to, keeps the cache coherent. -/
theorem access_store_coherent {lin v : Word} {n : Nat} {s : State} (hm : Memory.wf s.mem = true) (h : Coherent s)
    (ha : StoresApart s lin n v) : (access Config.choose (.store v) lin n s).Ends Coherent := by
  have h0 : SoundFor (Concerned s lin n) s s :=
    ⟨hm, h, fun m hm' l hl => .inr (.inr ⟨m, hm', l, hl, rfl⟩), fun _ _ _ => rfl⟩
  have h0' : SoundFor (Concerned s lin n) s s.tick := ⟨hm, h, h0.lines, fun _ _ _ => rfl⟩
  suffices key : (access Config.choose (.store v) lin n s).Ends (SoundFor (Concerned s lin n) s) from
    key.mono fun _ h => h.coherent
  unfold access
  split
  · trivial
  · split
    · trivial
    · split
      · next hc =>
        have split : ∀ p q : Part, partsInOrder s lin n = (p, q) → Concerned s lin n (vpnOf p.lin) →
            Concerned s lin n (vpnOf q.lin) →
            (accessOrdered Config.choose (Config.choose s.drawIdx .transferEarly) (.store v) p q s.tick).Ends
              (SoundFor (Concerned s lin n) s) := fun p q hpq kp kq => by
          refine accessOrdered_store_ends (translate_soundFor _ _ h0' kp) (fun w hw => translate_soundFor _ _ hw kq)
            (fun pa u hx hf w hw => hw.store _ hf fun a h1 h2 x hk => ha.concerned ?_ hk)
            (fun pa u qa u' hx hy hf w hw => hw.store _ hf fun a h1 h2 x hk => ha.concerned ?_ hk)
          · simp only [storesTo, hc, if_true, hpq]
            exact ⟨pa, u, hx, .inl ⟨h1, h2⟩⟩
          · simp only [storesTo, hc, if_true, hpq]
            exact ⟨pa, u, hx, .inr ⟨qa, u', hy, h1, h2⟩⟩
        have k1 : Concerned s lin n (vpnOf (firstPart lin).lin) := .inl rfl
        have k2 : Concerned s lin n (vpnOf (secondPart lin n).lin) := .inr (.inl ⟨hc, rfl⟩)
        unfold accessSplit
        split
        · next hd => exact split _ _ (if_pos hd) k2 k1
        · next hd => exact split _ _ (if_neg hd) k1 k2
      · next hc =>
        have ht := translate_soundFor Config.choose (lin := lin) .write h0 (.inl rfl)
        unfold accessPart
        rw [show (Transfer.store v).acc = .write from rfl]
        cases hx : translate Config.choose lin .write s with
        | refuse e => trivial
        | raise i u => rw [hx] at ht; exact ht
        | done pa u =>
          rw [hx] at ht
          have ht : SoundFor (Concerned s lin n) s u := ht
          simp only [Attempt.andThen]
          obtain h' | ⟨hpop, ⟨hy, -⟩ | ⟨v', hy, h'⟩⟩ := transfer_cases (.store v) ⟨lin, n, 0⟩ pa u
          · rw [h']; trivial
          · cases hy
          · cases hy
            rw [h']
            refine ht.store _ (populatedAt_fits hpop) fun a h1 h2 x hk => ha.concerned ?_ hk
            simp only [storesTo, hc]
            exact ⟨pa, u, hx, h1, h2⟩

/-- A memory operation whose access keeps the cache coherent keeps it, completed or taking the exception. -/
theorem finish_coherent {r : Attempt Word} {k : Word → State → State} {t : State} (hr : r.Ends Coherent)
    (hk : ∀ a u, (k a u).platform = u.platform ∧ (k a u).cr3 = u.cr3 ∧ (k a u).mem = u.mem ∧ (k a u).tlb = u.tlb)
    (h : finish r k = .next t) : Coherent t := by
  obtain ⟨a, s', rfl, rfl⟩ | ⟨info, s', ops, rfl, rfl, -⟩ := finish_next h
  · obtain ⟨h1, h2, h3, h4⟩ := hk a s'
    exact Coherent.congr (s := s') hr (by simp [h1]) (by simp [h2]) (by simp [h3]) (by simp [h4])
  · exact Coherent.congr (s := s') hr rfl rfl rfl rfl

end Sys2Proof.Machine
end

