-- ==== Sys2Proof/Laws/PerInstr.lean ====
section
/-!
SUPPORT. Statements for every operation, one lemma per constructor. `Encoding`: the code of a well-formed operation decodes
to it (spec/30_encoding.md R58, R59).
-/

namespace Sys2Proof.Laws.Encoding

/-- The code of the operation, where it is well formed, decodes to it. -/
def Statement (i : Instr) : Prop := i.WellFormed → decodeCode (encodeCode i) = .ok i

theorem movCr3Eax : Statement .movCr3Eax := fun _ => by decide
theorem read (lin : Word) (n : Nat) : Statement (.read lin n) := fun _ => rfl
theorem write (lin : Word) (n : Nat) (v : Word) : Statement (.write lin n v) := fun _ => rfl
theorem fetch (lin : Word) (n : Nat) : Statement (.fetch lin n) := fun _ => rfl
theorem setPg : Statement .setPg := fun _ => rfl
theorem clrPg : Statement .clrPg := fun _ => rfl
theorem loadEax (v : Word) : Statement (.loadEax v) := fun _ => rfl
theorem taskSwitch (img : Word) : Statement (.taskSwitch img) := fun _ => rfl
theorem logicalRead (sel : Selector) (off : Word) (n : Nat) : Statement (.logicalRead sel off n) := fun _ => rfl
theorem logicalWrite (sel : Selector) (off : Word) (n : Nat) (v : Word) : Statement (.logicalWrite sel off n v) :=
  fun _ => rfl

end Sys2Proof.Laws.Encoding
end

