-- ==== Sys2Proof/Tests/Slice0.lean ====
section
/-!
SUPPORT. Tests, with results from the tables of the spec (spec/95_test_vectors.md, by number), the checks that
well-formedness makes, and for each statement with hypotheses a witness that meets them.
-/

namespace Sys2Proof.Machine.Tests

set_option Elab.async false

/-! ### Well-formedness (20_memory.md R34, 40_page_translation.md R86) -/

theorem test_wf_read_size : ¬ (Instr.read 0#32 3).WellFormed := by decide
theorem test_wf_fetch_size : ¬ (Instr.fetch 0#32 0).WellFormed := by decide
theorem test_wf_write_size : ¬ (Instr.write 0#32 8 0#32).WellFormed := by decide
theorem test_wf_write_value : ¬ (Instr.write 0#32 1 0x100#32).WellFormed := by decide
theorem test_wf_logicalRead_size : ¬ (Instr.logicalRead 0#16 0#32 3).WellFormed := by decide
theorem test_wf_logicalWrite_size : ¬ (Instr.logicalWrite 0#16 0#32 5 0#32).WellFormed := by decide
theorem test_wf_logicalWrite_value : ¬ (Instr.logicalWrite 0#16 0#32 2 0x10000#32).WellFormed := by decide

/-! ### Decoding (30_encoding.md R58, R59; vectors 2.1 to 2.4) -/

/-- `0F 22 D8`, bit by bit from R59: 00001111 00100010 11 011 000. -/
theorem test_decode_movCr3Eax :
    decodeCode (.bytes [0b00001111#8, 0b00100010#8, 0b11011000#8]) = .ok .movCr3Eax := by decide

theorem test_decode_tableWord : decodeTableWord 24 0b000011110010001011011000 = some .movCr3Eax := by decide

theorem test_decode_trailing : decodeCode (.bytes [0x0F#8, 0x22#8, 0xD8#8, 0x90#8]) = .error .trailingBytes := by decide

/-- `MOV CR0, EAX` (0F 22 C0) is no operation of the model: the abstract SET_PG is not these bytes (93 G4). -/
theorem test_decode_movCr0 : decodeCode (.bytes [0x0F#8, 0x22#8, 0xC0#8]) = .error .noEncoding := by decide

theorem test_decode_read : decodeCode (.op (.read 0x403ABC#32 1)) = .ok (.read 0x403ABC#32 1) := by decide
theorem test_decode_write : decodeCode (.op (.write 0#32 1 0x5A#32)) = .ok (.write 0#32 1 0x5A#32) := by decide
theorem test_decode_fetch : decodeCode (.op (.fetch 1#32 4)) = .ok (.fetch 1#32 4) := by decide
theorem test_decode_setPg : decodeCode (.op .setPg) = .ok .setPg := by decide
theorem test_decode_clrPg : decodeCode (.op .clrPg) = .ok .clrPg := by decide
theorem test_decode_loadEax : decodeCode (.op (.loadEax 0x1000#32)) = .ok (.loadEax 0x1000#32) := by decide
theorem test_decode_taskSwitch : decodeCode (.op (.taskSwitch 0x8000#32)) = .ok (.taskSwitch 0x8000#32) := by decide
theorem test_decode_logicalRead : decodeCode (.op (.logicalRead 8#16 4#32 2)) = .ok (.logicalRead 8#16 4#32 2) := by decide
theorem test_decode_logicalWrite :
    decodeCode (.op (.logicalWrite 8#16 4#32 2 1#32)) = .ok (.logicalWrite 8#16 4#32 2 1#32) := by decide

/-- Vectors 2.1. -/
theorem test_linear_split :
    splitLinear 0x403ABC#32 = ⟨1#10, 3#10, 0xABC#12⟩ ∧ splitLinear 0xC0DEF00D#32 = ⟨0x303#10, 0x1EF#10, 0x00D#12⟩ ∧
      splitLinear 0x12345678#32 = ⟨0x048#10, 0x345#10, 0x678#12⟩ ∧ vpnOf 0x80000FFF#32 = 0x80000#20 := by decide

/-- Vectors 2.2. -/
theorem test_addresses :
    pdeAddr 0x7FFFF000#32 0x12345678#32 = 0x7FFFF120#32 ∧ pteAddr 0x0ABCD#20 0x12345678#32 = 0x0ABCDD14#32 ∧
      physAddr 0x00000#20 0x12345678#32 = 0x00000678#32 ∧ pdeAddr 0x100000#32 0xFFFFFFFF#32 = 0x100FFC#32 := by decide

/-- Vectors 2.3. -/
theorem test_entries :
    decodeEntry 0x00055067#32 = .present ⟨0x00055#20, 0#3, true, true, true, true⟩ ∧
      decodeEntry 0xFFFFFE01#32 = .present ⟨0xFFFFF#20, 7#3, false, false, false, false⟩ ∧
      decodeEntry 0x00000E00#32 = .notPresent 0x700#31 ∧
      decodeEntry 0x00055087#32 = .reserved (0x00055087#32 >>> 1 |>.setWidth 31) ∧
      decodeEntry 0x0005500F#32 = .reserved (0x0005500F#32 >>> 1 |>.setWidth 31) := by decide

/-- Vector 2.4: the least significant byte is at the lowest address. -/
theorem test_byte_layout :
    Memory.read (physWrite [] 0x200C#32 4 0x00055067#32) 0x200C = 0x67#8 ∧
      Memory.read (physWrite [] 0x200C#32 4 0x00055067#32) 0x200D = 0x50#8 ∧
      Memory.read (physWrite [] 0x200C#32 4 0x00055067#32) 0x200E = 0x05#8 := by decide

/-! ### The start state of the vectors -/

/-- Memory of S0 (2.5): PDE 1, PTE 3 of its table, and data in frame 00055. -/
def mem0 : Memory :=
  [⟨0x1004, 0x07#8⟩, ⟨0x1005, 0x20#8⟩, ⟨0x200C, 0x07#8⟩, ⟨0x200D, 0x50#8⟩, ⟨0x200E, 0x05#8⟩,
   ⟨0x55ABC, 0x11#8⟩, ⟨0x55ABD, 0x22#8⟩, ⟨0x55ABE, 0x33#8⟩, ⟨0x55ABF, 0x44#8⟩]

/-- S0 of 2.5. -/
def s0 : State := { State.reset with pg := true, cr3 := 0x1000#32, tlb := .known [], mem := mem0 }

/-- A state with another word in memory. -/
def put (s : State) (a v : Word) : State := s.withMem (physWrite s.mem a 4 v)

/-- S0 with page 00404 mapped to frame 00077 (V40). -/
def s40 : State := put s0 0x2010#32 0x77007#32

/-- The line of V1. -/
def line1 : TlbLine := ⟨0x403#20, 0x55#20, true, true, true, true, false⟩

/-- S0 with the cache holding these lines. -/
def s0with (ls : List TlbLine) : State := { s0 with tlb := .known ls }

/-- Draws: nothing is kept, filled or set. -/
def no : Oracle := fun _ _ => false

/-- Draws: the cache keeps and fills. -/
def keep : Oracle := fun _ c => match c with
  | .keepLine _ => true
  | .fill => true
  | .pdeBit6 => false
  | .pdeAccessed => false
  | .pteAccessed => false
  | .fillDirty => false
  | .secondPartFirst => false
  | .transferEarly => false

/-- The next state of an operation that answers one. -/
def nextOf (r : Host.Outcome State Fault Refusal) : Option State :=
  match r with
  | .next t => some t
  | .fault _ => none
  | .refused _ => none

/-- The record of the page exception an operation stops with. -/
def faultOf (r : Host.Outcome State Fault Refusal) : Option PageInfo :=
  match r with
  | .next _ => none
  | .fault (.pageException info _) => some info
  | .refused _ => none

/-- Why an operation is refused. -/
def refusalOf (r : Host.Outcome State Fault Refusal) : Option Refusal :=
  match r with
  | .next _ => none
  | .fault _ => none
  | .refused e => some e

/-- The results, a word of memory and the cache after an operation that completes. -/
def results (r : Host.Outcome State Fault Refusal) : Option (List Word) := (nextOf r).map (·.results)
def word (r : Host.Outcome State Fault Refusal) (a : Word) : Option Word := (nextOf r).map fun t => physRead t.mem a 4
def cache (r : Host.Outcome State Fault Refusal) : Option Tlb := (nextOf r).map (·.tlb)

/-- The state after a translation that gives an address. -/
def translateState (O : Oracle) (lin : Word) (acc : Access) (s : State) : Option State :=
  match translate O lin acc s with
  | .done _ t => some t
  | .raise _ _ => none
  | .refuse _ => none

/-! ### Operations (the operation with the draws named) -/

/-- V1. -/
theorem test_read_walks : results (readLinear keep 0x403ABC#32 1 s0) = some [0x11#32] ∧
    word (readLinear keep 0x403ABC#32 1 s0) 0x1004#32 = some 0x2027#32 ∧
    word (readLinear keep 0x403ABC#32 1 s0) 0x200C#32 = some 0x55027#32 ∧
    cache (readLinear keep 0x403ABC#32 1 s0) = some (.known [line1]) := by decide +kernel

/-- V10. -/
theorem test_read_paging_off :
    results (execRead 0x403ABC#32 1 { s0 with pg := false, mem := [⟨0x403ABC, 0x77#8⟩] }) = some [0x77#32] := by
  decide +kernel

/-- V3. -/
theorem test_write_walks : word (writeLinear keep 0x403ABC#32 1 0x5A#32 s0) 0x55ABC#32 = some 0x4433225A#32 ∧
    word (writeLinear keep 0x403ABC#32 1 0x5A#32 s0) 0x200C#32 = some 0x55067#32 ∧
    cache (writeLinear keep 0x403ABC#32 1 0x5A#32 s0) =
      some (.known [⟨0x403#20, 0x55#20, true, true, true, true, true⟩]) := by decide +kernel

/-- V40: DD, CC at 00055FFE and BB, AA at 00077000; A and D of both PTEs. -/
theorem test_write_across : word (writeLinear no 0x403FFE#32 4 0xAABBCCDD#32 s40) 0x55FFC#32 = some 0xCCDD0000#32 ∧
    word (writeLinear no 0x403FFE#32 4 0xAABBCCDD#32 s40) 0x77000#32 = some 0xAABB#32 ∧
    word (writeLinear no 0x403FFE#32 4 0xAABBCCDD#32 s40) 0x200C#32 = some 0x55067#32 ∧
    word (writeLinear no 0x403FFE#32 4 0xAABBCCDD#32 s40) 0x2010#32 = some 0x77067#32 := by decide +kernel

/-- V41, in the order (2, 1): nothing is written for part 1. -/
theorem test_write_across_raises :
    faultOf (writeLinear (fun _ c => c == .secondPartFirst) 0x403FFE#32 4 0xAABBCCDD#32 s0) =
      some ⟨0x404000#32, .write, .supervisor, .notPresent, .table⟩ := by decide +kernel

/-- V13: the top of the linear space. -/
theorem test_fetch_top : results (readLinear no 0xFFFFFFFF#32 1 (put (put (put
    { s0 with cr3 := 0x100000#32, mem := [] } 0x100FFC#32 0xFFF007#32) 0xFFFFFC#32 0xABC007#32) 0xABCFFC#32 0x99000000#32)) =
      some [0x99#32] := by decide +kernel

theorem test_fetch_size : refusalOf (execFetch 0#32 3 s0) = some .sizeNotAdmitted := by decide +kernel

/-- R71: only PG changes. -/
theorem test_setPg : nextOf (execSetPg State.reset) = some { State.reset with pg := true, index := 1 } := by decide +kernel

/-- R72, D25: the cache keeps its lines. -/
theorem test_clrPg : cache (execClrPg (s0with [line1])) = some (.known [line1]) := by decide +kernel

theorem test_loadEax : nextOf (execLoadEax 0x1234#32 State.reset) = some { State.reset with eax := 0x1234#32, index := 1 } := by
  decide +kernel

/-- V57. -/
theorem test_movCr3Eax : nextOf (execMovCr3Eax { State.reset with eax := 0x1000#32 }) =
    some { State.reset with eax := 0x1000#32, cr3 := 0x1000#32, tlb := .known [], index := 1 } := by decide +kernel

/-- V53. -/
theorem test_movCr3Eax_lowBits : refusalOf (execMovCr3Eax { State.reset with eax := 0x1234#32 }) = some .cr3LowBits := by
  decide +kernel

/-- V55. -/
theorem test_taskSwitch : cache (execTaskSwitch 0x8000#32 (s0with [line1])) = some (.known []) := by decide +kernel

/-- V56. -/
theorem test_taskSwitch_same : cache (execTaskSwitch 0x1000#32 (s0with [line1])) = some (.known [line1]) := by
  decide +kernel

/-- V60: base 00400000. -/
theorem test_logicalRead : segTranslate { State.reset.platform with segments := [⟨0#16, 8#16, 0x400000#32, .always⟩] }
    8#16 0x3ABC#32 1 .read .supervisor = some 0x403ABC#32 := by decide +kernel

/-- V63 modulo 2^32, with PG = 0. -/
theorem test_logicalWrite : word (execLogicalWrite 8#16 0x1000#32 1 0x5A#32
    { State.reset with platform := { Platform.reset with segments := [⟨0#16, 8#16, 0xFFFFF000#32, .always⟩] } }) 0#32 =
      some 0x5A#32 := by decide +kernel

/-! ### Translation -/

/-- V6, V7, V11, V12: the level at which a page is found not present. -/
theorem test_raise_notPresent :
    faultOf (readLinear no 0x403ABC#32 1 (put s0 0x1004#32 0xFFFFFFFE#32)) =
      some ⟨0x403ABC#32, .read, .supervisor, .notPresent, .directory⟩ ∧
    faultOf (writeLinear no 0x403ABC#32 1 1#32 (put s0 0x200C#32 0x55006#32)) =
      some ⟨0x403ABC#32, .write, .supervisor, .notPresent, .table⟩ := by decide +kernel

/-- V8, V9, V15. -/
theorem test_refused_walks :
    refusalOf (readLinear no 0x403ABC#32 1 (put s0 0x200C#32 0x55087#32)) = some .reservedBitSet ∧
    refusalOf (readLinear no 0x403ABC#32 1 (put s0 0x1004#32 0x200F#32)) = some .reservedBitSet ∧
    refusalOf (readLinear no 0x403ABC#32 1 { s0 with tlb := .unknown }) = some .tlbUnknown := by decide +kernel

/-- V27. -/
theorem test_raise_protection :
    faultOf (writeLinear no 0x403ABC#32 1 1#32 { put s0 0x200C#32 0x55005#32 with mode := .user }) =
      some ⟨0x403ABC#32, .write, .user, .protection, .table⟩ ∧
    results (readLinear no 0x403ABC#32 1 { put s0 0x200C#32 0x55005#32 with mode := .user }) = some [0x11#32] := by
  decide +kernel

/-- V32, V33: a directory that names itself; the walk's update comes before the operand. -/
theorem test_self_map :
    results (readLinear no 0xFFFFFFFC#32 4 (put s0 0x1FFC#32 0x1003#32)) = some [0x1023#32] ∧
    word (writeLinear no 0xFFFFFFFC#32 4 0x1003#32 (put s0 0x1FFC#32 0x1003#32)) 0x1FFC#32 = some 0x1003#32 ∧
    ((translateState no 0xFFFFFFFC#32 .write (put s0 0x1FFC#32 0x1003#32)).map fun t => physRead t.mem 0x1FFC#32 4) =
      some 0x1063#32 := by decide +kernel

/-- V4: a line with d = 0 does not serve a write. -/
theorem test_write_clean_line :
    word (writeLinear keep 0x403ABC#32 2 0xBEEF#32 (s0with [line1])) 0x200C#32 = some 0x55067#32 := by decide +kernel

/-- V50, V51: a stale line, kept and dropped; V58: a write through a line with `d = 1` whose PTE has D = 0. -/
theorem test_stale_line :
    results (readLinear keep 0x403ABC#32 1 (put (s0with [line1]) 0x200C#32 0x66007#32)) = some [0x11#32] ∧
    results (readLinear no 0x403ABC#32 1 (put (put (s0with [line1]) 0x200C#32 0x66007#32) 0x66ABC#32 0x66#32)) =
      some [0x66#32] ∧
    word (writeLinear keep 0x403ABC#32 1 0xBB#32 (put (s0with [{ line1 with d := true }]) 0x200C#32 0x55027#32)) 0x200C#32 =
      some 0x55027#32 ∧
    word (writeLinear no 0x403ABC#32 1 0xBB#32 (put (s0with [{ line1 with d := true }]) 0x200C#32 0x55027#32)) 0x200C#32 =
      some 0x55067#32 := by
  decide +kernel

/-! ### Witnesses: for each statement, states and operands that meet its hypotheses, clause by clause -/

/-- The entries of the walk of page 00403 in S0. -/
def pde0 : PresentEntry := ⟨0x00002#20, 0#3, false, false, true, true⟩
def pte0 : PresentEntry := ⟨0x00055#20, 0#3, false, false, true, true⟩
/-- The PTE of page 00404 in `s40`. -/
def pte40 : PresentEntry := ⟨0x00077#20, 0#3, false, false, true, true⟩
/-- The directory that names itself (2.7). -/
def sSelf : State := put s0 0x1FFC#32 0x1003#32
def pdeSelf : PresentEntry := ⟨0x00001#20, 0#3, false, false, false, true⟩
/-- S0 with this program. -/
def s0run (ops : List Slot) (s : State) : State := { s with program := ops }
/-- A handler for page 00404 not present, and the record it is for. -/
def info0 : PageInfo := ⟨0x404000#32, .read, .supervisor, .notPresent, .table⟩
def sHandled : State := { s0 with platform := { Platform.reset with handler := [⟨info0, [.op .setPg]⟩] } }

theorem witness_EncodedOperationsDecode :
    (Instr.write 0xFFFFFFFC#32 4 0xFFFFFFFF#32).WellFormed ∧ (Instr.logicalWrite 8#16 0#32 2 0xFFFF#32).WellFormed ∧
      Instr.movCr3Eax.WellFormed ∧ (Instr.read 0#32 1).WellFormed ∧ (Instr.fetch 0#32 2).WellFormed := by decide

theorem witness_EntryFormatsAgree : (EntryView.notPresent 0x7FFFFFFF#31).wellFormed = true ∧
    (EntryView.reserved 0x2AA43#31).wellFormed = true ∧ (EntryView.present pte0).wellFormed = true := by decide

theorem witness_PresentEntryFields : (0xFFFFFE67#32).getLsbD 0 = true ∧ (0xFFFFFE67#32).extractLsb' 3 2 = 0#2 ∧
    (0xFFFFFE67#32).extractLsb' 7 2 = 0#2 := by decide

theorem witness_StoredValueReadsBack :
    Memory.wf mem0 = true ∧ 0xFFFFFFFC + 4 ≤ spaceSize ∧ 4 ≤ 4 ∧ 3 < 4 := by decide +kernel

theorem witness_StoreKeepsOtherBytesAndForm :
    (0x54FFF < 0x55000 ∨ 0x55000 + 4 ≤ 0x54FFF) ∧ (0x55004 < 0x55000 ∨ 0x55000 + 4 ≤ 0x55004) ∧
      Memory.wf mem0 = true ∧ 0xFFFFFFFC + 4 ≤ spaceSize := by decide +kernel

theorem witness_StepKeepsInvariant :
    ∃ t, (s0run [⟨.supervisor, .op .clrPg⟩] s0).Inv ∧ step (s0run [⟨.supervisor, .op .clrPg⟩] s0) = .next t :=
  ⟨_, by decide +kernel, rfl⟩

theorem witness_ProgramAndParametersNeverChange : ∃ t, step (s0run [⟨.user, .op (.loadEax 1#32)⟩] s0) = .next t :=
  ⟨_, rfl⟩

theorem witness_ControlRegisters_pg : ∃ t, nextSlot (s0run [⟨.supervisor, .op .clrPg⟩] s0) = some ⟨.supervisor, .op .clrPg⟩ ∧
    decodeCode (.op .clrPg) = .ok .clrPg ∧ step (s0run [⟨.supervisor, .op .clrPg⟩] s0) = .next t ∧ t.pg ≠ s0.pg :=
  ⟨_, rfl, rfl, rfl, by decide⟩

theorem witness_ControlRegisters_cr3 : ∃ t,
    nextSlot (s0run [⟨.supervisor, .bytes [0x0F#8, 0x22#8, 0xD8#8]⟩] s0) =
      some ⟨.supervisor, .bytes [0x0F#8, 0x22#8, 0xD8#8]⟩ ∧
    decodeCode (.bytes [0x0F#8, 0x22#8, 0xD8#8]) = .ok .movCr3Eax ∧
    step (s0run [⟨.supervisor, .bytes [0x0F#8, 0x22#8, 0xD8#8]⟩] s0) = .next t ∧ t.cr3 ≠ s0.cr3 :=
  ⟨_, rfl, rfl, rfl, by decide +kernel⟩

theorem witness_ControlRegisters_eax : ∃ t, nextSlot (s0run [⟨.user, .op (.loadEax 1#32)⟩] s0) =
      some ⟨.user, .op (.loadEax 1#32)⟩ ∧ decodeCode (.op (.loadEax 1#32)) = .ok (.loadEax 1#32) ∧
    step (s0run [⟨.user, .op (.loadEax 1#32)⟩] s0) = .next t ∧ t.eax ≠ s0.eax :=
  ⟨_, rfl, rfl, rfl, by decide⟩

theorem witness_StepRunsTheDecodedOperation_unknown :
    nextSlot (s0run [⟨.user, .op (.read 0#32 4)⟩] State.reset) = some ⟨.user, .op (.read 0#32 4)⟩ ∧
    decodeCode (.op (.read 0#32 4)) = .ok (.read 0#32 4) ∧ (Instr.read 0#32 4).WellFormed ∧
      State.reset.tlb = .unknown := ⟨rfl, rfl, by decide, rfl⟩

theorem witness_StepRunsTheDecodedOperation_known :
    nextSlot { s0with [line1] with handlerQueue := [.op .setPg] } = some ⟨.supervisor, .op .setPg⟩ ∧
    decodeCode (.op .setPg) = .ok .setPg ∧ Instr.setPg.WellFormed ∧ CacheIs (s0with [line1]) [line1] :=
  ⟨rfl, rfl, by decide, rfl⟩

theorem witness_NextOperation : ({ s0 with handlerQueue := [.op .setPg] } : State).handlerQueue = .op .setPg :: [] ∧
    s0.handlerQueue = [] ∧ s0.program.length ≤ s0.index := by decide

theorem witness_CompletionAdvances : s0.handlerQueue = [] ∧
    ({ s0 with handlerQueue := [.op .setPg, .op .clrPg] } : State).handlerQueue = .op .setPg :: [.op .clrPg] := by decide

theorem witness_PgOperationsComplete : s0.mode = .supervisor := rfl

theorem witness_MovCr3Eax : ({ s0 with eax := 0xFFFFF000#32 } : State).mode = .supervisor ∧
    ({ s0 with eax := 0xFFFFF000#32 } : State).eax.extractLsb' 0 12 = 0#12 := by decide

theorem witness_TaskSwitch : s0.mode = .supervisor ∧ (0xFFFFF000#32).extractLsb' 0 12 = 0#12 ∧ 0xFFFFF000#32 ≠ s0.cr3 ∧
    (0x1000#32).extractLsb' 0 12 = 0#12 ∧ 0x1000#32 = s0.cr3 := by decide

theorem witness_PrivilegedOperations : ({ s0 with mode := .user } : State).mode = .user := rfl

theorem witness_Cr3LowBits : s0.mode = .supervisor ∧ (0x00000001#32).extractLsb' 0 12 ≠ 0#12 ∧
    (0xFFFFFFFF#32).extractLsb' 0 12 ≠ 0#12 := by decide

theorem witness_PagingOffIsIdentity : State.reset.pg = false := rfl

/-- S0 in User mode with a line for supervisors only. -/
def sLine (mode : Mode) : State := { s0with [{ line1 with usT := false }] with mode := mode }

theorem witness_HitUsesTheLineAlone (mode : Mode) : (sLine mode).pg = true ∧
    CacheIs (sLine mode) [{ line1 with usT := false }] ∧
    hitLine 0x403FFF#32 .read [{ line1 with usT := false }] = some { line1 with usT := false } ∧
    keep (sLine mode).drawIdx (.keepLine (vpnOf 0x403FFF#32)) = true ∧
    linePermits (sLine mode).platform { line1 with usT := false } .read (sLine mode).mode = (mode == .supervisor) := by
  cases mode <;> decide +kernel

theorem witness_CachedProtectionRaises : (sLine .user).pg = true ∧
    CacheIs (sLine .user) [{ line1 with usT := false }] ∧
    hitLine 0x403000#32 .read [{ line1 with usT := false }] = some { line1 with usT := false } ∧
    keep (sLine .user).drawIdx (.keepLine (vpnOf 0x403000#32)) = true ∧
    protPermits (sLine .user).platform.pageProt ⟨true, true, false, true, .read, (sLine .user).mode⟩ = false := by
  decide +kernel

theorem witness_WriteToCleanLineMisses : (s0with [line1]).pg = true ∧ CacheIs (s0with [line1]) [line1] ∧
    lookupLine (vpnOf 0x403ABC#32) [line1] = some line1 ∧ line1.d = false := by decide +kernel

theorem witness_walk (acc : Access) : Memory.wf s0.mem = true ∧ Misses s0 0x403ABC#32 acc [] ∧
    WalkSucceeds s0 0x403ABC#32 acc pde0 pte0 ∧ pteAddr pde0.frame 0x403ABC#32 ≠ pdeAddr s0.cr3 0x403ABC#32 := by
  cases acc <;> decide +kernel

theorem witness_WalkSetsAccessedAndDirty (acc : Access) : Memory.wf s0.mem = true ∧ Misses s0 0x403ABC#32 acc [] ∧
    WalkSucceeds s0 0x403ABC#32 acc pde0 pte0 ∧ pteAddr pde0.frame 0x403ABC#32 ≠ pdeAddr s0.cr3 0x403ABC#32 :=
  witness_walk acc

theorem witness_ProcessorChanges_done : Memory.wf s0.mem = true ∧ (0x1004#32).toNat % 4 = 0 ∧
    (∃ t pa, translate no 0x403ABC#32 .write s0 = .done pa t) ∧ (physRead s0.mem 0x1008#32 4).getLsbD 0 = false ∧
    (physRead (put s0 0x1004#32 0x2027#32).mem 0x1004#32 4).getLsbD 5 = true :=
  ⟨by decide +kernel, by decide, ⟨_, _, rfl⟩, by decide +kernel, by decide +kernel⟩

theorem witness_ProcessorChanges_raise : Memory.wf s0.mem = true ∧ (0x1004#32).toNat % 4 = 0 ∧
    ∃ t info, translate no 0x404000#32 .read s0 = .raise info t :=
  ⟨by decide +kernel, by decide, _, _, rfl⟩

theorem witness_PdeDirtyBitIsDrawn_free : Memory.wf s0.mem = true ∧ Misses s0 0x403ABC#32 .write [] ∧
    WalkSucceeds s0 0x403ABC#32 .write pde0 pte0 ∧
    ¬ (pdeAddr s0.cr3 0x403ABC#32 = pteAddr pde0.frame 0x403ABC#32 ∧ Access.write = .write) := by decide +kernel

theorem witness_PdeDirtyBitIsDrawn_self : Memory.wf sSelf.mem = true ∧ Misses sSelf 0xFFFFF004#32 .write [] ∧
    WalkSucceeds sSelf 0xFFFFF004#32 .write pdeSelf pdeSelf ∧
    pdeAddr sSelf.cr3 0xFFFFF004#32 = pteAddr pdeSelf.frame 0xFFFFF004#32 ∧
    ∃ t pa, translate no 0xFFFFF004#32 .write sSelf = .done pa t :=
  ⟨by decide +kernel, by decide +kernel, by decide +kernel, by decide +kernel, _, _, rfl⟩

theorem witness_PdeDirtyBitIsDrawn_notPresent : Memory.wf s0.mem = true ∧ Misses s0 0x404000#32 .read [] ∧
    PageNotPresent s0 0x404000#32 pde0 := by decide +kernel

/-- The same directory, not permitted in User mode. -/
def sSelfUser : State := { sSelf with mode := .user }

theorem witness_PdeDirtyBitIsDrawn_selfRaise : Memory.wf sSelfUser.mem = true ∧
    Misses sSelfUser 0xFFFFF004#32 .write [] ∧ WalkReads sSelfUser 0xFFFFF004#32 pdeSelf pdeSelf ∧
    walkPermits sSelfUser.platform pdeSelf pdeSelf .write sSelfUser.mode = false ∧
    pdeAddr sSelfUser.cr3 0xFFFFF004#32 = pteAddr pdeSelf.frame 0xFFFFF004#32 := by decide +kernel

theorem witness_DirectoryNotPresentRaises : Misses s0 0#32 .read [] ∧
    populatedAt s0.platform (pdeAddr s0.cr3 0#32) 4 = true ∧ (physRead s0.mem (pdeAddr s0.cr3 0#32) 4).getLsbD 0 = false := by
  decide +kernel

theorem witness_TableNotPresentRaises : Misses s0 0x404000#32 .write [] ∧
    populatedAt s0.platform (pdeAddr s0.cr3 0x404000#32) 4 = true ∧
    decodeEntry (physRead s0.mem (pdeAddr s0.cr3 0x404000#32) 4) = .present pde0 ∧
    populatedAt s0.platform (pteAddr pde0.frame 0x404000#32) 4 = true ∧
    (physRead s0.mem (pteAddr pde0.frame 0x404000#32) 4).getLsbD 0 = false := by decide +kernel

/-- S0 in User mode with a read-only PTE (V27). -/
def sReadOnly : State := { put s0 0x200C#32 0x55005#32 with mode := .user }

theorem witness_WalkProtectionRaises : Misses sReadOnly 0x403ABC#32 .write [] ∧
    WalkReads sReadOnly 0x403ABC#32 pde0 { pte0 with rw := false } ∧
    protPermits sReadOnly.platform.pageProt ⟨true, true, true, false, .write, sReadOnly.mode⟩ = false := by decide +kernel

theorem witness_PdeDirtyBitIsDrawn_protection : Memory.wf sReadOnly.mem = true ∧ Misses sReadOnly 0x403ABC#32 .write [] ∧
    WalkReads sReadOnly 0x403ABC#32 pde0 { pte0 with rw := false } ∧
    walkPermits sReadOnly.platform pde0 { pte0 with rw := false } .write sReadOnly.mode = false ∧
    pdeAddr sReadOnly.cr3 0x403ABC#32 ≠ pteAddr pde0.frame 0x403ABC#32 := by decide +kernel

theorem witness_RaiseLeavesLittle : (∃ t info, translate no 0x403ABC#32 .write sReadOnly = .raise info t) ∧
    CacheIs sReadOnly [] ∧ Memory.wf sReadOnly.mem = true ∧
    decodeEntry (physRead sReadOnly.mem (pdeAddr sReadOnly.cr3 0x403ABC#32) 4) = .present pde0 ∧
    pteAddr pde0.frame 0x403ABC#32 ≠ pdeAddr sReadOnly.cr3 0x403ABC#32 ∧
    translationMayWrite sReadOnly 0x403ABC#32 0x55ABC = false :=
  ⟨⟨_, _, rfl⟩, rfl, by decide +kernel, by decide +kernel, by decide +kernel, by decide +kernel⟩

theorem witness_FilledLineHoldsTheWalk (acc : Access) : Memory.wf s0.mem = true ∧ Misses s0 0x403ABC#32 acc [] ∧
    WalkReads s0 0x403ABC#32 pde0 pte0 ∧
    ∃ t pa, translate keep 0x403ABC#32 acc s0 = .done pa t ∧ CacheIs t [{ line1 with d := acc == .write }] := by
  refine ⟨by decide +kernel, (witness_walk acc).2.1, by decide +kernel, ?_⟩
  cases acc
  · exact ⟨_, _, rfl, by decide +kernel⟩
  · exact ⟨_, _, rfl, by decide +kernel⟩

theorem witness_TranslationAfterFlushWalks : (s0with [line1]).pg = true := rfl

/-- V50: the cache holds frame 00055 for page 00403, the table frame 00066. -/
def sStale : State := put (s0with [line1]) 0x200C#32 0x66007#32

theorem witness_OldAndNewData : sStale.pg = true ∧ CacheIs sStale [line1] ∧
    hitLine 0x403ABC#32 .read [line1] = some line1 ∧ linePermits sStale.platform line1 .read sStale.mode = true ∧
    WalkSucceeds sStale 0x403ABC#32 .read pde0 { pte0 with frame := 0x66#20 } ∧
    line1.frame ≠ ({ pte0 with frame := 0x66#20 } : PresentEntry).frame := by decide +kernel

/-- After V1, entry kept: the cache agrees with the tables. -/
def sAgree : State := put (put (s0with [line1]) 0x1004#32 0x2027#32) 0x200C#32 0x55027#32

theorem sAgree_coherent : Coherent sAgree := by
  intro m hm l hl
  cases hm
  rw [List.mem_singleton] at hl
  subst hl
  exact ⟨{ pde0 with accessed := true }, { pte0 with accessed := true }, by decide +kernel, rfl, rfl, rfl, rfl, rfl, rfl, rfl,
    fun _ h => by cases h⟩

/-- After V3, entry kept: the line has `d = 1` and the PTE D = 1. -/
def sAgreeDirty : State :=
  put (put (s0with [{ line1 with d := true }]) 0x1004#32 0x2027#32) 0x200C#32 0x55067#32

theorem sAgreeDirty_coherent : Coherent sAgreeDirty := by
  intro m hm l hl
  cases hm
  rw [List.mem_singleton] at hl
  subst hl
  exact ⟨{ pde0 with accessed := true }, { pte0 with accessed := true, dirty := true }, by decide +kernel, rfl, rfl, rfl, rfl,
    rfl, rfl, rfl, fun _ _ => rfl⟩

theorem witness_CoherentCacheIsInvisible_done :
    Coherent sAgree ∧ ∃ t, translate keep 0x403ABC#32 .read sAgree = .done 0x55ABC#32 t :=
  ⟨sAgree_coherent, _, rfl⟩

theorem witness_CoherentCacheIsInvisible_raise :
    Coherent sAgree ∧ ∃ t info, translate keep 0x404000#32 .read sAgree = .raise info t :=
  ⟨sAgree_coherent, _, _, rfl⟩

theorem witness_OnlyStoresToEntries_kept : ∃ t, nextSlot (s0run [⟨.supervisor, .op .clrPg⟩] sAgree) =
      some ⟨.supervisor, .op .clrPg⟩ ∧ decodeCode (.op .clrPg) = .ok .clrPg ∧
    step (s0run [⟨.supervisor, .op .clrPg⟩] sAgree) = .next t ∧
    Memory.wf sAgree.mem = true ∧ Coherent (s0run [⟨.supervisor, .op .clrPg⟩] sAgree) :=
  ⟨_, rfl, rfl, rfl, by decide +kernel, sAgree_coherent⟩

theorem witness_OnlyStoresToEntries_load : ∃ t,
    nextSlot (s0run [⟨.supervisor, .op .movCr3Eax⟩] sStale) = some ⟨.supervisor, .op .movCr3Eax⟩ ∧
    step (s0run [⟨.supervisor, .op .movCr3Eax⟩] sStale) = .next t ∧ Memory.wf sStale.mem = true :=
  ⟨_, rfl, rfl, by decide +kernel⟩

theorem witness_OnlyStoresToEntries_switch : ∃ t,
    nextSlot (s0run [⟨.supervisor, .op (.taskSwitch 0x8000#32)⟩] sStale) = some ⟨.supervisor, .op (.taskSwitch 0x8000#32)⟩ ∧
    step (s0run [⟨.supervisor, .op (.taskSwitch 0x8000#32)⟩] sStale) = .next t ∧ Memory.wf sStale.mem = true ∧
    0x8000#32 ≠ sStale.cr3 :=
  ⟨_, rfl, rfl, by decide +kernel, by decide⟩

/-- The state in which the one operation of a program of `sAgree` runs: the line is kept or dropped. -/
theorem sAgree_before (ops : List Slot) : ∃ m, (m = [] ∨ m = [line1]) ∧
    beforeOp Config.choose .supervisor (s0run ops sAgree) = { s0run ops sAgree with tlb := .known m, drawIdx := 1 } := by
  refine ⟨keptLines (Config.choose 0) [line1], ?_, rfl⟩
  simp only [keptLines, List.filter_cons, List.filter_nil]
  split
  · exact .inr rfl
  · exact .inl rfl

/-- A store to frame 00055 touches no entry. -/
theorem sAgree_apart (ops : List Slot) : ∃ t,
    StoresApart (beforeOp Config.choose .supervisor (s0run ops sAgree)) 0x403ABC#32 1 0x5A#32 ∧
    exec (.write 0x403ABC#32 1 0x5A#32) (beforeOp Config.choose .supervisor (s0run ops sAgree)) = .next t := by
  obtain ⟨m, hm, e⟩ := sAgree_before ops
  rw [e]
  generalize hb : ({ s0run ops sAgree with tlb := .known m, drawIdx := 1 } : State) = b
  have hr : AccessReady b 0x403ABC#32 .write { pde0 with accessed := true } { pte0 with accessed := true } := by
    subst hb
    have hw : WalkSucceeds sAgree 0x403ABC#32 .write { pde0 with accessed := true } { pte0 with accessed := true } := by
      decide +kernel
    rcases hm with rfl | rfl
    · exact ⟨rfl, hw, rfl⟩
    · exact ⟨rfl, hw, (by decide +kernel : lineAgreesWith sAgree 0x403ABC#32 .write pte0 = true)⟩
  obtain ⟨t, ht, et⟩ := translate_ready Config.choose hr
  have ho : OperandAdmitted 0x403ABC#32 1 := by decide
  have hc : crossesPage 0x403ABC#32 1 = false := by decide
  have hp : populatedAt t.platform (physAddr pte0.frame 0x403ABC#32) 1 = true := by
    rw [et.control.regs.platform]
    subst hb
    exact (by decide +kernel : populatedAt sAgree.platform (physAddr pte0.frame 0x403ABC#32) 1 = true)
  refine ⟨_, fun a ha => ?_, writeLinear_done ((access_within _ _ _ ho hc).trans (accessPart_store (p := ⟨_, 1, 0⟩) ht hp))⟩
  have hs : a = 0x55ABC := by
    simp only [storesTo, hc, Bool.false_eq_true, if_false] at ha
    obtain ⟨pa, u, h, h1, h2⟩ := ha
    rw [ht] at h
    cases h
    have : (physAddr pte0.frame 0x403ABC#32).toNat = 0x55ABC := by decide +kernel
    have h1 : (physAddr pte0.frame 0x403ABC#32).toNat ≤ a := h1
    have h2 : a < (physAddr pte0.frame 0x403ABC#32).toNat + 1 := h2
    omega
  subst hs hb
  have same := fun lin => walkHolds_kept (s := sAgree) (t := { s0run ops sAgree with tlb := .known m, drawIdx := 1 }) rfl
    (EntriesKept.refl _) lin 0x55ABC
  refine ⟨(same _).trans (by decide +kernel), fun h => absurd h (by decide),
    fun m' hm' l hl => ?_⟩
  cases hm'
  rcases hm with rfl | rfl
  · cases hl
  · rw [List.mem_singleton] at hl
    subst hl
    exact (same _).trans (by decide +kernel)

theorem witness_OnlyStoresToEntries_write : ∃ t,
    nextSlot (s0run [⟨.supervisor, .op (.write 0x403ABC#32 1 0x5A#32)⟩] sAgree) =
      some ⟨.supervisor, .op (.write 0x403ABC#32 1 0x5A#32)⟩ ∧
    decodeCode (.op (.write 0x403ABC#32 1 0x5A#32)) = .ok (.write 0x403ABC#32 1 0x5A#32) ∧
    step (s0run [⟨.supervisor, .op (.write 0x403ABC#32 1 0x5A#32)⟩] sAgree) = .next t ∧
    StoresApart (beforeOp Config.choose .supervisor (s0run [⟨.supervisor, .op (.write 0x403ABC#32 1 0x5A#32)⟩] sAgree))
      0x403ABC#32 1 0x5A#32 ∧
    Coherent (s0run [⟨.supervisor, .op (.write 0x403ABC#32 1 0x5A#32)⟩] sAgree) := by
  obtain ⟨t, h1, h2⟩ := sAgree_apart [⟨.supervisor, .op (.write 0x403ABC#32 1 0x5A#32)⟩]
  exact ⟨t, rfl, rfl, h2, h1, sAgree_coherent⟩

theorem witness_OnlyStoresToEntries_logicalWrite : ∃ t,
    nextSlot (s0run [⟨.supervisor, .op (.logicalWrite 8#16 0x403ABC#32 1 0x5A#32)⟩] sAgree) =
      some ⟨.supervisor, .op (.logicalWrite 8#16 0x403ABC#32 1 0x5A#32)⟩ ∧
    step (s0run [⟨.supervisor, .op (.logicalWrite 8#16 0x403ABC#32 1 0x5A#32)⟩] sAgree) = .next t ∧
    segTranslate sAgree.platform 8#16 0x403ABC#32 1 .write .supervisor = some 0x403ABC#32 ∧
    StoresApart (beforeOp Config.choose .supervisor
      (s0run [⟨.supervisor, .op (.logicalWrite 8#16 0x403ABC#32 1 0x5A#32)⟩] sAgree)) 0x403ABC#32 1 0x5A#32 := by
  obtain ⟨t, h1, h2⟩ := sAgree_apart [⟨.supervisor, .op (.logicalWrite 8#16 0x403ABC#32 1 0x5A#32)⟩]
  have hs : segTranslate sAgree.platform 8#16 0x403ABC#32 1 .write .supervisor = some 0x403ABC#32 := by decide +kernel
  exact ⟨t, rfl, (exec_logicalWrite (s := beforeOp Config.choose .supervisor (s0run _ sAgree)) hs).trans h2, hs, h1⟩

/-- Across a page boundary, with PG = 0. -/
theorem witness_OnlyStoresToEntries_across (v : Word) :
    StoresApart { sAgree with pg := false } 0x55FFE#32 4 v ∧ Coherent { sAgree with pg := false } := by
  refine ⟨fun a ha => ?_, sAgree_coherent.congr rfl rfl rfl rfl⟩
  have off : ∀ (lin : Word) (u : State), u.pg = false → translate Config.choose lin .write u = .done lin u :=
    fun lin u h => translate_off _ _ _ h
  have ha : 0x55FFE ≤ a ∧ a < 0x56002 := by
    simp only [storesTo, show crossesPage 0x55FFE#32 4 = true by decide, if_true, partsInOrder] at ha
    have h1 : (firstPart 0x55FFE#32).lin.toNat = 0x55FFE ∧ (firstPart 0x55FFE#32).len = 2 := by decide
    have h2 : (secondPart 0x55FFE#32 4).lin.toNat = 0x56000 ∧ (secondPart 0x55FFE#32 4).len = 2 := by decide
    have hb : ∀ p pa, (betweenParts { sAgree with pg := false } (.store v) p pa
        (State.tick { sAgree with pg := false })).pg = false := fun p pa => by
      simp only [betweenParts]; split <;> rfl
    split at ha <;>
    · obtain ⟨pa, u, h, ha⟩ := ha
      dsimp only at h ha
      rw [off _ _ rfl] at h
      cases h
      rcases ha with ha | ⟨qa, w, hw, ha⟩
      · omega
      · rw [off _ _ (hb _ _)] at hw
        cases hw
        omega
  obtain ⟨k, rfl, hk⟩ : ∃ k, a = 0x55FFE + k ∧ k < 4 := ⟨a - 0x55FFE, by omega, by omega⟩
  have key : ∀ k < 4, walkHolds { sAgree with pg := false } 0x55FFE#32 (0x55FFE + k) = false ∧
      walkHolds { sAgree with pg := false } (secondPart 0x55FFE#32 4).lin (0x55FFE + k) = false ∧
      walkHolds { sAgree with pg := false } (pageStart line1.vpn) (0x55FFE + k) = false := by decide +kernel
  obtain ⟨k1, k2, k3⟩ := key k hk
  refine ⟨k1, fun _ => k2, fun m hm l hl => ?_⟩
  cases hm
  rw [List.mem_singleton] at hl
  exact hl ▸ k3

theorem witness_RefusedTranslations_unknown : ({ s0 with tlb := .unknown } : State).pg = true ∧
    ({ s0 with tlb := .unknown } : State).tlb = .unknown := by decide

theorem witness_RefusedTranslations_unpopulated :
    Misses { s0 with platform := { Platform.reset with populated := [⟨0#32, 0xFFF#32⟩] } } 0x403ABC#32 .read [] ∧
    populatedAt { Platform.reset with populated := [⟨0#32, 0xFFF#32⟩] } (pdeAddr s0.cr3 0x403ABC#32) 4 = false := by
  decide +kernel

theorem witness_RefusedTranslations_directory : Misses (put s0 0x1004#32 0x200F#32) 0x403ABC#32 .read [] ∧
    populatedAt s0.platform (pdeAddr s0.cr3 0x403ABC#32) 4 = true ∧
    decodeEntry (physRead (put s0 0x1004#32 0x200F#32).mem (pdeAddr s0.cr3 0x403ABC#32) 4) = .reserved 0x1007#31 := by
  decide +kernel

theorem witness_RefusedTranslations_table : Misses (put s0 0x200C#32 0x55087#32) 0x403ABC#32 .read [] ∧
    populatedAt s0.platform (pdeAddr s0.cr3 0x403ABC#32) 4 = true ∧
    decodeEntry (physRead (put s0 0x200C#32 0x55087#32).mem (pdeAddr s0.cr3 0x403ABC#32) 4) = .present pde0 ∧
    populatedAt s0.platform (pteAddr pde0.frame 0x403ABC#32) 4 = true ∧
    decodeEntry (physRead (put s0 0x200C#32 0x55087#32).mem (pteAddr pde0.frame 0x403ABC#32) 4) = .reserved 0x2A843#31 := by
  decide +kernel

theorem witness_RefusedTranslations_tableUnpopulated :
    Misses { s0 with platform := { Platform.reset with populated := [⟨0#32, 0x200B#32⟩] } } 0x403ABC#32 .read [] ∧
    populatedAt { Platform.reset with populated := [⟨0#32, 0x200B#32⟩] } (pdeAddr s0.cr3 0x403ABC#32) 4 = true ∧
    decodeEntry (physRead s0.mem (pdeAddr s0.cr3 0x403ABC#32) 4) = .present pde0 ∧
    populatedAt { Platform.reset with populated := [⟨0#32, 0x200B#32⟩] } (pteAddr pde0.frame 0x403ABC#32) 4 = false := by
  decide +kernel

theorem witness_TakingThePageException : sHandled.handlerQueue = [] ∧
    handlerFor info0 sHandled.platform.handler = some [.op .setPg] ∧ handlerFor info0 s0.platform.handler = none ∧
    ({ sHandled with handlerQueue := [.op .clrPg] } : State).handlerQueue ≠ [] := by decide +kernel

theorem witness_RaisedOperationIsExecutedAgain : ∃ t, takePageException info0 sHandled = .next t := ⟨_, rfl⟩

theorem witness_RaisingAccess : OperandAdmitted 0x404000#32 4 ∧
    (∃ info t, OperandRaises s0 .load 0x404000#32 4 0x404000#32 info t) ∧
    (∃ info t, OperandRaises s0 (.store 1#32) 0x404000#32 4 0x404000#32 info t) ∧
    segTranslate s0.platform 8#16 0x404000#32 4 .read s0.mode = some 0x404000#32 ∧
    segTranslate s0.platform 8#16 0x404000#32 4 .write s0.mode = some 0x404000#32 :=
  ⟨by decide, ⟨_, _, rfl, rfl⟩, ⟨_, _, rfl, rfl⟩, by decide +kernel, by decide +kernel⟩

/-- V41: the operand of 4 bytes at 00403FFE, the second page not present; in the order (2, 1) it raises before part 1. -/
theorem witness_RaisingAccess_second (x : Transfer) : OperandAdmitted 0x403FFE#32 4 ∧
    ∃ info t, OperandRaises s0 x 0x403FFE#32 4 0x404000#32 info t := by
  refine ⟨by decide, ?_⟩
  have raises : ∀ (u : State) (m : List TlbLine) (pde : PresentEntry), Misses u 0x404000#32 x.acc m →
      PageNotPresent u 0x404000#32 pde → ∃ info t, translate Config.choose 0x404000#32 x.acc u = .raise info t :=
    fun u m pde hm ⟨h1, h2, h3, h4⟩ => ⟨⟨0x404000#32, x.acc, u.mode, .notPresent, .table⟩, _, by
      rw [translate_miss _ hm]
      unfold walk walkTable
      simp [h1, h2, h3, decodeEntry_of_clear h4]
      rfl⟩
  have hn : PageNotPresent s0.tick 0x404000#32 pde0 := by decide +kernel
  have hm : Misses s0.tick 0x404000#32 x.acc [] := ⟨rfl, rfl, rfl⟩
  have hc : crossesPage 0x403FFE#32 4 = true := by decide
  simp only [OperandRaises, hc, if_true, partsInOrder]
  split
  · obtain ⟨info, t, h⟩ := raises _ _ _ hm hn
    exact ⟨info, t, .inl ⟨by decide, h⟩⟩
  · have hr : AccessReady s0.tick 0x403FFE#32 x.acc pde0 pte0 := by
      cases x.acc <;> decide +kernel
    obtain ⟨u, hu, e⟩ := translate_ready Config.choose hr
    obtain ⟨m, hm'⟩ := hm.after (by decide) e (by decide)
    obtain ⟨pde, hn', hf⟩ := hn.kept e.control.regs.platform e.control.regs.cr3 (e.kept (by decide +kernel))
    have ha : ApartFromWalk u 0x404000#32 pde (physAddr pte0.frame 0x403FFE#32) (bytesBefore 0x403FFE#32) := by
      rw [ApartFromWalk, e.control.regs.cr3, hf]; decide +kernel
    have hb : ∃ info t, translate Config.choose 0x404000#32 x.acc
        (betweenParts s0 x (firstPart 0x403FFE#32) (physAddr pte0.frame 0x403FFE#32) u) = .raise info t := by
      cases x with
      | load => exact raises _ _ _ hm' hn'
      | store v =>
        simp only [betweenParts]
        split
        · exact raises _ m _ hm' (hn'.store ha _)
        · exact raises _ _ _ hm' hn'
    obtain ⟨info, t, h⟩ := hb
    exact ⟨info, t, .inr ⟨by decide, _, u, hu, fun _ => by decide +kernel, h⟩⟩

/-- Both parts not present: whichever comes first raises. -/
theorem witness_RaisingAccess_first (x : Transfer) : OperandAdmitted 0x400FFE#32 4 ∧
    ∃ at_ info t, OperandRaises s0 x 0x400FFE#32 4 at_ info t := by
  refine ⟨by decide, ?_⟩
  simp only [OperandRaises, show crossesPage 0x400FFE#32 4 = true by decide, if_true, partsInOrder]
  cases x <;> split <;> exact ⟨_, _, _, .inl ⟨rfl, rfl⟩⟩

theorem witness_RaisingAccess_onePart (acc : Access) : s0.Inv ∧ OperandAdmitted 0x403FFE#32 4 ∧
    crossesPage 0x403FFE#32 4 = true ∧
    populatedAt s0.platform (physAddr pte0.frame (firstPart 0x403FFE#32).lin) (firstPart 0x403FFE#32).len = true ∧
    PageNotPresent s0 (secondPart 0x403FFE#32 4).lin pde0 ∧ AccessReady s0 (firstPart 0x403FFE#32).lin acc pde0 pte0 ∧
    Misses s0 (secondPart 0x403FFE#32 4).lin acc [] ∧
    ApartFromWalk s0 (secondPart 0x403FFE#32 4).lin pde0 (physAddr pte0.frame (firstPart 0x403FFE#32).lin)
      (firstPart 0x403FFE#32).len := by cases acc <;> decide +kernel

/-- The same with the first part not present, at the page boundary before page 00403. -/
theorem witness_RaisingAccess_otherPart (acc : Access) : s0.Inv ∧ OperandAdmitted 0x402FFF#32 2 ∧
    crossesPage 0x402FFF#32 2 = true ∧
    populatedAt s0.platform (physAddr pte0.frame (secondPart 0x402FFF#32 2).lin) (secondPart 0x402FFF#32 2).len = true ∧
    PageNotPresent s0 (firstPart 0x402FFF#32).lin pde0 ∧ AccessReady s0 (secondPart 0x402FFF#32 2).lin acc pde0 pte0 ∧
    Misses s0 (firstPart 0x402FFF#32).lin acc [] ∧
    ApartFromWalk s0 (firstPart 0x402FFF#32).lin pde0 (physAddr pte0.frame (secondPart 0x402FFF#32 2).lin)
      (secondPart 0x402FFF#32 2).len := by cases acc <;> decide +kernel

theorem witness_CompleteWithPagingOff_within : Memory.wf State.reset.mem = true ∧ State.reset.pg = false ∧
    OperandAdmitted 0xFFFFFFFC#32 4 ∧ crossesPage 0xFFFFFFFC#32 4 = false ∧
    populatedAt State.reset.platform 0xFFFFFFFC#32 4 = true ∧
    segTranslate State.reset.platform 8#16 0xFFFFFFFC#32 4 .read State.reset.mode = some 0xFFFFFFFC#32 ∧
    segTranslate State.reset.platform 8#16 0xFFFFFFFC#32 4 .write State.reset.mode = some 0xFFFFFFFC#32 := by
  decide +kernel

theorem witness_CompleteWithPagingOff_across : Memory.wf State.reset.mem = true ∧ State.reset.pg = false ∧
    OperandAdmitted 0xFFF#32 2 ∧ crossesPage 0xFFF#32 2 = true ∧ populatedAt State.reset.platform 0xFFF#32 2 = true := by
  decide +kernel

theorem witness_ReadsComplete : OperandAdmitted 0x403FFC#32 4 ∧ crossesPage 0x403FFC#32 4 = false ∧
    AccessReady s0 0x403FFC#32 .read pde0 pte0 ∧ populatedAt s0.platform (physAddr pte0.frame 0x403FFC#32) 4 = true ∧
    segTranslate s0.platform 8#16 0x403FFC#32 4 .read s0.mode = some 0x403FFC#32 ∧
    translationMayWrite s0 0x403FFC#32 0x1003 = false ∧ translationMayWrite s0 0x403FFC#32 0x2010 = false := by
  decide +kernel

/-- The same with a line that serves the access. -/
theorem witness_ReadsComplete_hit : OperandAdmitted 0x403ABC#32 1 ∧ crossesPage 0x403ABC#32 1 = false ∧
    AccessReady (s0with [line1]) 0x403ABC#32 .read pde0 pte0 ∧
    populatedAt (s0with [line1]).platform (physAddr pte0.frame 0x403ABC#32) 1 = true := by decide +kernel

theorem witness_WritesComplete : Memory.wf s0.mem = true ∧ OperandAdmitted 0x403FFC#32 4 ∧
    crossesPage 0x403FFC#32 4 = false ∧ AccessReady s0 0x403FFC#32 .write pde0 pte0 ∧
    populatedAt s0.platform (physAddr pte0.frame 0x403FFC#32) 4 = true ∧
    segTranslate s0.platform 8#16 0x403FFC#32 4 .write s0.mode = some 0x403FFC#32 ∧
    translationMayWrite s0 0x403FFC#32 0x56000 = false := by decide +kernel

theorem witness_WriteThatWalks : Memory.wf s0.mem = true ∧ OperandAdmitted 0x403000#32 4 ∧
    crossesPage 0x403000#32 4 = false ∧ Misses s0 0x403000#32 .write [] ∧ WalkSucceeds s0 0x403000#32 .write pde0 pte0 ∧
    populatedAt s0.platform (physAddr pte0.frame 0x403000#32) 4 = true ∧
    ApartFromWalk s0 0x403000#32 pde0 (physAddr pte0.frame 0x403000#32) 4 ∧
    segTranslate s0.platform 8#16 0x403000#32 4 .write s0.mode = some 0x403000#32 := by decide +kernel

theorem witness_AccessesCompleteWithStaleLine_read : OperandAdmitted 0x403ABC#32 1 ∧ crossesPage 0x403ABC#32 1 = false ∧
    sStale.pg = true ∧ CacheIs sStale [line1] ∧ hitLine 0x403ABC#32 .read [line1] = some line1 ∧
    linePermits sStale.platform line1 .read sStale.mode = true ∧
    WalkSucceeds sStale 0x403ABC#32 .read pde0 { pte0 with frame := 0x66#20 } ∧
    populatedAt sStale.platform (physAddr line1.frame 0x403ABC#32) 1 = true ∧
    populatedAt sStale.platform (physAddr 0x66#20 0x403ABC#32) 1 = true ∧
    segTranslate sStale.platform 8#16 0x403ABC#32 1 .read sStale.mode = some 0x403ABC#32 := by decide +kernel

/-- A line with `d = 1` for frame 00055; the PTE says frame 00066 and D = 0. -/
def sStaleDirty : State := put (s0with [{ line1 with d := true }]) 0x200C#32 0x66007#32

theorem witness_AccessesCompleteWithStaleLine_write : OperandAdmitted 0x403FFC#32 4 ∧
    crossesPage 0x403FFC#32 4 = false ∧ sStaleDirty.pg = true ∧ CacheIs sStaleDirty [{ line1 with d := true }] ∧
    Memory.wf sStaleDirty.mem = true ∧
    hitLine 0x403FFC#32 .write [{ line1 with d := true }] = some { line1 with d := true } ∧
    linePermits sStaleDirty.platform { line1 with d := true } .write sStaleDirty.mode = true ∧
    WalkSucceeds sStaleDirty 0x403FFC#32 .write pde0 { pte0 with frame := 0x66#20 } ∧
    populatedAt sStaleDirty.platform (physAddr line1.frame 0x403FFC#32) 4 = true ∧
    populatedAt sStaleDirty.platform (physAddr 0x66#20 0x403FFC#32) 4 = true ∧
    ApartFromWalk sStaleDirty 0x403FFC#32 pde0 (physAddr 0x66#20 0x403FFC#32) 4 ∧
    segTranslate sStaleDirty.platform 8#16 0x403FFC#32 4 .write sStaleDirty.mode = some 0x403FFC#32 := by decide +kernel

/-- V40: the operand of 4 bytes at 00403FFE, 2 in each page; and one of 2 bytes at 00403FFF. -/
theorem witness_AcrossPages (acc : Access) : s40.Inv ∧ OperandAdmitted 0x403FFE#32 4 ∧ crossesPage 0x403FFE#32 4 = true ∧
    AccessReady s40 0x403FFE#32 acc pde0 pte0 ∧ AccessReady s40 (secondPart 0x403FFE#32 4).lin acc pde0 pte40 ∧
    populatedAt s40.platform (physAddr pte0.frame 0x403FFE#32) (bytesBefore 0x403FFE#32) = true ∧
    populatedAt s40.platform (physAddr pte40.frame (secondPart 0x403FFE#32 4).lin) (4 - bytesBefore 0x403FFE#32) = true ∧
    segTranslate s40.platform 8#16 0x403FFE#32 4 acc s40.mode = some 0x403FFE#32 := by
  cases acc <;> decide +kernel

theorem witness_AcrossPages_apart : PartsApart s40 0x403FFE#32 4 pde0 pde0 pte0.frame pte40.frame := by decide +kernel

/-- Both parts are served and walk, and no PTE is a PDE of the other part's walk. -/
theorem witness_WriteThatWalks_across : s40.Inv ∧ AccessServed s40 0x403FFE#32 .write pde0 pte0 ∧
    AccessServed s40 (secondPart 0x403FFE#32 4).lin .write pde0 pte40 ∧
    (∀ f, MayUseFrame s40 0x403FFE#32 .write pte0 f →
      populatedAt s40.platform (physAddr f 0x403FFE#32) (bytesBefore 0x403FFE#32) = true) ∧
    (∀ f, MayUseFrame s40 (secondPart 0x403FFE#32 4).lin .write pte40 f →
      populatedAt s40.platform (physAddr f (secondPart 0x403FFE#32 4).lin) (4 - bytesBefore 0x403FFE#32) = true) ∧
    (∀ f1 f2, MayUseFrame s40 0x403FFE#32 .write pte0 f1 → MayUseFrame s40 (secondPart 0x403FFE#32 4).lin .write pte40 f2 →
      PartsApart s40 0x403FFE#32 4 pde0 pde0 f1 f2) ∧
    Misses s40 0x403FFE#32 .write [] ∧ Misses s40 (secondPart 0x403FFE#32 4).lin .write [] ∧
    pteAddr pde0.frame 0x403FFE#32 ≠ pdeAddr s40.cr3 (secondPart 0x403FFE#32 4).lin ∧
    pteAddr pde0.frame (secondPart 0x403FFE#32 4).lin ≠ pdeAddr s40.cr3 0x403FFE#32 := by
  obtain ⟨hi, -, -, r1, r2, p1, p2, -⟩ := witness_AcrossPages .write
  exact ⟨hi, r1.served.1, r2.served.1, fun f hf => r1.served.2 f hf ▸ p1, fun f hf => r2.served.2 f hf ▸ p2,
    fun f1 f2 h1 h2 => by rw [r1.served.2 f1 h1, r2.served.2 f2 h2]; exact witness_AcrossPages_apart,
    by decide +kernel, by decide +kernel, by decide +kernel, by decide +kernel⟩

/-- A stale line for page 00403: frame 00044, where the PTE says 00055. -/
def lineOld : TlbLine := { line1 with frame := 0x44#20, d := true }
def sOld : State := { s40 with tlb := .known [lineOld] }

theorem sOld_hit {lin : Word} {acc : Access} {m : List TlbLine} {l : TlbLine} (hm : CacheIs sOld m)
    (h : hitLine lin acc m = some l) : l = lineOld ∧ vpnOf lin = 0x403#20 := by
  cases hm
  obtain ⟨h1, h2, -⟩ := hitLine_mem h
  rw [List.mem_singleton] at h1
  subst h1
  exact ⟨rfl, h2.symm⟩

/-- An operand whose first part is served by a line that disagrees with the tables. -/
theorem witness_AcrossPages_stale (acc : Access) : sOld.Inv ∧ AccessServed sOld 0x403FFE#32 acc pde0 pte0 ∧
    AccessServed sOld (secondPart 0x403FFE#32 4).lin acc pde0 pte40 ∧
    (∀ f, MayUseFrame sOld 0x403FFE#32 acc pte0 f →
      populatedAt sOld.platform (physAddr f 0x403FFE#32) (bytesBefore 0x403FFE#32) = true) ∧
    (∀ f, MayUseFrame sOld (secondPart 0x403FFE#32 4).lin acc pte40 f →
      populatedAt sOld.platform (physAddr f (secondPart 0x403FFE#32 4).lin) (4 - bytesBefore 0x403FFE#32) = true) ∧
    (∀ f1 f2, MayUseFrame sOld 0x403FFE#32 acc pte0 f1 → MayUseFrame sOld (secondPart 0x403FFE#32 4).lin acc pte40 f2 →
      PartsApart sOld 0x403FFE#32 4 pde0 pde0 f1 f2) ∧
    MayUseFrame sOld 0x403FFE#32 acc pte0 0x44#20 := by
  have perm : linePermits sOld.platform lineOld acc sOld.mode = true := by cases acc <;> decide
  have f1 : ∀ f, MayUseFrame sOld 0x403FFE#32 acc pte0 f → f = 0x55#20 ∨ f = 0x44#20 := fun f hf => by
    rcases hf with rfl | ⟨m, l, hm, hh, rfl⟩
    · exact .inl rfl
    · exact .inr (by rw [(sOld_hit hm hh).1]; rfl)
  have f2 : ∀ f, MayUseFrame sOld (secondPart 0x403FFE#32 4).lin acc pte40 f → f = 0x77#20 := fun f hf => by
    rcases hf with rfl | ⟨m, l, hm, hh, rfl⟩
    · rfl
    · exact absurd (sOld_hit hm hh).2 (by decide)
  have key : ∀ m l, CacheIs sOld m → ∀ lin, hitLine lin acc m = some l →
      linePermits sOld.platform l acc sOld.mode = true := fun m l hm lin h => (sOld_hit hm h).1 ▸ perm
  refine ⟨by decide +kernel, ⟨rfl, by cases acc <;> decide +kernel, by decide, fun m l hm h => key m l hm _ h⟩,
    ⟨rfl, by cases acc <;> decide +kernel, by decide, fun m l hm h => key m l hm _ h⟩, fun f hf => ?_, fun f hf => ?_,
    fun g1 g2 h1 h2 => ?_, .inr ⟨[lineOld], lineOld, rfl, by cases acc <;> decide +kernel, rfl⟩⟩
  · rcases f1 f hf with rfl | rfl <;> decide +kernel
  · rw [f2 f hf]; decide +kernel
  · rw [f2 g2 h2]
    rcases f1 g1 h1 with rfl | rfl <;> decide +kernel

theorem read_completes : ∃ t, exec (.read 0x403FFC#32 4) s0 = .next t := by
  obtain ⟨h1, h2, h3, h4, -⟩ := witness_ReadsComplete
  obtain ⟨t, h, e⟩ := translate_ready Config.choose h3
  exact ⟨_, readLinear_done ((access_within _ _ _ h1 h2).trans
    (accessPart_load (p := ⟨_, 4, 0⟩) h (by rw [e.control.regs.platform]; exact h4)))⟩

theorem witness_ReadFrame : Memory.wf s0.mem = true ∧ (∃ t, exec (.read 0x403FFC#32 4) s0 = .next t) ∧
    (∃ t, exec (.fetch 0x403FFC#32 4) s0 = .next t) ∧
    (∃ t, segTranslate s0.platform 8#16 0x403FFC#32 4 .read s0.mode = some 0x403FFC#32 ∧
      exec (.logicalRead 8#16 0x403FFC#32 4) s0 = .next t) := by
  have hs : segTranslate s0.platform 8#16 0x403FFC#32 4 .read s0.mode = some 0x403FFC#32 := by decide +kernel
  obtain ⟨t, h⟩ := read_completes
  exact ⟨by decide +kernel, ⟨t, h⟩, ⟨t, h⟩, t, hs, (exec_logicalRead hs).trans h⟩

/-- The form that takes the exception. -/
theorem witness_ReadFrame_raise : Memory.wf sHandled.mem = true ∧ ∃ t, exec (.read 0x404000#32 4) sHandled = .next t :=
  ⟨by decide +kernel, _, rfl⟩

theorem witness_WriteFrame : crossesPage 0x403FFC#32 4 = false ∧ (∃ t, exec (.write 0x403FFC#32 4 1#32) s0 = .next t) ∧
    translationMayWrite s0 0x403FFC#32 0x56000 = false := by
  obtain ⟨-, h1, h2, h3, h4, -⟩ := witness_WritesComplete
  obtain ⟨t, h, e⟩ := translate_ready Config.choose h3
  exact ⟨h2, ⟨_, writeLinear_done ((access_within _ _ _ h1 h2).trans
    (accessPart_store (p := ⟨_, 4, 0⟩) h (by rw [e.control.regs.platform]; exact h4)))⟩, by decide +kernel⟩

/-- A handler for writes to pages 00404, 00400 and 00401 not present. -/
def sHandledWrite : State := { s0 with platform := { Platform.reset with
  handler := [0x404000#32, 0x400FFE#32, 0x401000#32].map fun lin => ⟨⟨lin, .write, .supervisor, .notPresent, .table⟩, []⟩ } }

theorem witness_WriteFrame_raise : crossesPage 0x404000#32 4 = false ∧
    ∃ t, exec (.write 0x404000#32 4 1#32) sHandledWrite = .next t := ⟨by decide, _, rfl⟩

theorem witness_WriteAcrossPagesFrame : crossesPage 0x403FFE#32 4 = true ∧
    ∃ t, exec (.write 0x403FFE#32 4 1#32) s40 = .next t := by
  obtain ⟨hi, ho, hc, r1, r2, p1, p2, -⟩ := witness_AcrossPages .write
  obtain ⟨a1, a2, a3, a4⟩ := witness_AcrossPages_apart
  have u1 := r1.served.2
  have u2 := r2.served.2
  refine ⟨hc, ?_⟩
  cases hk : Config.choose s40.drawIdx .secondPartFirst with
  | false =>
    obtain ⟨f1, s1, u, f2, s2, w, t, -, -, -, -, -, -, -, -, h, -⟩ := accessOrdered_store_served (s := s40.tick)
      Config.choose (Config.choose s40.drawIdx .transferEarly) 1#32 (p := firstPart 0x403FFE#32)
      (q := secondPart 0x403FFE#32 4) hi.1 hi.2.1 (parts_pages ho hc) r1.served.1 r2.served.1
      (fun f hf => u1 f hf ▸ p1) (fun f hf => u2 f hf ▸ p2) (fun f hf => u1 f hf ▸ a2)
    exact ⟨_, writeLinear_done ((access_across _ _ _ ho hc).trans (by rw [accessSplit, hk]; exact h))⟩
  | true =>
    obtain ⟨f1, s1, u, f2, s2, w, t, -, -, -, -, -, -, -, -, h, -⟩ := accessOrdered_store_served (s := s40.tick)
      Config.choose (Config.choose s40.drawIdx .transferEarly) 1#32 (p := secondPart 0x403FFE#32 4)
      (q := firstPart 0x403FFE#32) hi.1 hi.2.1 (parts_pages ho hc).symm r2.served.1 r1.served.1
      (fun f hf => u2 f hf ▸ p2) (fun f hf => u1 f hf ▸ p1) (fun f hf => u2 f hf ▸ a3)
    exact ⟨_, writeLinear_done ((access_across _ _ _ ho hc).trans (by rw [accessSplit, hk]; exact h))⟩

/-- The form that takes the exception, at whichever part comes first. -/
theorem witness_WriteAcrossPagesFrame_raise : crossesPage 0x400FFE#32 4 = true ∧
    ∃ t, exec (.write 0x400FFE#32 4 1#32) sHandledWrite = .next t := by
  refine ⟨by decide, ?_⟩
  show ∃ t, writeLinear _ _ _ _ _ = .next t
  rw [writeLinear, access_across _ _ _ (by decide) (by decide), accessSplit]
  cases Config.choose sHandledWrite.drawIdx .secondPartFirst <;>
    cases Config.choose sHandledWrite.drawIdx .transferEarly <;> exact ⟨_, rfl⟩

theorem witness_RefusedOperands : sizeAdmitted 3 = false ∧ sizeAdmitted 0 = false ∧ sizeAdmitted 2 = true ∧
    spaceSize < (0xFFFFFFFF#32).toNat + 2 ∧ segTranslate { s0.platform with segments := [] } 8#16 0#32 1 .read .user = none ∧
    segTranslate { s0.platform with segments := [⟨0#16, 8#16, 0#32, .windows []⟩] } 8#16 0#32 1 .write .user = none := by
  decide +kernel

/-- Reset with memory from 0 to 00000FFF only. -/
def sSmall : State := { State.reset with platform := { Platform.reset with populated := [⟨0#32, 0xFFF#32⟩] } }

theorem witness_RefusedOperands_unpopulated : OperandAdmitted 0x1000#32 4 ∧ crossesPage 0x1000#32 4 = false ∧
    populatedAt sSmall.platform 0x1000#32 4 = false ∧
    translate Config.choose 0x1000#32 .read sSmall = .done 0x1000#32 sSmall ∧
    translate Config.choose 0x1000#32 .write sSmall = .done 0x1000#32 sSmall :=
  ⟨by decide, by decide, by decide +kernel, rfl, rfl⟩

theorem witness_LogicalAccess : descriptorOf 8#16 s0.platform.segments = some ⟨0#16, 0xFFFF#16, 0#32, .always⟩ ∧
    segPermits .always 0x403ABC#32 1 .read s0.mode = true ∧
    segPermits (.windows [⟨.write, .supervisor, 1, 0#32, 0x3FFFFF#32⟩]) 0x3FFFFF#32 1 .write s0.mode = true := by
  decide +kernel

theorem witness_PageTablePerSegment : (0#32).toNat < 2 ^ 22 ∧ (0x3FFFFF#32).toNat < 2 ^ 22 := by decide

end Sys2Proof.Machine.Tests
end

section
/-!
The fields of a linear address (spec/30_encoding.md R50): each as a number, and that together they are the address.
-/

namespace Sys2Proof.Machine

theorem splitLinear_dir_toNat (lin : Word) : (splitLinear lin).dir.toNat = lin.toNat / 2 ^ 22 := by
  have hlt : lin.toNat / 2 ^ 22 < 2 ^ 10 := by have := lin.isLt; omega
  rw [splitLinear, BitVec.extractLsb'_toNat, Nat.shiftRight_eq_div_pow, Nat.mod_eq_of_lt hlt]

theorem splitLinear_page_toNat (lin : Word) : (splitLinear lin).page.toNat = lin.toNat / 2 ^ 12 % 2 ^ 10 := by
  rw [splitLinear, BitVec.extractLsb'_toNat, Nat.shiftRight_eq_div_pow]

theorem vpnOf_eq_dir_append_page (lin : Word) : vpnOf lin = (splitLinear lin).dir ++ (splitLinear lin).page :=
  (BitVec.extractLsb'_append_extractLsb'_eq_extractLsb' (len₂ := 10) (len₁ := 10) rfl).symm

theorem vpnOf_append_offset (lin : Word) : vpnOf lin ++ (splitLinear lin).offset = lin :=
  (BitVec.extractLsb'_append_extractLsb'_eq_extractLsb' rfl).trans BitVec.extractLsb'_eq_self

@[simp] theorem joinLinear_splitLinear (lin : Word) : joinLinear (splitLinear lin) = lin := by
  rw [joinLinear, ← vpnOf_eq_dir_append_page, vpnOf_append_offset]

@[simp] theorem splitLinear_joinLinear (f : LinearFields) : splitLinear (joinLinear f) = f := by
  obtain ⟨dir, page, offset⟩ := f
  have hdir : (dir ++ page ++ offset : Word).extractLsb' 22 10 = dir :=
    (BitVec.extractLsb'_append_eq_of_le (by decide)).trans BitVec.extractLsb'_append_eq_left
  have hpage : (dir ++ page ++ offset : Word).extractLsb' 12 10 = page :=
    (BitVec.extractLsb'_append_eq_of_le (by decide)).trans BitVec.extractLsb'_append_eq_right
  have hoffset : (dir ++ page ++ offset : Word).extractLsb' 0 12 = offset := BitVec.extractLsb'_append_eq_right
  rw [joinLinear, splitLinear, hdir, hpage, hoffset]

/-- Settles O6: a field of R50 is a quotient or a remainder of the address, and taking adjacent fields apart and putting
them together are inverse to each other. -/
theorem linearAddressFields : Obligations.LinearAddressFields :=
  ⟨fun lin => ⟨splitLinear_dir_toNat lin, splitLinear_page_toNat lin, pageOffset_eq lin, joinLinear_splitLinear lin,
    vpnOf_eq_dir_append_page lin, vpnOf_toNat lin⟩, splitLinear_joinLinear⟩

end Sys2Proof.Machine
end

section
/-!
What a walk that succeeds leaves of its PTE (spec/40_page_translation.md R80, R81), where that is not the PDE as well.
-/

namespace Sys2Proof.Machine

/-- The draw of R83 is made of the PDE, so a PTE that is another entry has just the bits of R80 and R81 set. -/
theorem markUsed_pte {m : Memory} {pdeAt pteAt : Word} (hm : Memory.wf m = true) (hd : pdeAt.toNat % 4 = 0)
    (ht : pteAt.toNat % 4 = 0) (hne : pteAt ≠ pdeAt) (ch : Draws) (acc : Access) :
    physRead (markUsed ch m pdeAt pteAt acc) pteAt 4 = physRead m pteAt 4 ||| pteUpdateMask acc := by
  have hdrawn : ¬ (pdeAt = pteAt ∧ acc = .write) := fun h => hne h.1.symm
  rw [markUsed, if_neg hdrawn, drawPdeBit6_apart _ hd ht hne, orEntry_same (orEntry_wf hm hd _) ht,
    orEntry_apart _ hd ht hne]

/-- Settles O29: the memory after the walk is that of its updates, which set A of both entries and D of the PTE of a write
(`markUsed_update`); of a PTE that is not the PDE those of a read leave D (`markUsed_pte`). -/
theorem walkSetsAccessedAndDirty : Obligations.WalkSetsAccessedAndDirty := by
  intro O lin acc s m pde pte hm hmiss hwalk
  obtain ⟨t, hdone, hmem⟩ := translate_miss_done O hmiss hwalk
  obtain ⟨⟨-, hpde, -, hpte⟩, -⟩ := hwalk
  have hd := pdeAddr_aligned s.cr3 lin
  have ht := pteAddr_aligned pde.frame lin
  obtain ⟨-, hpdeA, hpteA, hpteD⟩ := markUsed_update hm hd ht (decodeEntry_present hpde).1 (O (s.drawIdx + 1)) acc
    (decodeEntry_present hpte).1
  refine ⟨t, hdone, ?_⟩
  rw [hmem]
  refine ⟨hpdeA, hpteA, hpteD, fun hread hne => ?_⟩
  rw [markUsed_pte hm hd ht hne, (pteUpdate_spec _ acc).2.2, dirty_of_decode hpte, hread]
  exact Bool.or_false _

end Sys2Proof.Machine
end

section
/-!
A hit (spec/41_translation_cache.md R101, R111): what a translation comes to where a draw kept a line the access may use.
Memory plays no part in it.
-/

namespace Sys2Proof.Machine

theorem keptLines_sublist (ch : Draws) (m : List TlbLine) : (keptLines ch m).Sublist m := List.filter_sublist

/-- The drop of lines neither reads nor writes memory. -/
theorem droppedState_with_mem (O : Oracle) (m : List TlbLine) (s : State) (mem : Memory) :
    droppedState O m { s with mem := mem } = { droppedState O m s with mem := mem } := rfl

section
variable {O : Oracle} {lin : Word} {acc : Access} {s : State} {m : List TlbLine} {l : TlbLine}

/-- A hit whose line permits the access gives the line's frame, in the state the drop leaves. -/
theorem translate_hit_permitted (hpg : s.pg = true) (hm : CacheIs s m) (hl : hitLine lin acc m = some l)
    (hk : O s.drawIdx (.keepLine (vpnOf lin)) = true) (hp : linePermits s.platform l acc s.mode = true) :
    translate O lin acc s = .done (physAddr l.frame lin) (droppedState O m s) :=
  (translate_hit O hpg hm hl hk).trans (if_pos hp)

/-- A hit whose line does not permit the access raises for protection, in the state the drop leaves. -/
theorem translate_hit_denied (hpg : s.pg = true) (hm : CacheIs s m) (hl : hitLine lin acc m = some l)
    (hk : O s.drawIdx (.keepLine (vpnOf lin)) = true) (hp : linePermits s.platform l acc s.mode = false) :
    translate O lin acc s = .raise ⟨lin, acc, s.mode, .protection, .cache⟩ (droppedState O m s) :=
  (translate_hit O hpg hm hl hk).trans (if_neg (Bool.eq_false_iff.1 hp))

end

/-- Settles O26: the premises of a hit do not speak of memory, so its outcome (`translate_hit_permitted`,
`translate_hit_denied`) is the same over any memory, in a state that differs from the one before by dropped lines alone. -/
theorem hitUsesTheLineAlone : Obligations.HitUsesTheLineAlone := by
  intro O lin acc s m l mem hpg hm hl hk
  constructor
  · intro hp
    refine ⟨droppedState O m s, translate_hit_permitted hpg hm hl hk hp, ?_, SameControl.dropped O m s,
      droppedState_mem O m s, _, droppedState_tlb O m s, keptLines_sublist _ m⟩
    rw [← droppedState_with_mem]
    exact translate_hit_permitted hpg hm hl hk hp
  · intro hp
    have hraise := translate_hit_denied (s := { s with mem := mem }) hpg hm hl hk hp
    rw [hraise]
    refine ⟨nofun, fun info t hinfo => ?_⟩
    cases hinfo
    exact ⟨nofun, rfl⟩

end Sys2Proof.Machine
end

section
/-!
Encodings and formats (spec/30_encoding.md): the instruction bytes of R59, the table entry of R51 to R53 and the addresses
of R57. A decoder takes adjacent fields apart that the encoder puts together.
-/

namespace Sys2Proof.Machine

/-! ### The table entry -/

/-- A bit as a truth value is the field of one bit. -/
theorem ofBool_bitOf (w : Word) (i : Nat) : BitVec.ofBool (bitOf w i) = w.extractLsb' i 1 := by
  refine BitVec.eq_of_getLsbD_eq fun j hj => ?_
  obtain rfl : j = 0 := by omega
  simp [bitOf]

theorem extract_append_bitZero (w : Word) : w.extractLsb' 1 31 ++ BitVec.ofBool (bitOf w 0) = w := by
  rw [ofBool_bitOf]
  exact BitVec.extractLsb'_append_extractLsb' (len := 1)

/-- Two adjacent fields are one field. -/
theorem field_append (w : Word) (lo : Nat) {n k : Nat} :
    w.extractLsb' (n + lo) k ++ w.extractLsb' lo n = w.extractLsb' lo (k + n) :=
  BitVec.extractLsb'_append_extractLsb'_eq_extractLsb' (Nat.add_comm n lo)

/-- The fields of an entry, from bit 31 down to bit 0, make up the entry. -/
theorem entry_fields_append (w : Word) :
    w.extractLsb' 12 20 ++ w.extractLsb' 9 3 ++ w.extractLsb' 7 2 ++ w.extractLsb' 6 1 ++ w.extractLsb' 5 1 ++
      w.extractLsb' 3 2 ++ w.extractLsb' 2 1 ++ w.extractLsb' 1 1 ++ w.extractLsb' 0 1 = w := by
  rw [field_append w 9, field_append w 7, field_append w 6, field_append w 5, field_append w 3, field_append w 2,
    field_append w 1, field_append w 0]
  exact BitVec.extractLsb'_eq_self

theorem decodeEntry_of_reserved {w : Word} (h0 : w.getLsbD 0 = true)
    (hr : w.extractLsb' 7 2 ≠ 0#2 ∨ w.extractLsb' 3 2 ≠ 0#2) : decodeEntry w = .reserved (w.extractLsb' 1 31) := by
  rw [decodeEntry, if_neg (by simp [bitOf, h0]), if_pos hr]

theorem decodeEntry_of_present {w : Word} (h0 : w.getLsbD 0 = true) (h3 : w.extractLsb' 3 2 = 0#2)
    (h7 : w.extractLsb' 7 2 = 0#2) :
    decodeEntry w = .present ⟨w.extractLsb' 12 20, w.extractLsb' 9 3, bitOf w 6, bitOf w 5, bitOf w 2, bitOf w 1⟩ := by
  rw [decodeEntry, if_neg (by simp [bitOf, h0]), if_neg (by simp [h3, h7])]

/-- The encoder puts together the fields the decoder took apart; where a field was not kept, the decoder had read it as the
constant that the encoder writes. -/
theorem encodeEntry_decodeEntry (w : Word) : encodeEntry (decodeEntry w) = w := by
  cases h0 : w.getLsbD 0 with
  | false =>
    have hw := extract_append_bitZero w
    rw [show bitOf w 0 = false from h0] at hw
    rw [decodeEntry_of_clear h0]
    exact hw
  | true =>
    have hP : BitVec.ofBool (bitOf w 0) = 1#1 := congrArg BitVec.ofBool h0
    by_cases hr : w.extractLsb' 7 2 ≠ 0#2 ∨ w.extractLsb' 3 2 ≠ 0#2
    · have hw := extract_append_bitZero w
      rw [hP] at hw
      rw [decodeEntry_of_reserved h0 hr]
      exact hw
    · simp only [not_or, ne_eq, not_not] at hr
      have hw := entry_fields_append w
      rw [← ofBool_bitOf, ← ofBool_bitOf, ← ofBool_bitOf, ← ofBool_bitOf, ← ofBool_bitOf, hP, hr.1, hr.2] at hw
      rw [decodeEntry_of_present h0 hr.2 hr.1]
      exact hw

theorem extract_extract (w : Word) (lo n : Nat) (h : lo + n ≤ 31) :
    (w.extractLsb' 1 31).extractLsb' lo n = w.extractLsb' (1 + lo) n := by
  refine BitVec.eq_of_getLsbD_eq fun i hi => ?_
  have hlo : lo + i < 31 := by omega
  simp [hi, hlo, Nat.add_assoc]

theorem decodeEntry_wellFormed (w : Word) : (decodeEntry w).wellFormed = true := by
  cases h : decodeEntry w with
  | notPresent a => rfl
  | present e => rfl
  | reserved a =>
    unfold decodeEntry at h
    split at h
    · cases h
    · split at h
      · next hr =>
        cases h
        rw [EntryView.wellFormed, extract_extract w 6 2 (by decide), extract_extract w 2 2 (by decide)]
        simpa using hr
      · cases h

/-- Bit 0 of a word that ends in P. -/
theorem bitZero_append (a : BitVec 31) (p : BitVec 1) : (a ++ p : Word).getLsbD 0 = p.getLsbD 0 := by
  rw [BitVec.getLsbD_append, if_pos (by decide)]

/-- A field of a word that ends in P is that field of the bits above P. -/
theorem extract_append_bit (a : BitVec 31) (p : BitVec 1) (lo n : Nat) :
    (a ++ p : Word).extractLsb' (lo + 1) n = a.extractLsb' lo n :=
  BitVec.extractLsb'_append_eq_of_le (by omega)

/-- The fields of an encoded present entry are those it was encoded from. -/
theorem encodeEntry_present_fields (e : PresentEntry) :
    (encodeEntry (.present e)).getLsbD 0 = true ∧ (encodeEntry (.present e)).extractLsb' 3 2 = 0#2 ∧
      (encodeEntry (.present e)).extractLsb' 7 2 = 0#2 ∧ (encodeEntry (.present e)).extractLsb' 12 20 = e.frame ∧
      (encodeEntry (.present e)).extractLsb' 9 3 = e.avail ∧ bitOf (encodeEntry (.present e)) 6 = e.dirty ∧
      bitOf (encodeEntry (.present e)) 5 = e.accessed ∧ bitOf (encodeEntry (.present e)) 2 = e.us ∧
      bitOf (encodeEntry (.present e)) 1 = e.rw := by
  simp (disch := decide) only [encodeEntry, bitOf, BitVec.extractLsb'_append_eq_of_le, BitVec.extractLsb'_append_eq_right,
    BitVec.getLsbD_append, BitVec.getLsbD_ofBool, Nat.reduceSub]
  simp

/-- The decoder reads from an encoded view the bits the encoder put there. -/
theorem decodeEntry_encodeEntry (v : EntryView) (hv : v.wellFormed = true) : decodeEntry (encodeEntry v) = v := by
  cases v with
  | notPresent a =>
    rw [encodeEntry, decodeEntry_of_clear (bitZero_append a 0#1), extract_append_bit a _ 0, BitVec.extractLsb'_eq_self]
  | reserved a =>
    rw [encodeEntry, decodeEntry_of_reserved (bitZero_append a 1#1), extract_append_bit a _ 0,
      BitVec.extractLsb'_eq_self]
    rw [extract_append_bit a _ 6, extract_append_bit a _ 2]
    simpa [EntryView.wellFormed] using hv
  | present e =>
    obtain ⟨hP, h3, h7, hframe, havail, hD, hA, hUS, hRW⟩ := encodeEntry_present_fields e
    rw [decodeEntry_of_present hP h3 h7, hframe, havail, hD, hA, hUS, hRW]

/-- Settles O4: putting the fields of an entry together undoes taking them apart, and the other way round
(`encodeEntry_decodeEntry`, `decodeEntry_encodeEntry`). -/
theorem entryFormatsAgree : Obligations.EntryFormatsAgree :=
  ⟨fun w => ⟨encodeEntry_decodeEntry w, decodeEntry_wellFormed w⟩, decodeEntry_encodeEntry⟩

/-- Settles O5: these are the bits that the decoder reads of a present entry (`decodeEntry_of_present`). -/
theorem presentEntryFields : Obligations.PresentEntryFields := by
  intro w h0 h3 h7
  have hlt := w.isLt
  refine ⟨_, decodeEntry_of_present h0 h3 h7, ?_, ?_, rfl, rfl, rfl, rfl⟩
  · show (w.extractLsb' 12 20).toNat = _
    rw [BitVec.extractLsb'_toNat, Nat.shiftRight_eq_div_pow, Nat.mod_eq_of_lt (by omega)]
  · show (w.extractLsb' 9 3).toNat = _
    rw [BitVec.extractLsb'_toNat, Nat.shiftRight_eq_div_pow]

/-! ### Instruction bytes -/

theorem joinModRm_splitModRm (b : Byte) : joinModRm (splitModRm b) = b := by
  have hhigh : b.extractLsb' 6 2 ++ b.extractLsb' 3 3 = b.extractLsb' 3 5 :=
    BitVec.extractLsb'_append_extractLsb'_eq_extractLsb' rfl
  rw [joinModRm, splitModRm, hhigh]
  exact BitVec.extractLsb'_append_extractLsb' (w := 5) (len := 3)

/-- The one instruction with bytes, and what follows it. -/
theorem decodeBytes_movCr3Eax (rest : List Byte) :
    decodeBytes (0x0F#8 :: 0x22#8 :: joinModRm ⟨3#2, 3#3, 0#3⟩ :: rest) = .ok (.movCr3Eax, rest) := rfl

/-- The decoder accepts only bytes that begin with those of MOV CR3, EAX. -/
theorem decodeBytes_ok {bs rest : List Byte} {i : Instr} (h : decodeBytes bs = .ok (i, rest)) :
    i = .movCr3Eax ∧ bs = 0x0F#8 :: 0x22#8 :: joinModRm ⟨3#2, 3#3, 0#3⟩ :: rest := by
  unfold decodeBytes at h
  split at h
  · cases h
  · next b0 r0 =>
    split_ifs at h with h0
    split at h
    · cases h
    · next b1 r1 =>
      split_ifs at h with h1
      split at h
      · cases h
      · next b2 r2 =>
        dsimp only at h
        split_ifs at h with hreg hrm
        simp only [not_or, ne_eq, not_not] at h0 h1 hreg hrm
        cases h
        have hfields : splitModRm b2 = ⟨3#2, 3#3, 0#3⟩ := by
          rw [← hreg.1, ← hreg.2, ← hrm]
        exact ⟨rfl, by rw [h0, h1, ← hfields, joinModRm_splitModRm]⟩

/-- Settles O2: the encoder has bytes for MOV CR3, EAX alone, and these are what the decoder accepts (`decodeBytes_ok`). -/
theorem bytesDecodeExactlyWhenEncoded : Obligations.BytesDecodeExactlyWhenEncoded := by
  intro bs i rest
  constructor
  · intro h
    obtain ⟨rfl, rfl⟩ := decodeBytes_ok h
    exact ⟨_, rfl, rfl⟩
  · rintro ⟨w, hw, rfl⟩
    cases i with
    | movCr3Eax => cases hw; exact decodeBytes_movCr3Eax rest
    | _ => cases hw

/-- Settles O1: the decoder run on these bytes. -/
theorem specWordsDecode : Obligations.SpecWordsDecode := by
  unfold Obligations.SpecWordsDecode
  decide

/-- Settles O3, operation by operation: one has bytes, and the code of any other is the operation itself. -/
theorem encodedOperationsDecode : Obligations.EncodedOperationsDecode := by
  intro i
  cases i with
  | movCr3Eax => exact Laws.Encoding.movCr3Eax
  | read lin n => exact Laws.Encoding.read lin n
  | write lin n v => exact Laws.Encoding.write lin n v
  | fetch lin n => exact Laws.Encoding.fetch lin n
  | setPg => exact Laws.Encoding.setPg
  | clrPg => exact Laws.Encoding.clrPg
  | loadEax v => exact Laws.Encoding.loadEax v
  | taskSwitch img => exact Laws.Encoding.taskSwitch img
  | logicalRead sel off n => exact Laws.Encoding.logicalRead sel off n
  | logicalWrite sel off n v => exact Laws.Encoding.logicalWrite sel off n v

/-! ### Addresses -/

/-- Words put together are a sum with no carry. -/
theorem toNat_append_add {m n : Nat} (x : BitVec m) (y : BitVec n) : (x ++ y).toNat = x.toNat * 2 ^ n + y.toNat := by
  rw [BitVec.toNat_append, Nat.shiftLeft_eq, Nat.mul_comm, ← Nat.two_pow_add_eq_or_of_lt y.isLt]

/-- The address of an entry: the table's frame, and four times the field that selects the entry. -/
theorem entryAddr_toNat (frame : Frame) (field : BitVec 10) :
    (frame ++ field ++ 0#2 : Word).toNat = frame.toNat * 4096 + field.toNat * 4 := by
  rw [toNat_append_zero2, toNat_append_add]
  omega

/-- Settles O7: the addresses put fields together (`entryAddr_toNat`, `physAddr_toNat`). -/
theorem addressesAreConcatenations : Obligations.AddressesAreConcatenations := by
  intro cr3 lin frame
  have hlt := cr3.isLt
  have hbase : (cr3.extractLsb' 12 20).toNat = cr3.toNat / 4096 := by
    rw [BitVec.extractLsb'_toNat, Nat.shiftRight_eq_div_pow, Nat.mod_eq_of_lt (by omega)]
  refine ⟨?_, entryAddr_toNat frame _, physAddr_toNat frame lin⟩
  rw [← hbase]
  exact entryAddr_toNat _ _

/-- An offset below 2^22 added to a base with 22 low zero bits gives base and offset side by side. -/
theorem base_add_offset_toNat (d : BitVec 10) {off : Word} (h : off.toNat < 2 ^ 22) :
    ((d ++ 0#22 : Word) + off).toNat = d.toNat * 2 ^ 22 + off.toNat := by
  have hbase : (d ++ 0#22 : Word).toNat = d.toNat * 2 ^ 22 := by rw [toNat_append_add]; simp
  have hlt : d.toNat * 2 ^ 22 + off.toNat < 2 ^ 32 := by have := d.isLt; omega
  rw [BitVec.toNat_add, hbase, Nat.mod_eq_of_lt hlt]

/-- Settles O60: DIR is the quotient of the sum by 2^22, which is `d`, and PAGE and OFFSET are those of its remainder, which
is the offset. -/
theorem pageTablePerSegment : Obligations.PageTablePerSegment := by
  intro d off hoff
  have hsum := base_add_offset_toNat d hoff
  refine ⟨BitVec.eq_of_toNat_eq ?_, BitVec.eq_of_toNat_eq ?_, BitVec.eq_of_toNat_eq ?_⟩
  · rw [splitLinear_dir_toNat, hsum]
    omega
  · rw [splitLinear_page_toNat, splitLinear_page_toNat, hsum]
    omega
  · show pageOffset _ = pageOffset _
    rw [pageOffset_eq, pageOffset_eq, hsum]
    omega

end Sys2Proof.Machine
end

section
/-!
Physical memory (spec/20_memory.md R31, R39): what a store leaves, byte by byte, and what reading it back gives.
-/

namespace Sys2Proof.Machine

/-- The value read back is the value stored, cut to the bytes stored. -/
theorem readLE_writeLE_toNat {m : Memory} (hm : Memory.wf m = true) {a n : Nat} (v : Word) (h : a + n ≤ spaceSize) :
    (readLE (writeLE m a n v) a n).toNat = v.toNat % 256 ^ n := by
  rw [show 256 ^ n = 2 ^ (8 * n) by rw [Nat.pow_mul]]
  refine Nat.eq_of_testBit_eq fun i => ?_
  rw [Nat.testBit_mod_two_pow, BitVec.testBit_toNat, BitVec.testBit_toNat]
  by_cases hi : i < 32
  · exact readLE_writeLE_bit hm a n v h i hi
  · rw [BitVec.getLsbD_of_ge _ _ (by omega), BitVec.getLsbD_of_ge _ _ (by omega), Bool.and_false]

/-- Settles O8: the bytes of a store (`writeLE_read_in`) and the value they make up (`readLE_writeLE_toNat`). -/
theorem storedValueReadsBack : Obligations.StoredValueReadsBack := fun _ a n v hm hfit _ =>
  ⟨writeLE_read_in hm a n v hfit, readLE_writeLE_toNat hm v hfit⟩

/-- Settles O9: a store writes its own bytes (`writeLE_read_out`), each in the canonical form (`writeLE_wf`). -/
theorem storeKeepsOtherBytesAndForm : Obligations.StoreKeepsOtherBytesAndForm := fun m a n v =>
  ⟨writeLE_read_out m a n v, fun hm hfit => writeLE_wf hm a n v hfit⟩

end Sys2Proof.Machine
end

section
/-!
What every step keeps (spec/10_state.md, spec/00_scope.md R6), and when the cache goes on agreeing with the tables
(spec/10_state.md R22). A step is a drop of cache lines and then an operation, so each fact is one about operations.
-/

namespace Sys2Proof.Machine

/-! ### Before the operation -/

/-- What comes before an operation keeps everything of a state but the mode and lines of the cache. -/
theorem beforeOp_control (O : Oracle) (m : Mode) (s : State) : SameControl (s.withMode m) (beforeOp O m s) := by
  obtain ⟨⟨hpg, hcr3, heax, -, hprogram, hplatform⟩, hindex, hqueue, hexception, hresults⟩ := (dropLines_keeps O s).control
  exact ⟨⟨hpg, hcr3, heax, rfl, hprogram, hplatform⟩, hindex, hqueue, hexception, hresults⟩

theorem beforeOp_mem (O : Oracle) (m : Mode) (s : State) : (beforeOp O m s).mem = s.mem := by
  show (dropLines O s).mem = s.mem
  cases h : s.tlb with
  | unknown => rw [dropLines_unknown O h]
  | known lines => rw [dropLines_known O h]; rfl

theorem beforeOp_wf (O : Oracle) (m : Mode) {s : State} (h : Tlb.wf s.tlb = true) :
    Tlb.wf (beforeOp O m s).tlb = true :=
  (dropLines_keeps O s).cacheWf h

theorem beforeOp_coherent (O : Oracle) (m : Mode) {s : State} (h : Coherent s) : Coherent (beforeOp O m s) :=
  (h.dropLines O).congr rfl rfl rfl rfl

/-! ### The operation -/

/-- No operation changes the operation list or a parameter. -/
theorem exec_program {i : Instr} {s t : State} (h : exec i s = .next t) :
    t.program = s.program ∧ t.platform = s.platform := by
  obtain h | ⟨-, b, -, rfl⟩ | ⟨v, -, rfl⟩ | ⟨-, -, v, -, rfl | rfl⟩ := exec_next h
  · exact ⟨h.regs.program, h.regs.platform⟩
  · simp
  · simp
  · simp [flush]
  · simp

/-- Every operation keeps the canonical forms of memory and cache, and the low bits of CR3 zero. -/
theorem exec_wf {i : Instr} {s t : State} (h : exec i s = .next t) :
    (Memory.wf s.mem = true → Memory.wf t.mem = true) ∧ (Tlb.wf s.tlb = true → Tlb.wf t.tlb = true) ∧
      (s.cr3.extractLsb' 0 12 = 0#12 → t.cr3.extractLsb' 0 12 = 0#12) := by
  obtain h | ⟨-, b, -, rfl⟩ | ⟨v, -, rfl⟩ | ⟨-, -, v, hv, rfl | rfl⟩ := exec_next h
  · exact ⟨h.memWf, h.cacheWf, fun hc => h.regs.cr3 ▸ hc⟩
  · simp
  · simp
  · simpa [flush, Tlb.wf, linesRiseFrom] using fun _ => hv
  · simpa using fun _ => hv

/-- Which operations change PG, CR3 and EAX, and in which mode. -/
theorem exec_registers {i : Instr} {s t : State} (h : exec i s = .next t) :
    (t.pg ≠ s.pg → (i = .setPg ∨ i = .clrPg) ∧ s.mode = .supervisor) ∧
    (t.cr3 ≠ s.cr3 → (i = .movCr3Eax ∨ ∃ img, i = .taskSwitch img) ∧ s.mode = .supervisor) ∧
    (t.eax ≠ s.eax → ∃ v, i = .loadEax v) := by
  obtain h | ⟨hm, b, hi, rfl⟩ | ⟨v, hi, rfl⟩ | ⟨hm, hi, v, -, rfl | rfl⟩ := exec_next h
  · exact ⟨fun hne => absurd h.regs.pg hne, fun hne => absurd h.regs.cr3 hne, fun hne => absurd h.regs.eax hne⟩
  · refine ⟨fun _ => ⟨?_, hm⟩, by simp, by simp⟩
    cases b
    · exact .inr hi
    · exact .inl hi
  · exact ⟨by simp, by simp, fun _ => ⟨v, hi⟩⟩
  · exact ⟨by simp [flush], fun _ => ⟨hi, hm⟩, by simp [flush]⟩
  · exact ⟨by simp, fun _ => ⟨hi, hm⟩, by simp⟩

/-! ### The step -/

/-- The operation a step executed is the one its slot decodes to. -/
theorem step_next_exec {s t : State} {slot : Slot} {i : Instr} (hslot : nextSlot s = some slot)
    (hi : decodeCode slot.code = .ok i) (h : step s = .next t) : exec i (beforeOp Config.choose slot.mode s) = .next t := by
  obtain ⟨slot', i', hslot', hi', -, hexec⟩ := step_next h
  obtain rfl : slot' = slot := Option.some.inj (hslot'.symm.trans hslot)
  obtain rfl : i' = i := Except.ok.inj (hi'.symm.trans hi)
  exact hexec

/-- Settles O12: the canonical forms and CR3 are kept by every operation (`exec_wf`), and an operation that was there to run
leaves the index within the list or just past it (`nextSlot_index`). -/
theorem stepKeepsInvariant : Obligations.StepKeepsInvariant := by
  intro s t ⟨hmem, htlb, hcr3, hindex⟩ hstep
  obtain ⟨slot, i, hslot, -, -, hexec⟩ := step_next hstep
  have hb := beforeOp_control Config.choose slot.mode s
  obtain ⟨kmem, ktlb, kcr3⟩ := exec_wf hexec
  have hprogram : t.program = s.program := (exec_program hexec).1.trans hb.regs.program
  refine ⟨kmem (by rwa [beforeOp_mem]), ktlb (beforeOp_wf _ _ htlb), kcr3 (by rwa [hb.regs.cr3]), ?_⟩
  rw [hprogram]
  rcases exec_index hexec with hi | hi
  · exact (hi.trans hb.index).trans_le hindex
  · exact (hi.trans (completeOp_place hb.index hb.handlerQueue).1).trans_le (nextSlot_index hslot hindex)

/-- Settles O13: neither the drop of lines nor an operation changes them (`exec_program`). -/
theorem programAndParametersNeverChange : Obligations.ProgramAndParametersNeverChange := by
  intro s t hstep
  obtain ⟨slot, i, -, -, -, hexec⟩ := step_next hstep
  have hb := (beforeOp_control Config.choose slot.mode s).regs
  obtain ⟨hprogram, hplatform⟩ := exec_program hexec
  exact ⟨hprogram.trans hb.program, hplatform.trans hb.platform⟩

/-- Settles O14: the operation a step runs is the one its slot decodes to, in the slot's mode (`exec_registers`). -/
theorem controlRegistersChangeOnlyByTheirOperations : Obligations.ControlRegistersChangeOnlyByTheirOperations := by
  intro s t slot i hslot hi hstep
  have hexec := step_next_exec hslot hi hstep
  have hb := (beforeOp_control Config.choose slot.mode s).regs
  obtain ⟨hpg, hcr3, heax⟩ := exec_registers hexec
  rw [hb.pg] at hpg
  rw [hb.cr3] at hcr3
  rw [hb.eax] at heax
  exact ⟨hpg, hcr3, heax⟩

/-! ### The agreement of the cache with the tables -/

theorem readLinear_coherent {O : Oracle} {lin : Word} {n : Nat} {s t : State} (hm : Memory.wf s.mem = true)
    (h : Coherent s) (ht : readLinear O lin n s = .next t) : Coherent t :=
  finish_coherent (k := fun v u => u.pushResult v) (access_load_coherent O lin n hm h)
    (fun _ _ => ⟨rfl, rfl, rfl, rfl⟩) ht

theorem writeLinear_coherent {lin v : Word} {n : Nat} {s t : State} (hm : Memory.wf s.mem = true) (h : Coherent s)
    (ha : StoresApart s lin n v) (ht : writeLinear Config.choose lin n v s = .next t) : Coherent t :=
  finish_coherent (access_store_coherent hm h ha) (fun _ _ => ⟨rfl, rfl, rfl, rfl⟩) ht

theorem Coherent.completed {s : State} (h : Coherent s) : Coherent (completeOp s) :=
  h.congr (completeOp_platform s) (completeOp_cr3 s) (completeOp_mem s) (completeOp_tlb s)

/-- A flush leaves no line that could disagree. -/
theorem flush_coherent (s : State) : Coherent (completeOp (flush s)) := coherent_empty (completeOp_tlb _)

/-- MOV CR3, EAX makes the cache agree with the tables, whatever it held. -/
theorem exec_movCr3Eax_coherent {s t : State} (h : exec .movCr3Eax s = .next t) : Coherent t := by
  obtain ⟨-, h⟩ := privileged_next h
  obtain ⟨-, h⟩ := loadCr3_next h
  cases h
  exact flush_coherent _

/-- TASK_SWITCH makes the cache agree with the tables where it flushes, and leaves it as it was where the image is CR3. -/
theorem exec_taskSwitch_coherent {s t : State} {img : Word} (h : exec (.taskSwitch img) s = .next t)
    (hs : img ≠ s.cr3 ∨ Coherent s) : Coherent t := by
  obtain ⟨-, h⟩ := privileged_next h
  obtain ⟨-, h⟩ := loadCr3_next h
  cases h
  split
  · exact flush_coherent _
  · next himg =>
    obtain rfl : img = s.cr3 := not_not.1 himg
    exact Coherent.completed ((hs.resolve_left himg).congr rfl rfl rfl rfl)

/-- An operation keeps the cache in agreement with the tables, but for stores to entries in use. -/
theorem exec_coherent {i : Instr} {s t : State} (h : exec i s = .next t) (hm : Memory.wf s.mem = true) (hs : Coherent s)
    (hw : ∀ lin n v, i = .write lin n v → StoresApart s lin n v)
    (hlw : ∀ sel off n v lin, i = .logicalWrite sel off n v → segTranslate s.platform sel off n .write s.mode = some lin →
      StoresApart s lin n v) : Coherent t := by
  cases i with
  | movCr3Eax => exact exec_movCr3Eax_coherent h
  | taskSwitch img => exact exec_taskSwitch_coherent h (.inr hs)
  | setPg => cases (privileged_next h).2; exact Coherent.completed (hs.congr rfl rfl rfl rfl)
  | clrPg => cases (privileged_next h).2; exact Coherent.completed (hs.congr rfl rfl rfl rfl)
  | loadEax v => cases h; exact Coherent.completed (hs.congr rfl rfl rfl rfl)
  | read lin n => exact readLinear_coherent hm hs h
  | fetch lin n => exact readLinear_coherent hm hs h
  | write lin n v => exact writeLinear_coherent hm hs (hw _ _ _ rfl) h
  | logicalRead sel off n => obtain ⟨lin, -, h⟩ := withLinear_next h; exact readLinear_coherent hm hs h
  | logicalWrite sel off n v =>
    obtain ⟨lin, hlin, h⟩ := withLinear_next h
    exact writeLinear_coherent hm hs (hlw _ _ _ _ _ rfl hlin) h

/-- Settles O40: a drop of lines keeps the agreement, every operation keeps it but for the stores the premises exclude
(`exec_coherent`), and a flush establishes it. -/
theorem onlyStoresToEntriesBreakCoherence : Obligations.OnlyStoresToEntriesBreakCoherence := by
  intro s t slot i hslot hi hstep hm hw hlw hs
  have hexec := step_next_exec hslot hi hstep
  have hb := (beforeOp_control Config.choose slot.mode s).regs
  rcases hs with rfl | ⟨img, rfl, himg⟩ | hs
  · exact exec_movCr3Eax_coherent hexec
  · exact exec_taskSwitch_coherent hexec (.inl (by rwa [hb.cr3]))
  · refine exec_coherent hexec (by rwa [beforeOp_mem]) (beforeOp_coherent _ _ hs) hw fun sel off n v lin hlog hlin => ?_
    rw [hb.platform] at hlin
    exact hlw sel off n v lin hlog hlin

end Sys2Proof.Machine
end

section
/-!
Reset, the operation list and the control operations (spec/70_reset_and_hazards.md R160, spec/10_state.md R12, R13,
spec/40_page_translation.md R71, R72, spec/41_translation_cache.md R106 to R108, spec/60_exceptions.md R147).
-/

namespace Sys2Proof.Machine

/-! ### Reset -/

/-- Settles O10: the fields of the state after reset, as its definition sets them. -/
theorem resetValues : Obligations.ResetValues := ⟨rfl, rfl, rfl, rfl, rfl, rfl, rfl, rfl, rfl, rfl⟩

/-- Settles O11: memory has nothing listed, the cache is unknown, CR3 and the index are 0. -/
theorem resetSatisfiesInvariant : Obligations.ResetSatisfiesInvariant := ⟨Memory.wf_nil, rfl, rfl, Nat.le_refl 0⟩

/-! ### Which operation is next -/

theorem nextSlot_handler {s : State} {c : Code} {rest : List Code} (h : s.handlerQueue = c :: rest) :
    nextSlot s = some ⟨.supervisor, c⟩ := by
  unfold nextSlot
  rw [h]

theorem nextSlot_list {s : State} (h : s.handlerQueue = []) : nextSlot s = s.program[s.index]? := by
  unfold nextSlot
  rw [h]

/-- The step of a well-formed operation is that operation, after what comes before every operation. -/
theorem step_of_decode {s : State} {slot : Slot} {i : Instr} (hslot : nextSlot s = some slot)
    (hi : decodeCode slot.code = .ok i) (hw : i.WellFormed) : step s = exec i (beforeOp Config.choose slot.mode s) := by
  simp only [step, hslot, hi, if_pos hw]

/-- Settles O15: what comes before the operation is the slot's mode and a drop, which leaves an unknown cache alone and of a
known one some lines, with one draw taken. -/
theorem stepRunsTheDecodedOperation : Obligations.StepRunsTheDecodedOperation := by
  intro s slot i hslot hi hw
  rw [step_of_decode hslot hi hw, beforeOp]
  cases htlb : s.tlb with
  | unknown =>
    refine ⟨.unknown, s.drawIdx, ?_, fun _ => rfl, nofun⟩
    rw [dropLines_unknown _ htlb, ← htlb]
    rfl
  | known m =>
    refine ⟨_, _, by rw [dropLines_known _ htlb]; rfl, nofun, fun m' hm' => ⟨_, rfl, ?_⟩⟩
    cases hm'
    exact keptLines_sublist _ m

/-- Settles O16: `nextSlot_handler` and `nextSlot_list`; past the end of the list there is no slot. -/
theorem nextOperationIsTheHandlersOrTheLists : Obligations.NextOperationIsTheHandlersOrTheLists := by
  refine fun s => ⟨fun _ _ => nextSlot_handler, nextSlot_list, fun hq hend => ?_⟩
  have hnone : nextSlot s = none := (nextSlot_list hq).trans (List.getElem?_eq_none hend)
  simp only [step, hnone]

/-- Settles O17: completing, inside the handler and outside it. -/
theorem completionAdvances : Obligations.CompletionAdvances :=
  fun _ => ⟨completeOp_list, fun _ _ => completeOp_handler⟩

/-- Code that is placed is what runs next, in the mode of the state, or in Supervisor mode in the handler. -/
theorem nextSlot_placeCode (s : State) (c : Code) :
    nextSlot (placeCode s c) = some ⟨if s.handlerQueue = [] then s.mode else .supervisor, c⟩ := by
  unfold placeCode
  cases hq : s.handlerQueue with
  | cons c' rest => exact nextSlot_handler rfl
  | nil =>
    dsimp only
    split
    · next hlt =>
      rw [nextSlot_list (by exact hq)]
      simp [hlt]
    · rw [nextSlot_list (by exact hq)]
      simp

/-- Settles O18: the bytes of the table's word are placed, and placed code runs next (`nextSlot_placeCode`). -/
theorem placedWordRunsNext : Obligations.PlacedWordRunsNext := fun s => nextSlot_placeCode s _

/-! ### The control operations -/

/-- Settles O19: Supervisor mode passes the check of both. -/
theorem pgOperationsComplete : Obligations.PgOperationsComplete := fun _ hm =>
  ⟨privileged_supervisor hm _, privileged_supervisor hm _⟩

/-- Settles O20: LOAD_EAX makes no check. -/
theorem loadEaxCompletes : Obligations.LoadEaxCompletes := fun _ _ => rfl

/-- Settles O21: Supervisor mode and the low bits of EAX pass the checks. -/
theorem movCr3EaxLoadsAndFlushes : Obligations.MovCr3EaxLoadsAndFlushes := fun _ hm hlow =>
  (privileged_supervisor hm _).trans (loadCr3_zero hlow _)

/-- In Supervisor mode TASK_SWITCH to an image with low bits zero loads it, and flushes where it differs from CR3. -/
theorem exec_taskSwitch {s : State} {img : Word} (hm : s.mode = .supervisor) (hlow : img.extractLsb' 0 12 = 0#12) :
    exec (.taskSwitch img) s =
      .next (completeOp (if img ≠ s.cr3 then flush (s.withCr3 img) else s.withCr3 img)) :=
  (privileged_supervisor hm _).trans (loadCr3_zero hlow _)

/-- Settles O22: the two cases of the comparison of the image with CR3 (`exec_taskSwitch`). -/
theorem taskSwitchLoadsAndFlushesIfDifferent : Obligations.TaskSwitchLoadsAndFlushesIfDifferent := by
  intro s img hm hlow
  rw [exec_taskSwitch hm hlow]
  constructor
  · intro hne
    rw [if_pos hne]
    rfl
  · rintro rfl
    rw [if_neg (not_not.2 rfl)]
    rfl

/-- Settles O23: User mode fails the check that each of them makes first. -/
theorem privilegedOperationsRefusedInUserMode : Obligations.PrivilegedOperationsRefusedInUserMode := fun _ _ hm =>
  ⟨privileged_user hm _, privileged_user hm _, privileged_user hm _, privileged_user hm _⟩

/-- Settles O24: Supervisor mode passes the first check, and the low bits fail the second. -/
theorem cr3LowBitsRefused : Obligations.Cr3LowBitsRefused := fun _ _ hm hlow =>
  ⟨(privileged_supervisor hm _).trans (loadCr3_nonzero hlow _),
    (privileged_supervisor hm _).trans (loadCr3_nonzero hlow _)⟩

/-! ### The page exception -/

/-- Settles O43: taken by the handler, or the fault. -/
theorem takingThePageException : Obligations.TakingThePageException := fun _ _ =>
  ⟨fun _ => takePageException_handled, takePageException_unhandled⟩

/-- Settles O44: taking the exception leaves the list and the index, so without the handler's operations the next slot is
the one it was. -/
theorem raisedOperationIsExecutedAgain : Obligations.RaisedOperationIsExecutedAgain := by
  intro info s t h
  obtain ⟨hq, ops, -, rfl⟩ := takePageException_next h
  exact ⟨hq, (nextSlot_list rfl).trans (nextSlot_list hq).symm⟩

end Sys2Proof.Machine
end

section
/-!
What a translation comes to (spec/40_page_translation.md R70 to R91, spec/41_translation_cache.md R101 to R111): an outcome
for each thing the walk or the cache may hold, and what it leaves of memory and of the cache.
-/

namespace Sys2Proof.Machine

/-! ### The outcomes of a walk -/

section
variable (ch : Draws) {lin : Word} (acc : Access) {s : State} {pde pte : PresentEntry}

/-- A walk whose PDE has P = 0. -/
theorem walk_directory_notPresent (hp : populatedAt s.platform (pdeAddr s.cr3 lin) 4 = true)
    (h0 : (physRead s.mem (pdeAddr s.cr3 lin) 4).getLsbD 0 = false) :
    walk ch lin acc s = .raise ⟨lin, acc, s.mode, .notPresent, .directory⟩ s := by
  simp only [walk, hp, if_true, decodeEntry_of_clear h0]

/-- A walk whose PDE is usable goes on to the table. -/
theorem walk_of_pde (hp : populatedAt s.platform (pdeAddr s.cr3 lin) 4 = true)
    (hd : decodeEntry (physRead s.mem (pdeAddr s.cr3 lin) 4) = .present pde) :
    walk ch lin acc s = walkTable ch lin acc (pdeAddr s.cr3 lin) pde s := by
  simp only [walk, hp, if_true, hd]

/-- A walk whose PTE has P = 0. -/
theorem walk_table_notPresent (h : PageNotPresent s lin pde) :
    walk ch lin acc s = .raise ⟨lin, acc, s.mode, .notPresent, .table⟩
      (s.withMem (markPdeOnRaise ch s.mem (pdeAddr s.cr3 lin))) := by
  obtain ⟨hp, hd, hp', h0⟩ := h
  rw [walk_of_pde ch acc hp hd]
  simp only [walkTable, hp', if_true, decodeEntry_of_clear h0]

/-- A walk that finds its entries and that protection does not permit. -/
theorem walk_denied (hr : WalkReads s lin pde pte) (hw : walkPermits s.platform pde pte acc s.mode = false) :
    walk ch lin acc s = .raise ⟨lin, acc, s.mode, .protection, .table⟩
      (s.withMem (markPteOnRaise ch (markPdeOnRaise ch s.mem (pdeAddr s.cr3 lin)) (pteAddr pde.frame lin))) := by
  rw [walk_of_reads hr, walkEnd, if_neg (Bool.eq_false_iff.1 hw)]

end

/-! ### The outcomes of a translation -/

theorem translate_done_effect {O : Oracle} {lin pa : Word} {acc : Access} {s t : State}
    (h : translate O lin acc s = .done pa t) : TranslationEffect s t lin := by
  have he := translate_effect O lin acc s
  rwa [h] at he

theorem translate_raise_effect {O : Oracle} {lin : Word} {acc : Access} {s t : State} {info : PageInfo}
    (h : translate O lin acc s = .raise info t) : TranslationEffect s t lin := by
  have he := translate_effect O lin acc s
  rwa [h] at he

/-- A translation that raises leaves lines of the cache that were there before. -/
theorem translate_raise_cache {O : Oracle} {lin : Word} {acc : Access} {s t : State} {info : PageInfo}
    {m : List TlbLine} (h : translate O lin acc s = .raise info t) (hm : CacheIs s m) :
    ∃ m', CacheIs t m' ∧ m'.Sublist m := by
  obtain ⟨-, m0, hm0, -, -, -, ht, -⟩ := translate_raise h
  obtain rfl : m0 = m := Tlb.known.inj (hm0.symm.trans hm)
  exact ⟨_, ht, keptLines_sublist _ m0⟩

/-- Settles O25: the identity of R70. -/
theorem pagingOffIsIdentity : Obligations.PagingOffIsIdentity := fun O lin acc _ hpg => translate_off O lin acc hpg

/-- Settles O27: a hit that the line does not permit raises in the state the drop leaves (`translate_hit_denied`). -/
theorem cachedProtectionRaises : Obligations.CachedProtectionRaises := fun O _ _ s m _ hpg hm hl hk hp =>
  ⟨droppedState O m s, translate_hit_denied hpg hm hl hk hp, SameControl.dropped O m s, droppedState_mem O m s, _,
    droppedState_tlb O m s, keptLines_sublist _ m⟩

/-- Settles O28: the one line of the page is not usable for a write. -/
theorem writeToCleanLineMisses : Obligations.WriteToCleanLineMisses := by
  intro lin s m l hpg hm hl hd
  refine ⟨hpg, hm, ?_⟩
  simp [hitLine, hl, lineUsable, hd]

/-- Settles O30: what a translation leaves of the entries (`EntriesKept`, R84). -/
theorem processorChangesOnlyAccessedAndDirty : Obligations.ProcessorChangesOnlyAccessedAndDirty := by
  intro O lin acc s t e hm he hend
  have heffect : TranslationEffect s t lin := by
    rcases hend with ⟨pa, h⟩ | ⟨info, h⟩
    · exact translate_done_effect h
    · exact translate_raise_effect h
  exact heffect.kept hm e he

/-- Settles O32: a miss walks (`translate_miss`), and the walk ends at the directory (`walk_directory_notPresent`). -/
theorem directoryNotPresentRaises : Obligations.DirectoryNotPresentRaises := fun O _ acc s m hmiss hp h0 =>
  ⟨droppedState O m s, (translate_miss O hmiss).trans (walk_directory_notPresent _ acc hp h0), SameControl.dropped O m s,
    droppedState_mem O m s, _, droppedState_tlb O m s, keptLines_sublist _ m⟩

/-- A miss whose PTE has P = 0. -/
theorem translate_table_notPresent (O : Oracle) {lin : Word} {acc : Access} {s : State} {m : List TlbLine}
    {pde : PresentEntry} (hmiss : Misses s lin acc m) (h : PageNotPresent s lin pde) :
    translate O lin acc s = .raise ⟨lin, acc, s.mode, .notPresent, .table⟩
      ((droppedState O m s).withMem (markPdeOnRaise (O (s.drawIdx + 1)) s.mem (pdeAddr s.cr3 lin))) :=
  (translate_miss O hmiss).trans (walk_table_notPresent (s := droppedState O m s) _ acc h)

/-- A miss that finds its entries and that protection does not permit. -/
theorem translate_walk_denied (O : Oracle) {lin : Word} {acc : Access} {s : State} {m : List TlbLine}
    {pde pte : PresentEntry} (hmiss : Misses s lin acc m) (hr : WalkReads s lin pde pte)
    (hw : walkPermits s.platform pde pte acc s.mode = false) :
    translate O lin acc s = .raise ⟨lin, acc, s.mode, .protection, .table⟩
      ((droppedState O m s).withMem (markPteOnRaise (O (s.drawIdx + 1))
        (markPdeOnRaise (O (s.drawIdx + 1)) s.mem (pdeAddr s.cr3 lin)) (pteAddr pde.frame lin))) :=
  (translate_miss O hmiss).trans (walk_denied (s := droppedState O m s) _ acc hr hw)

/-- Settles O33: the walk ends at the table (`translate_table_notPresent`), and R89 lets it write the PDE alone. -/
theorem tableNotPresentRaises : Obligations.TableNotPresentRaises := by
  intro O lin acc s m pde hmiss hp hd hp' h0
  have hraise := translate_table_notPresent O hmiss ⟨hp, hd, hp', h0⟩
  exact ⟨_, hraise, (translate_raise_effect hraise).control, translate_raise_cache hraise hmiss.2.1,
    fun a ha => markPdeOnRaise_read_out _ _ _ _ (entryHolds_false ha)⟩

/-- Settles O34: the walk ends at the protection check (`translate_walk_denied`), and its effect is that of a translation. -/
theorem walkProtectionRaises : Obligations.WalkProtectionRaises := by
  intro O lin acc s m pde pte hmiss hr hw
  have hraise := translate_walk_denied O hmiss hr hw
  have heffect := translate_raise_effect hraise
  exact ⟨_, hraise, heffect.control, translate_raise_cache hraise hmiss.2.1, heffect.out⟩

/-- Settles O37: nothing is in the cache to hit. -/
theorem translationAfterFlushWalks : Obligations.TranslationAfterFlushWalks := fun O lin acc s hpg =>
  ⟨rfl, _, translate_miss O (lin := lin) (acc := acc) (s := flush s) ⟨hpg, rfl, rfl⟩⟩

/-- Where a draw drops the line of the page, the access walks. -/
theorem translate_dropped {O : Oracle} {lin : Word} {acc : Access} {s : State} {m : List TlbLine} (hpg : s.pg = true)
    (hm : CacheIs s m) (hk : O s.drawIdx (.keepLine (vpnOf lin)) = false) :
    translate O lin acc s = walk (O (s.drawIdx + 1)) lin acc (droppedState O m s) := by
  rw [translate_on O lin acc hpg hm, hitOrWalk, hitLine_kept, hk]
  rfl

/-- A walk that succeeds, in the state a drop leaves: the tables updated, and the cache perhaps filled. -/
theorem walk_dropped_done (O : Oracle) (ch : Draws) {lin : Word} {acc : Access} {s : State} (m : List TlbLine)
    {pde pte : PresentEntry} (hw : WalkSucceeds s lin acc pde pte) :
    ∃ t, walk ch lin acc (droppedState O m s) = .done (physAddr pte.frame lin) t ∧
      t.mem = markUsed ch s.mem (pdeAddr s.cr3 lin) (pteAddr pde.frame lin) acc ∧
      t.tlb = fillLine ch (.known (keptLines (O s.drawIdx) m)) t.mem (pteAddr pde.frame lin) lin acc pde pte := by
  have hw' : WalkSucceeds (droppedState O m s) lin acc pde pte := hw
  exact ⟨_, walk_done hw' ch, rfl, rfl⟩

/-- Settles O38: a draw that keeps the line gives its frame, and a draw that drops it gives that of the tables. -/
theorem oldAndNewDataBothAdmitted : Obligations.OldAndNewDataBothAdmitted := by
  intro lin acc s m l pde pte hpg hm hl hp hw
  obtain ⟨t, ht, -⟩ := walk_dropped_done (fun _ _ => false) (fun _ => false) m hw
  exact ⟨⟨fun _ _ => true, _, translate_hit_permitted hpg hm hl rfl hp⟩,
    ⟨fun _ _ => false, t, (translate_dropped hpg hm rfl).trans ht⟩⟩

/-- Settles O41: each premise is one of the tests on the way. -/
theorem refusedTranslations : Obligations.RefusedTranslations := by
  intro O lin acc s hpg
  refine ⟨fun hu => by simp [translate, hpg, hu], fun m hmiss => ?_⟩
  rw [translate_miss O hmiss]
  refine ⟨fun hp => ?_, fun r hp hd => ?_, fun pde hp hd hp' => ?_, fun pde r hp hd hp' ht => ?_⟩
  · simp [walk, hp]
  · simp [walk, hp, hd]
  · simp [walk, hp, hd, walkTable, hp']
  · simp [walk, hp, hd, walkTable, hp', ht]

/-- Settles O42, case by case of the mode and the access. -/
theorem defaultProtection : Obligations.DefaultProtection := by
  rintro ⟨usD, rwD, usT, rwT, acc, mode⟩
  cases mode with
  | supervisor => simp [protPermits, standardProt]
  | user =>
    cases acc with
    | read => simp [protPermits, standardProt]
    | write => simp [protPermits, standardProt, and_assoc]

end Sys2Proof.Machine
end

section
/-!
The draws of a walk (spec/40_page_translation.md R83, R89): bit 6 of the PDE, and A of the entries of a walk that raises.
-/

namespace Sys2Proof.Machine

/-! ### One entry -/

/-- Setting A by a draw. -/
theorem orDrawn_accessed (w : Word) (b : Bool) :
    (w ||| (if b then accessedMask else 0#32)).getLsbD 5 = (w.getLsbD 5 || b) := by
  cases b
  · simp
  · rw [if_pos rfl, accessed_or, Bool.or_true]

/-- Setting A by a draw leaves D. -/
theorem orDrawn_dirty (w : Word) (b : Bool) : (w ||| (if b then accessedMask else 0#32)).getLsbD 6 = w.getLsbD 6 := by
  cases b
  · simp
  · exact dirty_or_accessed w

section
variable {m : Memory} {pdeAt pteAt : Word} (hm : Memory.wf m = true) (hd : pdeAt.toNat % 4 = 0)
include hm hd

/-- A and D of the PDE after a walk that raised at the PTE: A as it was or set, bit 6 drawn. -/
theorem markPdeOnRaise_pde (ch : Draws) :
    (physRead (markPdeOnRaise ch m pdeAt) pdeAt 4).getLsbD 5 = ((physRead m pdeAt 4).getLsbD 5 || ch .pdeAccessed) ∧
      (physRead (markPdeOnRaise ch m pdeAt) pdeAt 4).getLsbD 6 = ch .pdeBit6 := by
  rw [markPdeOnRaise, drawPdeBit6_same (orEntry_wf hm hd _) hd, orEntry_same hm hd, withBit6_accessed, withBit6_dirty]
  exact ⟨orDrawn_accessed _ _, rfl⟩

theorem markPdeOnRaise_wf (ch : Draws) : Memory.wf (markPdeOnRaise ch m pdeAt) = true :=
  drawPdeBit6_wf (orEntry_wf hm hd _) hd _

omit hm in
/-- The updates of a PDE leave every other entry alone. -/
theorem markPdeOnRaise_apart (ch : Draws) (ht : pteAt.toNat % 4 = 0) (hne : pteAt ≠ pdeAt) :
    physRead (markPdeOnRaise ch m pdeAt) pteAt 4 = physRead m pteAt 4 := by
  rw [markPdeOnRaise, drawPdeBit6_apart _ hd ht hne, orEntry_apart _ hd ht hne]

omit hd in
/-- A of the PTE after a walk that raised for protection: as it was or set; D is left. -/
theorem markPteOnRaise_pte (ch : Draws) (ht : pteAt.toNat % 4 = 0) :
    (physRead (markPteOnRaise ch m pteAt) pteAt 4).getLsbD 5 = ((physRead m pteAt 4).getLsbD 5 || ch .pteAccessed) ∧
      (physRead (markPteOnRaise ch m pteAt) pteAt 4).getLsbD 6 = (physRead m pteAt 4).getLsbD 6 := by
  rw [markPteOnRaise, orEntry_same hm ht]
  exact ⟨orDrawn_accessed _ _, orDrawn_dirty _ _⟩

/-- After a walk that succeeded bit 6 of the PDE is drawn, but for the PTE of a write. -/
theorem markUsed_pde_dirty (ht : pteAt.toNat % 4 = 0) (ch : Draws) {acc : Access} (h : ¬ (pdeAt = pteAt ∧ acc = .write)) :
    (physRead (markUsed ch m pdeAt pteAt acc) pdeAt 4).getLsbD 6 = ch .pdeBit6 := by
  rw [markUsed, if_neg h, drawPdeBit6_same (orEntry_wf (orEntry_wf hm hd _) ht _) hd, withBit6_dirty]

/-- The entries after a walk that raised for protection: bit 6 of the PDE drawn, A of each as it was or set; where the PTE
is the PDE, both draws of A are of the one entry. -/
theorem markBothOnRaise_bits (ht : pteAt.toNat % 4 = 0) (ch : Draws) :
    let m' := markPteOnRaise ch (markPdeOnRaise ch m pdeAt) pteAt
    (physRead m' pdeAt 4).getLsbD 6 = ch .pdeBit6 ∧
      (pdeAt ≠ pteAt →
        (physRead m' pdeAt 4).getLsbD 5 = ((physRead m pdeAt 4).getLsbD 5 || ch .pdeAccessed) ∧
        (physRead m' pteAt 4).getLsbD 5 = ((physRead m pteAt 4).getLsbD 5 || ch .pteAccessed)) ∧
      (pdeAt = pteAt →
        (physRead m' pdeAt 4).getLsbD 5 = ((physRead m pdeAt 4).getLsbD 5 || ch .pdeAccessed || ch .pteAccessed)) := by
  intro m'
  obtain ⟨hpdeA, hpdeD⟩ := markPdeOnRaise_pde hm hd ch
  obtain ⟨hpteA, hpteD⟩ := markPteOnRaise_pte (markPdeOnRaise_wf hm hd ch) ch ht
  by_cases heq : pdeAt = pteAt
  · subst heq
    exact ⟨hpteD.trans hpdeD, fun hne => absurd rfl hne, fun _ => by rw [hpteA, hpdeA]⟩
  · have hpde : physRead m' pdeAt 4 = physRead (markPdeOnRaise ch m pdeAt) pdeAt 4 := orEntry_apart _ ht hd heq _
    rw [hpde]
    refine ⟨hpdeD, fun _ => ⟨hpdeA, ?_⟩, fun h => absurd h heq⟩
    rw [hpteA, markPdeOnRaise_apart hd ch ht (Ne.symm heq)]

end

/-! ### Both values admitted -/

/-- The draws that give bit 6 of the PDE, A of the PDE and A of the PTE these values. -/
def drawsOf (b aD aT : Bool) : Draws
  | .pdeBit6 => b
  | .pdeAccessed => aD
  | .pteAccessed => aT
  | _ => false

theorem accessed_of_decode {w : Word} {e : PresentEntry} (h : decodeEntry w = .present e) : e.accessed = w.getLsbD 5 := by
  rw [(decodeEntry_present h).2.2.2]
  rfl

section
variable {lin : Word} {acc : Access} {s : State} {m : List TlbLine} {pde pte : PresentEntry}
  (hm : Memory.wf s.mem = true) (hmiss : Misses s lin acc m)
include hm hmiss

/-- After a walk that succeeds bit 6 of the PDE is drawn, but for the PTE of a write. -/
theorem translate_done_draws (ch : Draws) (hw : WalkSucceeds s lin acc pde pte)
    (h : ¬ (pdeAddr s.cr3 lin = pteAddr pde.frame lin ∧ acc = .write)) :
    ∃ t, translate (fun _ => ch) lin acc s = .done (physAddr pte.frame lin) t ∧
      (physRead t.mem (pdeAddr s.cr3 lin) 4).getLsbD 6 = ch .pdeBit6 := by
  obtain ⟨t, hdone, hmem⟩ := translate_miss_done (fun _ => ch) hmiss hw
  refine ⟨t, hdone, ?_⟩
  rw [hmem]
  exact markUsed_pde_dirty hm (pdeAddr_aligned _ _) (pteAddr_aligned _ _) ch h

/-- D of the PTE is set after a write, also where the PTE is the PDE. -/
theorem translate_write_dirty {O : Oracle} {pa : Word} {t : State} (hw : WalkSucceeds s lin acc pde pte)
    (hacc : acc = .write) (hdone : translate O lin acc s = .done pa t) :
    (physRead t.mem (pteAddr pde.frame lin) 4).getLsbD 6 = true := by
  obtain ⟨t', hdone', hmem⟩ := translate_miss_done O hmiss hw
  obtain ⟨-, rfl⟩ := Attempt.done.inj (hdone.symm.trans hdone')
  obtain ⟨⟨-, hpde, -, hpte⟩, -⟩ := hw
  obtain ⟨-, -, -, hD⟩ := markUsed_update hm (pdeAddr_aligned s.cr3 lin) (pteAddr_aligned pde.frame lin)
    (decodeEntry_present hpde).1 (O (s.drawIdx + 1)) acc (decodeEntry_present hpte).1
  rw [hmem]
  exact hD hacc

end

/-- Settles O31: the translation in which every draw is that of `drawsOf`, after each of the three outcomes of a walk that
used the PDE. -/
theorem pdeDirtyBitIsDrawn : Obligations.PdeDirtyBitIsDrawn := by
  intro lin acc s m pde hm hmiss
  have hd := pdeAddr_aligned s.cr3 lin
  refine ⟨fun pte hw => ⟨fun b hdrawn => ?_, fun heq hwrite O pa t hdone => ?_⟩, fun hnp b aD => ?_,
    fun pte hr hdenied b aD aT => ?_⟩
  · obtain ⟨t, hdone, hbit⟩ := translate_done_draws hm hmiss (drawsOf b false false) hw hdrawn
    exact ⟨_, _, t, hdone, hbit⟩
  · rw [heq]
    exact translate_write_dirty hm hmiss hw hwrite hdone
  · obtain ⟨hA, hD⟩ := markPdeOnRaise_pde hm hd (drawsOf b aD false)
    rw [accessed_of_decode hnp.2.1]
    exact ⟨_, _, _, translate_table_notPresent (fun _ => drawsOf b aD false) hmiss hnp, hD, hA⟩
  · rw [accessed_of_decode hr.2.1, accessed_of_decode hr.2.2.2]
    exact ⟨_, _, _, translate_walk_denied (fun _ => drawsOf b aD aT) hmiss hr hdenied,
      markBothOnRaise_bits hm hd (pteAddr_aligned pde.frame lin) (drawsOf b aD aT)⟩

/-! ### What a raise and a fill leave -/

/-- A walk that raises leaves D of a PTE that is not the PDE. -/
theorem translate_raise_pte_dirty {O : Oracle} {lin : Word} {acc : Access} {s t : State} {info : PageInfo}
    (h : translate O lin acc s = .raise info t) (hm : Memory.wf s.mem = true) {pde : PresentEntry}
    (hpde : decodeEntry (physRead s.mem (pdeAddr s.cr3 lin) 4) = .present pde)
    (hne : pteAddr pde.frame lin ≠ pdeAddr s.cr3 lin) :
    (physRead t.mem (pteAddr pde.frame lin) 4).getLsbD 6 = (physRead s.mem (pteAddr pde.frame lin) 4).getLsbD 6 := by
  have hd := pdeAddr_aligned s.cr3 lin
  have ht := pteAddr_aligned pde.frame lin
  obtain ⟨-, -, -, -, -, -, -, hmem | ⟨-, -, -, -, hmem⟩ | ⟨pde', -, ⟨-, hpde', -⟩, hmem⟩⟩ := translate_raise h
  · rw [hmem]
  · rw [hmem, markPdeOnRaise_apart hd _ ht hne]
  · obtain rfl : pde' = pde := EntryView.present.inj (hpde'.symm.trans hpde)
    rw [hmem, (markPteOnRaise_pte (markPdeOnRaise_wf hm hd _) _ ht).2, markPdeOnRaise_apart hd _ ht hne]

/-- Settles O35: the record (`translate_raise`), the frame of every translation (`TranslationEffect`), the lines
(`translate_raise_cache`) and D of the PTE (`translate_raise_pte_dirty`). -/
theorem raiseLeavesLittle : Obligations.RaiseLeavesLittle := by
  intro O lin acc s t info h
  have heffect := translate_raise_effect h
  obtain ⟨-, -, -, hlin, hacc, hmode, -⟩ := translate_raise h
  exact ⟨hlin, hacc, hmode, heffect.control, heffect.out, fun m hm => translate_raise_cache h hm,
    fun hm pde hpde hne => translate_raise_pte_dirty h hm hpde hne⟩

/-- A translation that gives an address after a walk passed protection. -/
theorem translate_miss_permits {O : Oracle} {lin pa : Word} {acc : Access} {s t : State} {m : List TlbLine}
    {pde pte : PresentEntry} (hmiss : Misses s lin acc m) (hr : WalkReads s lin pde pte)
    (h : translate O lin acc s = .done pa t) : walkPermits s.platform pde pte acc s.mode = true := by
  by_contra hw
  rw [translate_walk_denied O hmiss hr (Bool.eq_false_iff.2 hw)] at h
  cases h

/-- The cache after a walk that succeeds: lines that were there, and perhaps the line of the walk. -/
theorem translate_miss_cache {O : Oracle} {lin pa : Word} {acc : Access} {s t : State} {m : List TlbLine}
    {pde pte : PresentEntry} (hmiss : Misses s lin acc m) (hw : WalkSucceeds s lin acc pde pte)
    (h : translate O lin acc s = .done pa t) :
    ∃ m', CacheIs t m' ∧ ∀ l ∈ m', l ∈ m ∨ l = ⟨vpnOf lin, pte.frame, pde.us, pde.rw, pte.us, pte.rw,
      filledD (O (s.drawIdx + 1)) acc pte (physRead t.mem (pteAddr pde.frame lin) 4)⟩ := by
  obtain ⟨t', ht', -, htlb⟩ := walk_dropped_done O (O (s.drawIdx + 1)) m hw
  obtain ⟨-, rfl⟩ := Attempt.done.inj (h.symm.trans ((translate_miss O hmiss).trans ht'))
  obtain ⟨m', hm', hlines, -⟩ := fillLine_known (ch := O (s.drawIdx + 1)) (m := keptLines (O s.drawIdx) m)
    (mem := t.mem) (pteAt := pteAddr pde.frame lin) (lin := lin) (acc := acc) (pde := pde) (pte := pte)
  exact ⟨m', htlb.trans hm', fun l hl => (hlines l hl).imp_left fun hkept => (mem_keptLines.1 hkept).1⟩

/-- Settles O36: a line that was not there before is the line of the walk (`translate_miss_cache`), whose `d` is that of
R102. -/
theorem filledLineHoldsTheWalk : Obligations.FilledLineHoldsTheWalk := by
  intro O lin acc s t m pde pte pa hm hmiss hr h
  have hw : WalkSucceeds s lin acc pde pte := ⟨hr, translate_miss_permits hmiss hr h⟩
  obtain ⟨m', hm', hlines⟩ := translate_miss_cache hmiss hw h
  refine ⟨m', hm', fun l hl hnew => ?_⟩
  obtain rfl := (hlines l hl).resolve_left hnew
  refine ⟨rfl, rfl, rfl, rfl, rfl, rfl, fun hwrite => by simp [filledD, hwrite], fun hd => ?_⟩
  simp only [filledD, Bool.or_eq_true, Bool.and_eq_true, beq_iff_eq] at hd
  rcases hd with hwrite | ⟨⟨-, hD⟩, -⟩
  · exact translate_write_dirty hm hmiss hw hwrite h
  · exact hD

/-! ### A cache that agrees with the tables -/

/-- `r'` comes to what `r` comes to, but for the state and the level at which it was found. -/
def Attempt.SameReport (r r' : Attempt Word) : Prop :=
  (∀ pa t, r = .done pa t → ∃ t', r' = .done pa t') ∧
    (∀ info t, r = .raise info t → ∃ level t', r' = .raise { info with level := level } t')

theorem Attempt.SameReport.done (pa : Word) (t t' : State) : (Attempt.done pa t).SameReport (.done pa t') := by
  refine ⟨fun pa' u h => ?_, fun _ _ h => (nomatch h)⟩
  obtain ⟨rfl, -⟩ := Attempt.done.inj h
  exact ⟨t', rfl⟩

theorem Attempt.SameReport.raise (info : PageInfo) (level : Level) (t t' : State) :
    (Attempt.raise info t : Attempt Word).SameReport (.raise { info with level := level } t') := by
  refine ⟨fun _ _ h => (nomatch h), fun info' u h => ?_⟩
  obtain ⟨rfl, -⟩ := Attempt.raise.inj h
  exact ⟨level, t', rfl⟩

theorem Attempt.SameReport.refuse (e : Refusal) (r : Attempt Word) : (Attempt.refuse e : Attempt Word).SameReport r :=
  ⟨fun _ _ h => (nomatch h), fun _ _ h => (nomatch h)⟩

/-- What a walk comes to does not depend on its draws. -/
theorem walk_sameReport (ch ch' : Draws) (lin : Word) (acc : Access) {s s' : State} (hp : s'.platform = s.platform)
    (hcr3 : s'.cr3 = s.cr3) (hmem : s'.mem = s.mem) (hmode : s'.mode = s.mode) :
    (walk ch lin acc s).SameReport (walk ch' lin acc s') := by
  unfold walk
  rw [hp, hcr3, hmem, hmode]
  dsimp only
  split
  · split
    · exact .raise ⟨lin, acc, s.mode, .notPresent, .directory⟩ .directory _ _
    · exact .refuse _ _
    · unfold walkTable
      rw [hp, hmem, hmode]
      dsimp only
      split
      · split
        · exact .raise ⟨lin, acc, s.mode, .notPresent, .table⟩ .table _ _
        · exact .refuse _ _
        · unfold walkEnd
          rw [hp, hmode]
          split
          · exact .done _ _ _
          · exact .raise ⟨lin, acc, s.mode, .protection, .table⟩ .table _ _
      · exact .refuse _ _
  · exact .refuse _ _

/-- A line that agrees with the tables is what a walk of its page reads. -/
theorem LineAgrees.reads {s : State} {lin : Word} {l : TlbLine} (h : LineAgrees s l) (hv : l.vpn = vpnOf lin) :
    ∃ pde pte, WalkReads s lin pde pte ∧ l.frame = pte.frame ∧
      ∀ acc, linePermits s.platform l acc s.mode = walkPermits s.platform pde pte acc s.mode := by
  obtain ⟨pde, pte, hr, -, -, hframe, husD, hrwD, husT, hrwT, -⟩ := h
  rw [hv] at hr
  refine ⟨pde, pte, WalkReads.pageStart.1 hr, hframe, fun acc => ?_⟩
  rw [linePermits, walkPermits, husD, hrwD, husT, hrwT]

/-- With a line that agrees with the tables, a translation comes to what the line says, whether it hits or walks. -/
theorem translate_agreeing_line (O : Oracle) {lin : Word} {acc : Access} {s : State} {m : List TlbLine} {l : TlbLine}
    (hpg : s.pg = true) (hm : CacheIs s m) (hl : hitLine lin acc m = some l) (hagrees : LineAgrees s l) :
    (linePermits s.platform l acc s.mode = true → ∃ t, translate O lin acc s = .done (physAddr l.frame lin) t) ∧
    (linePermits s.platform l acc s.mode = false →
      ∃ level t, translate O lin acc s = .raise ⟨lin, acc, s.mode, .protection, level⟩ t) := by
  obtain ⟨pde, pte, hr, hframe, hpermits⟩ := hagrees.reads (hitLine_mem hl).2.1
  cases hk : O s.drawIdx (.keepLine (vpnOf lin)) with
  | true =>
    exact ⟨fun hp => ⟨_, translate_hit_permitted hpg hm hl hk hp⟩,
      fun hp => ⟨_, _, translate_hit_denied hpg hm hl hk hp⟩⟩
  | false =>
    rw [translate_dropped hpg hm hk, hpermits, hframe]
    refine ⟨fun hw => ?_, fun hw => ⟨_, _, walk_denied (s := droppedState O m s) _ acc hr hw⟩⟩
    obtain ⟨t, ht, -⟩ := walk_dropped_done O (O (s.drawIdx + 1)) m ⟨hr, hw⟩
    exact ⟨t, ht⟩

/-- Settles O39: with a line to hit, every draw comes to what the line says (`translate_agreeing_line`), and with none every
draw walks (`walk_sameReport`). -/
theorem coherentCacheIsInvisible : Obligations.CoherentCacheIsInvisible := by
  intro O O' lin acc s hc
  show (translate O lin acc s).SameReport (translate O' lin acc s)
  cases hpg : s.pg with
  | false =>
    rw [translate_off O lin acc hpg, translate_off O' lin acc hpg]
    exact .done lin s s
  | true =>
    cases hm : s.tlb with
    | unknown =>
      rw [(refusedTranslations O lin acc s hpg).1 hm]
      exact .refuse _ _
    | known m =>
      cases hl : hitLine lin acc m with
      | none =>
        rw [translate_miss O ⟨hpg, hm, hl⟩, translate_miss O' ⟨hpg, hm, hl⟩]
        exact walk_sameReport _ _ lin acc rfl rfl rfl rfl
      | some l =>
        have hagrees := hc m hm l (hitLine_mem hl).1
        obtain ⟨hdone, hraise⟩ := translate_agreeing_line O hpg hm hl hagrees
        obtain ⟨hdone', hraise'⟩ := translate_agreeing_line O' hpg hm hl hagrees
        cases hp : linePermits s.platform l acc s.mode with
        | true =>
          obtain ⟨t, ht⟩ := hdone hp
          obtain ⟨t', ht'⟩ := hdone' hp
          rw [ht, ht']
          exact .done _ t t'
        | false =>
          obtain ⟨level, t, ht⟩ := hraise hp
          obtain ⟨level', t', ht'⟩ := hraise' hp
          rw [ht, ht']
          exact .raise ⟨lin, acc, s.mode, .protection, level⟩ level' t t'

end Sys2Proof.Machine
end

section
/-!
READ, WRITE, FETCH and the logical forms as accesses (spec/40_page_translation.md R85 to R88, spec/42_segment_and_page.md
R120 to R122): how each form reduces to an access of its linear operand, and an operand in parts to its translations.
-/

namespace Sys2Proof.Machine

/-! ### The forms of an access -/

/-- READ, FETCH and LOGICAL_READ of a linear operand are one access. -/
theorem reads_of_readLinear {s : State} {lin : Word} {n : Nat} {r : Host.Outcome State Fault Refusal}
    (h : readLinear Config.choose lin n s = r) :
    exec (.read lin n) s = r ∧ exec (.fetch lin n) s = r ∧
      ∀ sel off, segTranslate s.platform sel off n .read s.mode = some lin → exec (.logicalRead sel off n) s = r :=
  ⟨h, h, fun _ _ hseg => (exec_logicalRead hseg).trans h⟩

/-- WRITE and LOGICAL_WRITE of a linear operand are one access. -/
theorem writes_of_writeLinear {s : State} {lin v : Word} {n : Nat} {r : Host.Outcome State Fault Refusal}
    (h : writeLinear Config.choose lin n v s = r) :
    exec (.write lin n v) s = r ∧
      ∀ sel off, segTranslate s.platform sel off n .write s.mode = some lin → exec (.logicalWrite sel off n v) s = r :=
  ⟨h, fun _ _ hseg => (exec_logicalWrite hseg).trans h⟩

/-- Whichever form of a read answered, it was the access of the linear operand. -/
theorem readLinear_of_reads {s t : State} {lin : Word} {n : Nat}
    (h : exec (.read lin n) s = .next t ∨ exec (.fetch lin n) s = .next t ∨
      ∃ sel off, segTranslate s.platform sel off n .read s.mode = some lin ∧ exec (.logicalRead sel off n) s = .next t) :
    readLinear Config.choose lin n s = .next t := by
  obtain h | h | ⟨sel, off, hseg, h⟩ := h
  · exact h
  · exact h
  · exact (exec_logicalRead hseg).symm.trans h

/-- Whichever form of a write answered, it was the access of the linear operand. -/
theorem writeLinear_of_writes {s t : State} {lin v : Word} {n : Nat}
    (h : exec (.write lin n v) s = .next t ∨
      ∃ sel off, segTranslate s.platform sel off n .write s.mode = some lin ∧ exec (.logicalWrite sel off n v) s = .next t) :
    writeLinear Config.choose lin n v s = .next t := by
  obtain h | ⟨sel, off, hseg, h⟩ := h
  · exact h
  · exact (exec_logicalWrite hseg).symm.trans h

/-- What an access that is done leaves of a state but memory, cache and draws. -/
theorem access_done_control {O : Oracle} {x : Transfer} {lin v : Word} {n : Nat} {s t : State}
    (h : access O x lin n s = .done v t) : SameControl s t := by
  have hkeeps := access_keeps O x lin n s
  rw [h] at hkeeps
  exact hkeeps.control

/-- Where a load is done, the reads complete and its value is the result. -/
theorem reads_of_done {s t : State} {lin v : Word} {n : Nat} (h : access Config.choose .load lin n s = .done v t) :
    ∃ t', exec (.read lin n) s = .next t' ∧ exec (.fetch lin n) s = .next t' ∧
      (∀ sel off, segTranslate s.platform sel off n .read s.mode = some lin →
        exec (.logicalRead sel off n) s = .next t') ∧
      SameRegisters s t' ∧ PlaceCompleted s t' ∧ t'.results = v :: s.results ∧ t'.mem = t.mem := by
  have hcontrol := access_done_control h
  obtain ⟨hread, hfetch, hlogical⟩ := reads_of_readLinear (readLinear_done h)
  refine ⟨_, hread, hfetch, hlogical, (hcontrol.regs.trans (SameRegisters.pushResult t v)).completed,
    PlaceCompleted.ofControlResult hcontrol v, ?_, completeOp_mem _⟩
  simp [hcontrol.results]

/-- Where a store is done, the writes complete in the memory it leaves. -/
theorem writes_of_done {s t : State} {lin v w : Word} {n : Nat} (h : access Config.choose (.store v) lin n s = .done w t) :
    ∃ t', exec (.write lin n v) s = .next t' ∧
      (∀ sel off, segTranslate s.platform sel off n .write s.mode = some lin →
        exec (.logicalWrite sel off n v) s = .next t') ∧
      SameRegisters s t' ∧ PlaceCompleted s t' ∧ t'.results = s.results ∧ t'.mem = t.mem := by
  have hcontrol := access_done_control h
  obtain ⟨hwrite, hlogical⟩ := writes_of_writeLinear (writeLinear_done h)
  exact ⟨_, hwrite, hlogical, hcontrol.regs.completed, PlaceCompleted.ofControl hcontrol,
    (completeOp_results t).trans hcontrol.results, completeOp_mem t⟩

theorem readLinear_raise {O : Oracle} {lin : Word} {n : Nat} {s t : State} {info : PageInfo}
    (h : access O .load lin n s = .raise info t) : readLinear O lin n s = takePageException info t := by
  rw [readLinear, h]
  rfl

theorem writeLinear_raise {O : Oracle} {lin v : Word} {n : Nat} {s t : State} {info : PageInfo}
    (h : access O (.store v) lin n s = .raise info t) : writeLinear O lin n v s = takePageException info t := by
  rw [writeLinear, h]
  rfl

theorem readLinear_refuse {O : Oracle} {lin : Word} {n : Nat} {s : State} {e : Refusal}
    (h : access O .load lin n s = .refuse e) : readLinear O lin n s = .refused e := by
  rw [readLinear, h]
  rfl

theorem writeLinear_refuse {O : Oracle} {lin v : Word} {n : Nat} {s : State} {e : Refusal}
    (h : access O (.store v) lin n s = .refuse e) : writeLinear O lin n v s = .refused e := by
  rw [writeLinear, h]
  rfl

/-- Settles O54: both are the one access. -/
theorem fetchIsRead : Obligations.FetchIsRead := fun _ _ _ => rfl

/-- A descriptor whose checks pass gives base plus offset. -/
theorem segTranslate_permitted {p : Platform} {sel : Selector} {off : Word} {n : Nat} {acc : Access} {mode : Mode}
    {d : Descriptor} (hd : descriptorOf sel p.segments = some d) (hp : segPermits d.check off n acc mode = true) :
    segTranslate p sel off n acc mode = some (d.base + off) := by
  simp only [segTranslate, hd, hp, if_true]

/-- Settles O59: the linear address that phase 1 gives (`segTranslate_permitted`) is the operand of phase 2. -/
theorem logicalAccessIsLinearAccessAtTheSum : Obligations.LogicalAccessIsLinearAccessAtTheSum := fun _ _ _ _ _ _ hd =>
  ⟨fun hp => exec_logicalRead (segTranslate_permitted hd hp), fun hp => exec_logicalWrite (segTranslate_permitted hd hp)⟩

/-! ### Refusals -/

theorem access_size_refused (O : Oracle) (x : Transfer) (lin : Word) {n : Nat} (s : State) (h : sizeAdmitted n = false) :
    access O x lin n s = .refuse .sizeNotAdmitted := by
  simp only [access, h, if_true]

theorem access_wrap_refused (O : Oracle) (x : Transfer) {lin : Word} {n : Nat} (s : State) (h : sizeAdmitted n = true)
    (hw : wrapsLinear lin n = true) : access O x lin n s = .refuse .linearWrap := by
  simp [access, h, hw]

theorem access_unpopulated_refused {O : Oracle} {x : Transfer} {lin pa : Word} {n : Nat} {s t : State}
    (ho : OperandAdmitted lin n) (hc : crossesPage lin n = false) (h : translate O lin x.acc s = .done pa t)
    (hp : populatedAt s.platform pa n = false) : access O x lin n s = .refuse .unpopulated := by
  have hplatform := (translate_done_effect h).control.regs.platform
  rw [access_within O x s ho hc, accessPart, h]
  simp [Attempt.andThen, transfer, hplatform, hp]

/-- A segment-level failure is refused before phase 2. -/
theorem withLinear_none (k : Word → Host.Outcome State Fault Refusal) :
    withLinear none k = .refused .segmentCheckNotInSource := rfl

/-- Settles O58: each refusal is that of one test of the access, or of phase 1. -/
theorem refusedOperands : Obligations.RefusedOperands := by
  intro s lin n v sel off
  refine ⟨fun hsize => ?_, fun hsize hwrap => ?_, fun hseg => ?_, fun hseg => ?_, fun ho hc pa t hp => ⟨fun h => ?_, fun h => ?_⟩⟩
  · have hread := readLinear_refuse (access_size_refused Config.choose .load lin s hsize)
    exact ⟨hread, hread, writeLinear_refuse (access_size_refused Config.choose (.store v) lin s hsize)⟩
  · have hwrap : wrapsLinear lin n = true := decide_eq_true hwrap
    have hread := readLinear_refuse (access_wrap_refused Config.choose .load s hsize hwrap)
    exact ⟨hread, hread, writeLinear_refuse (access_wrap_refused Config.choose (.store v) s hsize hwrap)⟩
  · show withLinear _ _ = _
    rw [hseg, withLinear_none]
  · show withLinear _ _ = _
    rw [hseg, withLinear_none]
  · have hread := readLinear_refuse (access_unpopulated_refused (x := .load) ho hc h hp)
    exact ⟨hread, hread⟩
  · exact writeLinear_refuse (access_unpopulated_refused (x := .store v) ho hc h hp)

/-! ### An operand within a page -/

section
variable {O : Oracle} {lin pa : Word} {n : Nat} {s t : State} {info : PageInfo} (ho : OperandAdmitted lin n)
  (hc : crossesPage lin n = false)
include ho hc

/-- A load within a page gives the bytes at the address that its translation gives. -/
theorem access_load_within (h : translate O lin .read s = .done pa t) (hp : populatedAt s.platform pa n = true) :
    access O .load lin n s = .done (physRead t.mem pa n) t := by
  have hp' : populatedAt t.platform pa n = true := by rwa [(translate_done_effect h).control.regs.platform]
  rw [access_within O .load s ho hc, accessPart_load (p := ⟨lin, n, 0⟩) h hp', Nat.mul_zero, BitVec.shiftLeft_zero]

/-- A store within a page stores at the address that its translation gives. -/
theorem access_store_within (v : Word) (h : translate O lin .write s = .done pa t)
    (hp : populatedAt s.platform pa n = true) :
    access O (.store v) lin n s = .done 0#32 (t.withMem (physWrite t.mem pa n v)) := by
  have hp' : populatedAt t.platform pa n = true := by rwa [(translate_done_effect h).control.regs.platform]
  exact (access_within O (.store v) s ho hc).trans (accessPart_store (p := ⟨lin, n, 0⟩) h hp')

/-- An access within a page raises where its translation does. -/
theorem access_within_raise {x : Transfer} (h : translate O lin x.acc s = .raise info t) :
    access O x lin n s = .raise info t := by
  rw [access_within O x s ho hc, accessPart, h]
  rfl

end

/-! ### An operand across a page boundary -/

/-- An operand across a page boundary is the access of its two parts in the drawn order. -/
theorem access_across_inOrder (x : Transfer) {lin : Word} {n : Nat} (s : State) (ho : OperandAdmitted lin n)
    (hc : crossesPage lin n = true) :
    access Config.choose x lin n s =
      accessOrdered Config.choose (Config.choose s.drawIdx .transferEarly) x (partsInOrder s lin n).1
        (partsInOrder s lin n).2 s.tick := by
  rw [access_across Config.choose x s ho hc, accessSplit, partsInOrder]
  split <;> rfl

/-- Of the two parts one comes first and the other second. -/
theorem partsInOrder_cases (s : State) (lin : Word) (n : Nat) :
    partsInOrder s lin n = (firstPart lin, secondPart lin n) ∨ partsInOrder s lin n = (secondPart lin n, firstPart lin) := by
  unfold partsInOrder
  split
  · exact .inr rfl
  · exact .inl rfl

/-- The state in which the second part is translated, by the draw of an early transfer. -/
def afterFirst (early : Bool) (x : Transfer) (p : Part) (pa : Word) (u : State) : State :=
  match x with
  | .load => u
  | .store v => if early then u.withMem (physWrite u.mem pa p.len (v >>> (8 * p.pos))) else u

theorem betweenParts_eq (s : State) (x : Transfer) (p : Part) (pa : Word) (u : State) :
    betweenParts s x p pa u = afterFirst (Config.choose s.drawIdx .transferEarly) x p pa u := rfl

theorem afterFirst_control (early : Bool) (x : Transfer) (p : Part) (pa : Word) (u : State) :
    SameControl u (afterFirst early x p pa u) := by
  cases x with
  | load => exact SameControl.refl u
  | store v =>
    cases early
    · exact SameControl.refl u
    · exact SameControl.withMem u _

theorem Attempt.andThen_of_done {α β : Type} {r : Attempt α} {f : α → State → Attempt β} {a : α} {s : State}
    (h : r = .done a s) : r.andThen f = f a s := by
  rw [h]
  rfl

theorem Attempt.andThen_of_raise {α β : Type} {r : Attempt α} {f : α → State → Attempt β} {info : PageInfo} {s : State}
    (h : r = .raise info s) : r.andThen f = .raise info s := by
  rw [h]
  rfl

theorem Attempt.andThen_of_refuse {α β : Type} {r : Attempt α} {f : α → State → Attempt β} {e : Refusal}
    (h : r = .refuse e) : r.andThen f = .refuse e := by
  rw [h]
  rfl

section
variable {O : Oracle} {early : Bool} {x : Transfer} {p q : Part} {s t u : State} {info : PageInfo} {pa : Word}

theorem accessPart_of_raise (h : translate O p.lin x.acc s = .raise info t) : accessPart O x p s = .raise info t :=
  Attempt.andThen_of_raise h

theorem accessOrdered_refuse_first {e : Refusal} (h : translate O p.lin x.acc s = .refuse e) :
    accessOrdered O early x p q s = .refuse e := by
  cases early
  · exact Attempt.andThen_of_refuse h
  · exact Attempt.andThen_of_refuse (Attempt.andThen_of_refuse h)

theorem accessOrdered_raise_first (h : translate O p.lin x.acc s = .raise info t) :
    accessOrdered O early x p q s = .raise info t := by
  cases early
  · exact Attempt.andThen_of_raise h
  · exact Attempt.andThen_of_raise (accessPart_of_raise h)

/-- A part that is transferred early leaves the state in which the second part is translated. -/
theorem accessPart_afterFirst (h : translate O p.lin x.acc s = .done pa u)
    (hpop : populatedAt s.platform pa p.len = true) :
    ∃ w, accessPart O x p s = .done w (afterFirst true x p pa u) := by
  have hpop' : populatedAt u.platform pa p.len = true := by rwa [(translate_done_effect h).control.regs.platform]
  cases x with
  | load => exact ⟨_, accessPart_load h hpop'⟩
  | store v => exact ⟨_, accessPart_store h hpop'⟩

/-- The second part raises in the state that the first part's translation, and its early transfer, leave. -/
theorem accessOrdered_raise_second (hp : translate O p.lin x.acc s = .done pa u)
    (hpop : early = true → populatedAt s.platform pa p.len = true)
    (hq : translate O q.lin x.acc (afterFirst early x p pa u) = .raise info t) :
    accessOrdered O early x p q s = .raise info t := by
  cases early with
  | false =>
    have hq' : translate O q.lin x.acc u = .raise info t := by cases x <;> exact hq
    exact (Attempt.andThen_of_done hp).trans (Attempt.andThen_of_raise hq')
  | true =>
    obtain ⟨w, hw⟩ := accessPart_afterFirst hp (hpop rfl)
    exact (Attempt.andThen_of_done hw).trans (Attempt.andThen_of_raise (accessPart_of_raise hq))

end

end Sys2Proof.Machine
end

section
/-!
Accesses that complete (spec/40_page_translation.md R85, R86, spec/41_translation_cache.md R105): with PG = 0, and within a
page, where the tables serve the access or a line of the cache does, stale or not.
-/

namespace Sys2Proof.Machine

/-! ### PG = 0 -/

section
variable {O : Oracle} {early : Bool} {p q : Part} {s : State} {v : Word} (hpg : s.pg = false)
  (hp : populatedAt s.platform p.lin p.len = true) (hq : populatedAt s.platform q.lin q.len = true)
include hpg hp hq

/-- With PG = 0 two parts of a load give their bytes, early or late. -/
theorem accessOrdered_load_off :
    accessOrdered O early .load p q s =
      .done (physRead s.mem p.lin p.len <<< (8 * p.pos) ||| physRead s.mem q.lin q.len <<< (8 * q.pos)) s := by
  have tp := translate_off O p.lin .read hpg
  have tq := translate_off O q.lin .read hpg
  cases early with
  | true => exact (Attempt.andThen_of_done (accessPart_load tp hp)).trans (Attempt.andThen_of_done (accessPart_load tq hq))
  | false =>
    exact (Attempt.andThen_of_done tp).trans ((Attempt.andThen_of_done tq).trans
      ((Attempt.andThen_of_done (transfer_done .load p hp)).trans (Attempt.andThen_of_done (transfer_done .load q hq))))

/-- With PG = 0 two parts of a store store their bytes, the first and then the second, early or late. -/
theorem accessOrdered_store_off :
    accessOrdered O early (.store v) p q s = .done (0#32 ||| 0#32)
      (s.withMem (physWrite (physWrite s.mem p.lin p.len (v >>> (8 * p.pos))) q.lin q.len (v >>> (8 * q.pos)))) := by
  have tp := translate_off O p.lin .write hpg
  cases early with
  | true =>
    have tq := translate_off O q.lin .write (s := s.withMem (physWrite s.mem p.lin p.len (v >>> (8 * p.pos)))) hpg
    exact (Attempt.andThen_of_done (accessPart_store tp hp)).trans (Attempt.andThen_of_done (accessPart_store tq hq))
  | false =>
    have tq := translate_off O q.lin .write hpg
    exact (Attempt.andThen_of_done tp).trans ((Attempt.andThen_of_done tq).trans
      ((Attempt.andThen_of_done (transfer_done (.store v) p hp)).trans
        (Attempt.andThen_of_done (transfer_done (.store v) q hq))))

end

section
variable {lin : Word} {n : Nat} (ho : OperandAdmitted lin n) (hc : crossesPage lin n = true)
include ho hc

/-- The two parts of an operand across a page boundary, with PG = 0, are its bytes. -/
theorem parts_populated {p : Platform} (h : populatedAt p lin n = true) :
    populatedAt p (firstPart lin).lin (firstPart lin).len = true ∧
      populatedAt p (secondPart lin n).lin (secondPart lin n).len = true := by
  obtain ⟨hlin, hlt, -, -⟩ := secondPart_lin ho hc
  exact ⟨populatedAt_part h (Nat.add_zero _).symm (by simp only [firstPart]; omega),
    populatedAt_part h hlin (by simp only [secondPart]; omega)⟩

/-- The bytes of an operand are those of its first part below those of its second. -/
theorem physRead_parts (m : Memory) :
    physRead m lin n = physRead m lin (bytesBefore lin) |||
      physRead m (secondPart lin n).lin (n - bytesBefore lin) <<< (8 * bytesBefore lin) := by
  obtain ⟨hlin, hlt, -, -⟩ := secondPart_lin ho hc
  simp only [physRead, hlin]
  rw [← readLE_split, Nat.add_sub_cancel' hlt.le]

/-- Stores of the two parts, in either order, are the store of the operand. -/
theorem physWrite_parts {m : Memory} (hm : Memory.wf m = true) (v : Word) :
    physWrite (physWrite m (secondPart lin n).lin (n - bytesBefore lin) (v >>> (8 * bytesBefore lin))) lin
        (bytesBefore lin) v = physWrite m lin n v ∧
      physWrite (physWrite m lin (bytesBefore lin) v) (secondPart lin n).lin (n - bytesBefore lin)
        (v >>> (8 * bytesBefore lin)) = physWrite m lin n v := by
  obtain ⟨hlin, hlt, -, -⟩ := secondPart_lin ho hc
  have hfit : lin.toNat + n ≤ spaceSize := by simpa [wrapsLinear] using ho.2
  have hsplit := writeLE_split hm lin.toNat (bytesBefore lin) (n - bytesBefore lin) v (by omega)
  rw [Nat.add_sub_cancel' hlt.le] at hsplit
  simpa only [physWrite, hlin] using hsplit

end

/-- With PG = 0 a load gives the bytes at the linear address. -/
theorem access_load_off {s : State} {lin : Word} {n : Nat} (hpg : s.pg = false) (ho : OperandAdmitted lin n)
    (hp : populatedAt s.platform lin n = true) :
    access Config.choose .load lin n s =
      .done (physRead s.mem lin n) (if crossesPage lin n then s.tick else s) := by
  cases hc : crossesPage lin n with
  | false =>
    rw [access_within _ _ s ho hc, accessPart_load (p := ⟨lin, n, 0⟩) (translate_off _ lin .read hpg) hp]
    simp
  | true =>
    obtain ⟨hp1, hp2⟩ := parts_populated ho hc hp
    rw [access_across_inOrder .load s ho hc, physRead_parts ho hc]
    obtain h | h := partsInOrder_cases s lin n <;> rw [h]
    · rw [accessOrdered_load_off (s := s.tick) hpg hp1 hp2]
      simp [firstPart, secondPart]
    · rw [accessOrdered_load_off (s := s.tick) hpg hp2 hp1, BitVec.or_comm]
      simp [firstPart, secondPart]

/-- With PG = 0 a store stores the value's bytes at the linear address. -/
theorem access_store_off {s : State} {lin : Word} {n : Nat} (v : Word) (hm : Memory.wf s.mem = true) (hpg : s.pg = false)
    (ho : OperandAdmitted lin n) (hp : populatedAt s.platform lin n = true) :
    ∃ w, access Config.choose (.store v) lin n s =
      .done w ((if crossesPage lin n then s.tick else s).withMem (physWrite s.mem lin n v)) := by
  cases hc : crossesPage lin n with
  | false =>
    rw [access_within _ _ s ho hc, accessPart_store (p := ⟨lin, n, 0⟩) (translate_off _ lin .write hpg) hp]
    exact ⟨_, rfl⟩
  | true =>
    obtain ⟨hp1, hp2⟩ := parts_populated ho hc hp
    obtain ⟨hw1, hw2⟩ := physWrite_parts ho hc hm v
    rw [access_across_inOrder (.store v) s ho hc]
    obtain h | h := partsInOrder_cases s lin n <;> rw [h]
    · rw [accessOrdered_store_off (s := s.tick) hpg hp1 hp2]
      exact ⟨_, congrArg (fun m => Attempt.done _ (s.tick.withMem m)) hw2⟩
    · rw [accessOrdered_store_off (s := s.tick) hpg hp2 hp1]
      exact ⟨_, congrArg (fun m => Attempt.done _ (s.tick.withMem m)) hw1⟩

/-- Settles O46: the identity translation takes the load to the linear address, in parts or not (`access_load_off`). -/
theorem readsCompleteWithPagingOff : Obligations.ReadsCompleteWithPagingOff := fun _ _ _ hpg ho hp =>
  reads_of_readLinear (readLinear_done (access_load_off hpg ho hp))

/-- Settles O47: the identity translation takes the store to the linear address, in parts or not (`access_store_off`). -/
theorem writesCompleteWithPagingOff : Obligations.WritesCompleteWithPagingOff := by
  intro s lin n v hm hpg ho hp
  obtain ⟨w, hw⟩ := access_store_off v hm hpg ho hp
  exact writes_of_writeLinear (writeLinear_done hw)

/-! ### Within a page, PG = 1 -/

/-- Settles O48: the ready translation gives the frame of the PTE (`translate_ready`), and the reads return the bytes there
(`access_load_within`). -/
theorem readsComplete : Obligations.ReadsComplete := by
  intro s lin n pde pte ho hc hready hp
  obtain ⟨t, ht, heffect⟩ := translate_ready Config.choose hready
  obtain ⟨t', hread, hfetch, hlogical, hregs, hplace, hresults, hmem⟩ := reads_of_done (access_load_within ho hc ht hp)
  exact ⟨t', hread, hfetch, hlogical, hregs, hplace, hmem ▸ hresults, hmem ▸ heffect.out⟩

/-- What a write within a page leaves in memory: the value's bytes, and every byte outside the entries and the operand. -/
theorem translate_store_bytes {s t : State} {lin pa : Word} {n : Nat} (v : Word) (heffect : TranslationEffect s t lin)
    (hm : Memory.wf s.mem = true) (hp : populatedAt s.platform pa n = true) :
    (∀ k, k < n → Memory.read (physWrite t.mem pa n v) (pa.toNat + k) = (v >>> (8 * k)).setWidth 8) ∧
      ∀ a, translationMayWrite s lin a = false → (a < pa.toNat ∨ pa.toNat + n ≤ a) →
        Memory.read (physWrite t.mem pa n v) a = Memory.read s.mem a :=
  ⟨writeLE_read_in (heffect.memWf hm) _ _ v (populatedAt_fits hp),
    fun a ha hout => (writeLE_read_out _ _ _ v a hout).trans (heffect.out a ha)⟩

/-- Settles O49: the ready translation gives the frame of the PTE (`translate_ready`), and the writes store the bytes there
(`access_store_within`, `translate_store_bytes`). -/
theorem writesComplete : Obligations.WritesComplete := by
  intro s lin n v pde pte hm ho hc hready hp
  obtain ⟨t, ht, heffect⟩ := translate_ready Config.choose hready
  obtain ⟨t', hwrite, hlogical, hregs, hplace, hresults, hmem⟩ := writes_of_done (access_store_within ho hc v ht hp)
  exact ⟨t', hwrite, hlogical, hregs, hplace, hresults, hmem ▸ translate_store_bytes v heffect hm hp⟩

/-- Where an access is served by a line, a translation hits it, and writes nothing, or walks. -/
theorem translate_stale_line (O : Oracle) {s : State} {lin : Word} {acc : Access} {m : List TlbLine} {l : TlbLine}
    {pde pte : PresentEntry} (hpg : s.pg = true) (hm : CacheIs s m) (hl : hitLine lin acc m = some l)
    (hpermits : linePermits s.platform l acc s.mode = true) (hw : WalkSucceeds s lin acc pde pte) :
    (∃ t, translate O lin acc s = .done (physAddr l.frame lin) t ∧ t.mem = s.mem) ∨
    (∃ t ch, translate O lin acc s = .done (physAddr pte.frame lin) t ∧
      t.mem = markUsed ch s.mem (pdeAddr s.cr3 lin) (pteAddr pde.frame lin) acc) := by
  cases hk : O s.drawIdx (.keepLine (vpnOf lin)) with
  | true => exact .inl ⟨_, translate_hit_permitted hpg hm hl hk hpermits, rfl⟩
  | false =>
    obtain ⟨t, ht, hmem, -⟩ := walk_dropped_done O (O (s.drawIdx + 1)) m hw
    exact .inr ⟨t, _, (translate_dropped hpg hm hk).trans ht, hmem⟩

/-- A store apart from the entries of a walk that succeeded leaves A of both and D of a write's PTE set. -/
theorem markUsed_store_bits {s : State} {lin pa : Word} {n : Nat} {pde pte : PresentEntry} (ch : Draws) (v : Word)
    (hm : Memory.wf s.mem = true) (hw : WalkSucceeds s lin .write pde pte) (hapart : ApartFromWalk s lin pde pa n) :
    let m := physWrite (markUsed ch s.mem (pdeAddr s.cr3 lin) (pteAddr pde.frame lin) .write) pa n v
    (physRead m (pdeAddr s.cr3 lin) 4).getLsbD 5 = true ∧ (physRead m (pteAddr pde.frame lin) 4).getLsbD 5 = true ∧
      (physRead m (pteAddr pde.frame lin) 4).getLsbD 6 = true := by
  intro m
  obtain ⟨⟨-, hpde, -, hpte⟩, -⟩ := hw
  obtain ⟨-, hpdeA, hpteA, hpteD⟩ := markUsed_update hm (pdeAddr_aligned s.cr3 lin) (pteAddr_aligned pde.frame lin)
    (decodeEntry_present hpde).1 ch .write (decodeEntry_present hpte).1
  rw [show physRead m (pdeAddr s.cr3 lin) 4 = _ from physRead_physWrite_apart _ _ _ _ _ _ hapart.1,
    show physRead m (pteAddr pde.frame lin) 4 = _ from physRead_physWrite_apart _ _ _ _ _ _ hapart.2]
  exact ⟨hpdeA, hpteA, hpteD rfl⟩

/-- Settles O51: the access uses the line, or it walks (`translate_stale_line`), and completes as an access within a page. -/
theorem accessesCompleteWithStaleLine : Obligations.AccessesCompleteWithStaleLine := by
  intro s lin n m l pde pte ho hc hpg hm hpl hpt
  refine ⟨fun hl hpermits hw => ?_, fun hwf hl hpermits hw v => ?_⟩
  · obtain ⟨t, ht, htmem⟩ | ⟨t, ch, ht, -⟩ := translate_stale_line Config.choose hpg hm hl hpermits hw
    · obtain ⟨t', hread, hfetch, hlogical, hregs, hplace, hresults, hmem⟩ := reads_of_done (access_load_within ho hc ht hpl)
      exact ⟨t', hread, hfetch, hlogical, hregs, hplace, .inl ⟨hmem.trans htmem, htmem ▸ hresults⟩⟩
    · obtain ⟨t', hread, hfetch, hlogical, hregs, hplace, hresults, hmem⟩ := reads_of_done (access_load_within ho hc ht hpt)
      exact ⟨t', hread, hfetch, hlogical, hregs, hplace,
        .inr ⟨hmem ▸ hresults, hmem ▸ (translate_done_effect ht).out⟩⟩
  · obtain ⟨t, ht, htmem⟩ | ⟨t, ch, ht, htmem⟩ := translate_stale_line Config.choose hpg hm hl hpermits hw
    · obtain ⟨t', hwrite, hlogical, hregs, hplace, hresults, hmem⟩ := writes_of_done (access_store_within ho hc v ht hpl)
      exact ⟨t', hwrite, hlogical, hregs, hplace, hresults, .inl (htmem ▸ hmem)⟩
    · obtain ⟨t', hwrite, hlogical, hregs, hplace, hresults, hmem⟩ := writes_of_done (access_store_within ho hc v ht hpt)
      obtain ⟨hbytes, hout⟩ := translate_store_bytes v (translate_done_effect ht) hwf hpt
      refine ⟨t', hwrite, hlogical, hregs, hplace, hresults, .inr ⟨hmem ▸ hbytes, hmem ▸ hout, fun hapart => ?_⟩⟩
      rw [hmem, htmem]
      exact (markUsed_store_bits ch v hwf hw hapart).2.2

end Sys2Proof.Machine
end

section
/-!
Operands across a page boundary (spec/40_page_translation.md R88, 41_translation_cache.md R105): both parts served, in either
order and with an early or a late transfer, and the entries that a store which walks leaves marked (R80, R81).
-/

namespace Sys2Proof.Machine

section
variable {lin : Word} {n : Nat} (ho : OperandAdmitted lin n) (hc : crossesPage lin n = true)
include ho hc

/-- The second part starts its page. -/
theorem secondPart_pageOffset : pageOffset (secondPart lin n).lin = 0 := by
  obtain ⟨hlin, -, -, hsum⟩ := secondPart_lin ho hc
  rw [pageOffset_eq] at hsum ⊢
  omega

/-- The bytes of the two parts lie apart, whatever their frames: the first end their frame, the second start theirs. -/
theorem parts_disjoint (f1 f2 : Frame) :
    (physAddr f1 lin).toNat + bytesBefore lin ≤ (physAddr f2 (secondPart lin n).lin).toNat ∨
      (physAddr f2 (secondPart lin n).lin).toNat + (n - bytesBefore lin) ≤ (physAddr f1 lin).toNat := by
  obtain ⟨-, hlt, hn, hsum⟩ := secondPart_lin ho hc
  rw [physAddr_toNat, physAddr_toNat, secondPart_pageOffset ho hc]
  omega

end

/-! ### Loads -/

/-- A load both of whose parts are served completes for every draw, with the bytes of the parts where these lie apart from
the entries. -/
theorem access_load_served {s : State} {lin : Word} {n : Nat} {pde1 pte1 pde2 pte2 : PresentEntry}
    (hm : Memory.wf s.mem = true) (hwf : Tlb.wf s.tlb = true) (ho : OperandAdmitted lin n) (hc : crossesPage lin n = true)
    (hs1 : AccessServed s lin .read pde1 pte1) (hs2 : AccessServed s (secondPart lin n).lin .read pde2 pte2)
    (hp1 : ∀ f, MayUseFrame s lin .read pte1 f → populatedAt s.platform (physAddr f lin) (bytesBefore lin) = true)
    (hp2 : ∀ f, MayUseFrame s (secondPart lin n).lin .read pte2 f →
      populatedAt s.platform (physAddr f (secondPart lin n).lin) (n - bytesBefore lin) = true) :
    ∃ v t f1 f2, access Config.choose .load lin n s = .done v t ∧
      MayUseFrame s lin .read pte1 f1 ∧ MayUseFrame s (secondPart lin n).lin .read pte2 f2 ∧
      (PartsApart s lin n pde1 pde2 f1 f2 →
        v = physRead s.mem (physAddr f1 lin) (bytesBefore lin) |||
          physRead s.mem (physAddr f2 (secondPart lin n).lin) (n - bytesBefore lin) <<< (8 * bytesBefore lin)) := by
  have hne := parts_pages ho hc
  rw [access_across_inOrder .load s ho hc]
  generalize Config.choose s.drawIdx .transferEarly = early
  obtain h | h := partsInOrder_cases s lin n <;> rw [h]
  · obtain ⟨v, t, f1, f2, hdone, -, hf1, hf2, hv⟩ := accessOrdered_load_served Config.choose early
      (p := firstPart lin) (q := secondPart lin n) (s := s.tick) hm hwf hne hs1 hs2 hp1 hp2
    refine ⟨v, t, f1, f2, hdone, hf1, hf2, fun ⟨h11, h12, h21, h22⟩ => ?_⟩
    simpa [firstPart, secondPart] using hv h11 h12 h21 h22
  · obtain ⟨v, t, f2, f1, hdone, -, hf2, hf1, hv⟩ := accessOrdered_load_served Config.choose early
      (p := secondPart lin n) (q := firstPart lin) (s := s.tick) hm hwf hne.symm hs2 hs1 hp2 hp1
    refine ⟨v, t, f1, f2, hdone, hf1, hf2, fun ⟨h11, h12, h21, h22⟩ => ?_⟩
    rw [BitVec.or_comm]
    simpa [firstPart, secondPart] using hv h22 h21 h12 h11

/-- Settles O52: the access of both parts completes (`access_load_served`), and its value is the result. -/
theorem readsAcrossPagesComplete : Obligations.ReadsAcrossPagesComplete := by
  rintro s lin n pde1 pte1 pde2 pte2 ⟨hm, hwf, -, -⟩ ho hc hs1 hs2 hp1 hp2
  obtain ⟨v, t, f1, f2, hdone, hf1, hf2, hv⟩ := access_load_served hm hwf ho hc hs1 hs2 hp1 hp2
  obtain ⟨t', hread, hfetch, hlogical, hregs, hplace, hresults, -⟩ := reads_of_done hdone
  exact ⟨t', v, f1, f2, hread, hfetch, hlogical, hregs, hplace, hresults, hf1, hf2, hv⟩

/-! ### Stores -/

/-- Settles O53: in either order of the parts the access completes and leaves their bytes (`accessOrdered_store_bytes`). -/
theorem writesAcrossPagesComplete : Obligations.WritesAcrossPagesComplete := by
  rintro s lin n v pde1 pte1 pde2 pte2 ⟨hm, hwf, -, -⟩ ho hc hs1 hs2 hp1 hp2 hapart
  have hne := parts_pages ho hc
  have hdisjoint := parts_disjoint ho hc
  have haccess := access_across_inOrder (.store v) s ho hc
  generalize Config.choose s.drawIdx .transferEarly = early at haccess
  obtain h | h := partsInOrder_cases s lin n <;> rw [h] at haccess
  · obtain ⟨w, t, f1, f2, hdone, -, hf1, hf2, hb1, hb2, hout⟩ := accessOrdered_store_bytes Config.choose early
      (p := firstPart lin) (q := secondPart lin n) (s := s.tick) v hm hwf hne hs1 hs2 hp1 hp2
      (fun f hf => (hapart f pte2.frame hf (.inl rfl)).2.1) hdisjoint
    obtain ⟨t', hwrite, hlogical, hregs, hplace, hresults, hmem⟩ :=
      writes_of_done (haccess.trans hdone)
    refine ⟨t', f1, f2, hwrite, hlogical, hregs, hplace, hresults, hf1, hf2, ?_⟩
    rw [hmem]
    exact ⟨fun k hk => by simpa [firstPart] using hb1 k hk, hb2, hout⟩
  · obtain ⟨w, t, f2, f1, hdone, -, hf2, hf1, hb2, hb1, hout⟩ := accessOrdered_store_bytes Config.choose early
      (p := secondPart lin n) (q := firstPart lin) (s := s.tick) v hm hwf hne.symm hs2 hs1 hp2 hp1
      (fun f hf => (hapart pte1.frame f (.inl rfl) hf).2.2.1) (fun g2 g1 => (hdisjoint g1 g2).symm)
    obtain ⟨t', hwrite, hlogical, hregs, hplace, hresults, hmem⟩ :=
      writes_of_done (haccess.trans hdone)
    refine ⟨t', f1, f2, hwrite, hlogical, hregs, hplace, hresults, hf1, hf2, ?_⟩
    rw [hmem]
    exact ⟨fun k hk => by simpa [firstPart] using hb1 k hk, hb2, fun a ha1 ha2 h1 h2 => hout a ha2 ha1 h2 h1⟩

/-! ### The entries of a store that walks -/

/-- In the memory `m` A of both entries of the walk for `lin` is set, and D of its PTE, but for a PTE that is the PDE of the
walk for `other` (40_page_translation.md R80, R81, R83). -/
def EntriesMarked (m : Memory) (cr3 lin : Word) (pde : PresentEntry) (other : Word) : Prop :=
  (physRead m (pdeAddr cr3 lin) 4).getLsbD 5 = true ∧ (physRead m (pteAddr pde.frame lin) 4).getLsbD 5 = true ∧
    (pteAddr pde.frame lin ≠ pdeAddr cr3 other → (physRead m (pteAddr pde.frame lin) 4).getLsbD 6 = true)

/-- A store apart from the entries leaves them marked. -/
theorem EntriesMarked.store {m : Memory} {cr3 lin other pa : Word} {n : Nat} {pde : PresentEntry}
    (h : EntriesMarked m cr3 lin pde other) (hd : ApartFrom pa n (pdeAddr cr3 lin))
    (ht : ApartFrom pa n (pteAddr pde.frame lin)) (v : Word) : EntriesMarked (physWrite m pa n v) cr3 lin pde other := by
  unfold EntriesMarked
  rw [physRead_physWrite_apart m pa _ v n 4 hd, physRead_physWrite_apart m pa _ v n 4 ht]
  exact h

/-- The translation of the other address leaves them marked: A is never cleared, and D in no entry but its PDE. -/
theorem EntriesMarked.translated {u t : State} {lin other : Word} {pde : PresentEntry}
    (h : EntriesMarked u.mem u.cr3 lin pde other) (hm : Memory.wf u.mem = true) (he : TranslationEffect u t other) :
    EntriesMarked t.mem u.cr3 lin pde other := by
  obtain ⟨hpdeA, hpteA, hpteD⟩ := h
  exact ⟨(he.kept hm _ (pdeAddr_aligned _ _)).2.1 hpdeA, (he.kept hm _ (pteAddr_aligned _ _)).2.1 hpteA,
    fun hne => he.dirty hm _ (pteAddr_aligned _ _) hne (hpteD hne)⟩

/-- A translation for a write that walks marks its entries. -/
theorem translate_write_marks {O : Oracle} {s t : State} {lin pa : Word} {m : List TlbLine} {pde pte : PresentEntry}
    (hm : Memory.wf s.mem = true) (hmiss : Misses s lin .write m) (hw : WalkSucceeds s lin .write pde pte)
    (h : translate O lin .write s = .done pa t) (other : Word) : EntriesMarked t.mem s.cr3 lin pde other := by
  obtain ⟨t', ht', hpdeA, hpteA, hpteD, -⟩ := walkSetsAccessedAndDirty O lin .write s m pde pte hm hmiss hw
  obtain ⟨-, rfl⟩ := Attempt.done.inj (h.symm.trans ht')
  exact ⟨hpdeA, hpteA, fun _ => hpteD rfl⟩

/-- Two parts of a store, both served and apart from the entries of both walks: the store completes, and each part that
misses leaves its entries marked. -/
theorem accessOrdered_store_marks (O : Oracle) (early : Bool) {p q : Part} {s : State} (v : Word)
    {pde1 pte1 pde2 pte2 : PresentEntry} (hm : Memory.wf s.mem = true) (hwf : Tlb.wf s.tlb = true)
    (hne : vpnOf p.lin ≠ vpnOf q.lin)
    (hr1 : AccessServed s p.lin .write pde1 pte1) (hr2 : AccessServed s q.lin .write pde2 pte2)
    (hp1 : ∀ f, MayUseFrame s p.lin .write pte1 f → populatedAt s.platform (physAddr f p.lin) p.len = true)
    (hp2 : ∀ f, MayUseFrame s q.lin .write pte2 f → populatedAt s.platform (physAddr f q.lin) q.len = true)
    (ha1 : ∀ f, MayUseFrame s p.lin .write pte1 f →
      ApartFromWalk s p.lin pde1 (physAddr f p.lin) p.len ∧ ApartFromWalk s q.lin pde2 (physAddr f p.lin) p.len)
    (ha2 : ∀ f, MayUseFrame s q.lin .write pte2 f →
      ApartFromWalk s p.lin pde1 (physAddr f q.lin) q.len ∧ ApartFromWalk s q.lin pde2 (physAddr f q.lin) q.len) :
    ∃ w t, accessOrdered O early (.store v) p q s = .done w t ∧
      (∀ m, Misses s p.lin .write m → EntriesMarked t.mem s.cr3 p.lin pde1 q.lin) ∧
      (∀ m, Misses s q.lin .write m → EntriesMarked t.mem s.cr3 q.lin pde2 p.lin) := by
  obtain ⟨f1, s1, u, f2, s2, w, t, hf1, hf2, t1, e1, hu, t2, e2, -, hdone, -, hmem⟩ :=
    accessOrdered_store_served O early v hm hwf hne hr1 hr2 hp1 hp2 fun f hf => (ha1 f hf).2
  obtain ⟨hp1d, hp1t⟩ := (ha1 f1 hf1).1
  obtain ⟨hq1d, hq1t⟩ := (ha1 f1 hf1).2
  obtain ⟨hp2d, hp2t⟩ := (ha2 f2 hf2).1
  obtain ⟨hq2d, hq2t⟩ := (ha2 f2 hf2).2
  have hm1 := e1.memWf hm
  have hcr3 : s1.cr3 = s.cr3 := e1.control.regs.cr3
  have hstored := physWrite_wf hm1 (physAddr f1 p.lin) (v >>> (8 * p.pos)) p.len (populatedAt_fits (hp1 f1 hf1))
  have hu3 : u.cr3 = s.cr3 := by rcases hu with rfl | rfl <;> exact hcr3
  have hum : Memory.wf u.mem = true := by
    rcases hu with rfl | rfl
    · exact hm1
    · exact hstored
  refine ⟨w, t, hdone, fun m hmiss => ?_, fun m hmiss => ?_⟩
  · have hmarked := translate_write_marks hm hmiss hr1.2.1 t1 q.lin
    have hmarkedU : EntriesMarked u.mem u.cr3 p.lin pde1 q.lin := by
      rw [hu3]
      rcases hmem with ⟨-, hmu⟩ | ⟨-, hmu⟩ <;> rw [hmu]
      · exact hmarked.store hp1d hp1t _
      · exact hmarked
    have hmarked2 := hmarkedU.translated hum e2
    rw [hu3] at hmarked2
    rcases hmem with ⟨hmt, -⟩ | ⟨hmt, -⟩ <;> rw [hmt]
    · exact hmarked2.store hp2d hp2t _
    · exact (hmarked2.store hp1d hp1t _).store hp2d hp2t _
  · obtain ⟨pde2', pte2', hr2', hframe, -⟩ := hr2.after hwf e1 hm hne
    obtain ⟨m', hmiss'⟩ := hmiss.after hwf e1 hne
    have hmarked2 : EntriesMarked s2.mem s.cr3 q.lin pde2 p.lin := by
      have happly : WalkSucceeds u q.lin .write pde2' pte2' ∧ Misses u q.lin .write m' := by
        rcases hu with rfl | rfl
        · exact ⟨hr2'.2.1, hmiss'⟩
        · have hapart : ApartFromWalk s1 q.lin pde2' (physAddr f1 p.lin) p.len := by
            rw [ApartFromWalk, hcr3, hframe]
            exact ⟨hq1d, hq1t⟩
          exact ⟨(hr2'.store hapart _).1.2.1, hmiss'⟩
      have hmarked := translate_write_marks hum happly.2 happly.1 t2 p.lin
      rwa [EntriesMarked, hu3, hframe] at hmarked
    rcases hmem with ⟨hmt, -⟩ | ⟨hmt, -⟩ <;> rw [hmt]
    · exact hmarked2.store hq2d hq2t _
    · exact (hmarked2.store hq1d hq1t _).store hq2d hq2t _

/-- A write within a page that walks leaves A of both entries and D of the PTE set. -/
theorem writes_within_marks {s : State} {lin v : Word} {n : Nat} {m : List TlbLine} {pde pte : PresentEntry}
    (hm : Memory.wf s.mem = true) (ho : OperandAdmitted lin n) (hc : crossesPage lin n = false)
    (hmiss : Misses s lin .write m) (hw : WalkSucceeds s lin .write pde pte)
    (hp : populatedAt s.platform (physAddr pte.frame lin) n = true)
    (hapart : ApartFromWalk s lin pde (physAddr pte.frame lin) n) :
    ∃ t, exec (.write lin n v) s = .next t ∧
      (∀ sel off, segTranslate s.platform sel off n .write s.mode = some lin →
        exec (.logicalWrite sel off n v) s = .next t) ∧
      (physRead t.mem (pdeAddr s.cr3 lin) 4).getLsbD 5 = true ∧
      (physRead t.mem (pteAddr pde.frame lin) 4).getLsbD 5 = true ∧
      (physRead t.mem (pteAddr pde.frame lin) 4).getLsbD 6 = true := by
  obtain ⟨t, ht, htmem⟩ := translate_miss_done Config.choose hmiss hw
  obtain ⟨t', hwrite, hlogical, -, -, -, hmem⟩ := writes_of_done (access_store_within ho hc v ht hp)
  refine ⟨t', hwrite, hlogical, ?_⟩
  rw [hmem, htmem]
  exact markUsed_store_bits _ v hm hw hapart

/-- Settles O50: within a page (`writes_within_marks`), and across a page boundary in either order of the parts
(`accessOrdered_store_marks`). -/
theorem writeThatWalksLeavesDirtySet : Obligations.WriteThatWalksLeavesDirtySet := by
  refine ⟨fun s lin n v m pde pte hm ho hc => writes_within_marks hm ho hc, ?_⟩
  rintro s lin n v pde1 pte1 pde2 pte2 ⟨hm, hwf, -, -⟩ ho hc hs1 hs2 hp1 hp2 hapart
  have hne := parts_pages ho hc
  have haccess := access_across_inOrder (.store v) s ho hc
  generalize Config.choose s.drawIdx .transferEarly = early at haccess
  have ha1 := fun f hf => hapart f pte2.frame hf (.inl rfl)
  have ha2 := fun f hf => hapart pte1.frame f (.inl rfl) hf
  obtain h | h := partsInOrder_cases s lin n <;> rw [h] at haccess
  · obtain ⟨w, t, hdone, hmarked1, hmarked2⟩ := accessOrdered_store_marks Config.choose early
      (p := firstPart lin) (q := secondPart lin n) (s := s.tick) v hm hwf hne hs1 hs2 hp1 hp2
      (fun f hf => ⟨(ha1 f hf).1, (ha1 f hf).2.1⟩) (fun f hf => (ha2 f hf).2.2)
    obtain ⟨t', hwrite, hlogical, -, -, -, hmem⟩ :=
      writes_of_done (haccess.trans hdone)
    exact ⟨t', hwrite, hlogical, hmem ▸ hmarked1, hmem ▸ hmarked2⟩
  · obtain ⟨w, t, hdone, hmarked2, hmarked1⟩ := accessOrdered_store_marks Config.choose early
      (p := secondPart lin n) (q := firstPart lin) (s := s.tick) v hm hwf hne.symm hs2 hs1 hp2 hp1
      (fun f hf => (ha2 f hf).2.2.symm) (fun f hf => ⟨(ha1 f hf).2.1, (ha1 f hf).1⟩)
    obtain ⟨t', hwrite, hlogical, -, -, -, hmem⟩ :=
      writes_of_done (haccess.trans hdone)
    exact ⟨t', hwrite, hlogical, hmem ▸ hmarked1, hmem ▸ hmarked2⟩

end Sys2Proof.Machine
end

section
/-!
The page exception of a memory operation (spec/60_exceptions.md R140, R145, spec/40_page_translation.md R88), and what every
memory operation leaves, completed or taking the exception.
-/

namespace Sys2Proof.Machine

/-! ### The operand, or the part of it, that raises -/

/-- Where the translation of an operand or of a part of it raises, the access raises, in the same state. -/
theorem OperandRaises.access {s t : State} {x : Transfer} {lin at_ : Word} {n : Nat} {info : PageInfo}
    (ho : OperandAdmitted lin n) (h : OperandRaises s x lin n at_ info t) :
    access Config.choose x lin n s = .raise info t := by
  unfold OperandRaises at h
  split at h
  · next hc =>
    rw [access_across_inOrder x s ho hc]
    obtain ⟨-, hp⟩ | ⟨-, pa, u, hp, hpop, hq⟩ := h
    · exact accessOrdered_raise_first hp
    · rw [betweenParts_eq] at hq
      exact accessOrdered_raise_second hp hpop hq
  · next hc => exact access_within_raise ho (by simpa using hc) h.2

theorem translate_raise_record {O : Oracle} {lin : Word} {acc : Access} {s t : State} {info : PageInfo}
    (h : translate O lin acc s = .raise info t) : info = ⟨lin, acc, s.mode, info.cause, info.level⟩ := by
  obtain ⟨-, -, -, rfl, rfl, hmode, -⟩ := translate_raise h
  rw [← hmode]

/-- The record has the linear address of the part, the access and the mode. -/
theorem OperandRaises.record {s t : State} {x : Transfer} {lin at_ : Word} {n : Nat} {info : PageInfo}
    (h : OperandRaises s x lin n at_ info t) : info = ⟨at_, x.acc, s.mode, info.cause, info.level⟩ := by
  unfold OperandRaises at h
  split at h
  · obtain ⟨rfl, hp⟩ | ⟨rfl, pa, u, hp, -, hq⟩ := h
    · exact translate_raise_record (s := s.tick) hp
    · have hmode : (betweenParts s x (partsInOrder s lin n).1 pa u).mode = s.mode :=
        (afterFirst_control _ x _ pa u).regs.mode.trans (translate_done_effect hp).control.regs.mode
      rw [← hmode]
      exact translate_raise_record hq
  · obtain ⟨rfl, h⟩ := h
    exact translate_raise_record h

/-! ### A part that is not present -/

section
variable {O : Oracle} {early : Bool} {x : Transfer} {p q : Part} {s : State} {m : List TlbLine} {pde2 : PresentEntry}

/-- The first part is not present: the access raises there. -/
theorem accessOrdered_notPresent_first (hmiss : Misses s q.lin x.acc m) (hnp : PageNotPresent s q.lin pde2) :
    ∃ t, SameControl s t ∧
      accessOrdered O early x q p s = .raise ⟨q.lin, x.acc, s.mode, .notPresent, .table⟩ t := by
  have hraise := translate_table_notPresent O hmiss hnp
  exact ⟨_, (translate_raise_effect hraise).control, accessOrdered_raise_first hraise⟩

/-- A page that is not present stays so after the first part, where a store of that lies apart from its entries. -/
theorem PageNotPresent.afterFirst {u : State} {pa : Word} (hnp : PageNotPresent u q.lin pde2)
    (hapart : ∀ v, x = .store v → ApartFromWalk u q.lin pde2 pa p.len) :
    PageNotPresent (afterFirst early x p pa u) q.lin pde2 := by
  cases x with
  | load => exact hnp
  | store v =>
    cases early
    · exact hnp
    · exact hnp.store (hapart v rfl) _

theorem Misses.afterFirst {u : State} {pa : Word} {acc : Access} (hmiss : Misses u q.lin acc m) :
    Misses (afterFirst early x p pa u) q.lin acc m := by
  cases x with
  | load => exact hmiss
  | store v => cases early <;> exact hmiss

/-- The second part is not present and the first is ready: the access raises at the second. -/
theorem accessOrdered_notPresent_second {pde1 pte1 : PresentEntry} (hm : Memory.wf s.mem = true)
    (hwf : Tlb.wf s.tlb = true) (hne : vpnOf p.lin ≠ vpnOf q.lin) (hready : AccessReady s p.lin x.acc pde1 pte1)
    (hpop : populatedAt s.platform (physAddr pte1.frame p.lin) p.len = true) (hmiss : Misses s q.lin x.acc m)
    (hnp : PageNotPresent s q.lin pde2)
    (hapart : ∀ v, x = .store v → ApartFromWalk s q.lin pde2 (physAddr pte1.frame p.lin) p.len) :
    ∃ t, SameControl s t ∧
      accessOrdered O early x p q s = .raise ⟨q.lin, x.acc, s.mode, .notPresent, .table⟩ t := by
  obtain ⟨u, hu, heffect⟩ := translate_ready O hready
  obtain ⟨m', hmiss'⟩ := hmiss.after hwf heffect hne
  obtain ⟨pde2', hnp', hframe⟩ := hnp.kept heffect.control.regs.platform heffect.control.regs.cr3 (heffect.kept hm)
  have hapart' : ∀ v, x = .store v → ApartFromWalk u q.lin pde2' (physAddr pte1.frame p.lin) p.len := fun v hx => by
    rw [ApartFromWalk, heffect.control.regs.cr3, hframe]
    exact hapart v hx
  have hbetween := afterFirst_control early x p (physAddr pte1.frame p.lin) u
  have hraise := translate_table_notPresent O (hmiss'.afterFirst (early := early) (x := x) (p := p)
    (pa := physAddr pte1.frame p.lin)) (hnp'.afterFirst hapart')
  have hmode := hbetween.regs.mode.trans heffect.control.regs.mode
  rw [hmode] at hraise
  exact ⟨_, (heffect.control.trans hbetween).trans (translate_raise_effect hraise).control,
    accessOrdered_raise_second hu (fun _ => hpop) hraise⟩

end

/-- For every draw the access of an operand one part of which is not present and the other ready raises at the part that is
not present. -/
theorem access_notPresent {x : Transfer} {s : State} {lin : Word} {n : Nat} {p q : Part} {m : List TlbLine}
    {pde1 pte1 pde2 : PresentEntry} (hm : Memory.wf s.mem = true) (hwf : Tlb.wf s.tlb = true)
    (ho : OperandAdmitted lin n) (hc : crossesPage lin n = true)
    (hparts : (p = firstPart lin ∧ q = secondPart lin n) ∨ (p = secondPart lin n ∧ q = firstPart lin))
    (hready : AccessReady s p.lin x.acc pde1 pte1)
    (hpop : populatedAt s.platform (physAddr pte1.frame p.lin) p.len = true) (hmiss : Misses s q.lin x.acc m)
    (hnp : PageNotPresent s q.lin pde2)
    (hapart : ∀ v, x = .store v → ApartFromWalk s q.lin pde2 (physAddr pte1.frame p.lin) p.len) :
    ∃ t, SameControl s t ∧
      access Config.choose x lin n s = .raise ⟨q.lin, x.acc, s.mode, .notPresent, .table⟩ t := by
  have hne : vpnOf p.lin ≠ vpnOf q.lin := by
    obtain ⟨rfl, rfl⟩ | ⟨rfl, rfl⟩ := hparts
    · exact parts_pages ho hc
    · exact (parts_pages ho hc).symm
  have horder : partsInOrder s lin n = (p, q) ∨ partsInOrder s lin n = (q, p) := by
    obtain ⟨rfl, rfl⟩ | ⟨rfl, rfl⟩ := hparts
    · exact partsInOrder_cases s lin n
    · exact (partsInOrder_cases s lin n).symm
  rw [access_across_inOrder x s ho hc]
  obtain h | h := horder <;> rw [h]
  · obtain ⟨t, hcontrol, ht⟩ := accessOrdered_notPresent_second (O := Config.choose) (s := s.tick) hm hwf hne hready hpop
      hmiss hnp hapart
    exact ⟨t, (SameControl.tick s).trans hcontrol, ht⟩
  · obtain ⟨t, hcontrol, ht⟩ := accessOrdered_notPresent_first (O := Config.choose) (p := p) (s := s.tick) hmiss hnp
    exact ⟨t, (SameControl.tick s).trans hcontrol, ht⟩

/-- Settles O45: the access raises where a translation does (`OperandRaises.access`, `OperandRaises.record`), and for every
draw at the part that is not present (`access_notPresent`). -/
theorem raisingAccessTakesTheException : Obligations.RaisingAccessTakesTheException := by
  refine ⟨fun s t lin n v at_ info ho => ⟨fun h => ?_, fun h => ?_⟩, ?_⟩
  · exact ⟨h.record, reads_of_readLinear (readLinear_raise (h.access ho))⟩
  · exact ⟨h.record, writes_of_writeLinear (writeLinear_raise (h.access ho))⟩
  · rintro s lin n v p q m pde1 pte1 pde2 ⟨hm, hwf, -, -⟩ ho hc hparts hpop hnp
    refine ⟨fun hready hmiss => ?_, fun hready hmiss hapart => ?_⟩
    · obtain ⟨t, hcontrol, ht⟩ := access_notPresent (x := .load) hm hwf ho hc hparts hready hpop hmiss hnp nofun
      exact ⟨t, hcontrol, reads_of_readLinear (readLinear_raise ht)⟩
    · obtain ⟨t, hcontrol, ht⟩ := access_notPresent (x := .store v) hm hwf ho hc hparts hready hpop hmiss hnp
        fun _ _ => hapart
      exact ⟨t, hcontrol, writes_of_writeLinear (writeLinear_raise ht)⟩

/-! ### The frames -/

/-- What `finish` leaves of memory is what the access left. -/
theorem finish_mem {r : Attempt Word} {k : Word → State → State} {t : State} {P : Memory → Prop}
    (h : finish r k = .next t) (hk : ∀ v u, (k v u).mem = u.mem) (hr : r.Ends fun u => P u.mem) : P t.mem := by
  obtain ⟨v, u, rfl, rfl⟩ | ⟨info, u, ops, rfl, rfl, -⟩ := finish_next h
  · rw [completeOp_mem, hk]
    exact hr
  · exact hr

/-- The place, the results and the record after a memory operation that took the exception. -/
theorem access_raise_frame {O : Oracle} {x : Transfer} {lin : Word} {n : Nat} {s u : State} {info : PageInfo}
    (h : access O x lin n s = .raise info u) (ops : List Code) :
    let t := (u.withException info).withQueue ops
    SameRegisters s t ∧ t.results = s.results ∧ t.index = s.index ∧
      ∃ info, t.exception = some info ∧ info.acc = x.acc ∧ info.mode = s.mode ∧
        (info.lin = lin ∨ (crossesPage lin n = true ∧ info.lin = (secondPart lin n).lin)) := by
  have hkeeps := access_keeps O x lin n s
  rw [h] at hkeeps
  obtain ⟨⟨hregs, hindex, -, -, hresults⟩, -, -⟩ := hkeeps
  exact ⟨hregs.trans ⟨rfl, rfl, rfl, rfl, rfl, rfl⟩, hresults, hindex, info, rfl, access_raise h⟩

/-- The registers, the place, the results and the record after a read. -/
theorem readLinear_frame {O : Oracle} {lin : Word} {n : Nat} {s t : State} (h : readLinear O lin n s = .next t) :
    SameRegisters s t ∧
      ((PlaceCompleted s t ∧ ∃ v, t.results = v :: s.results) ∨
        (t.results = s.results ∧ t.index = s.index ∧
          ∃ info, t.exception = some info ∧ info.acc = .read ∧ info.mode = s.mode ∧
            (info.lin = lin ∨ (crossesPage lin n = true ∧ info.lin = (secondPart lin n).lin)))) := by
  obtain ⟨v, u, hdone, rfl⟩ | ⟨info, u, ops, hraise, rfl, -⟩ := finish_next h
  · have hcontrol := access_done_control hdone
    refine ⟨(hcontrol.regs.trans (SameRegisters.pushResult u v)).completed,
      .inl ⟨PlaceCompleted.ofControlResult hcontrol v, v, ?_⟩⟩
    simp [hcontrol.results]
  · obtain ⟨hregs, hframe⟩ := access_raise_frame hraise ops
    exact ⟨hregs, .inr hframe⟩

/-- The registers, the place, the results and the record after a write. -/
theorem writeLinear_frame {O : Oracle} {lin v : Word} {n : Nat} {s t : State} (h : writeLinear O lin n v s = .next t) :
    SameRegisters s t ∧ t.results = s.results ∧
      (PlaceCompleted s t ∨
        (t.index = s.index ∧
          ∃ info, t.exception = some info ∧ info.acc = .write ∧ info.mode = s.mode ∧
            (info.lin = lin ∨ (crossesPage lin n = true ∧ info.lin = (secondPart lin n).lin)))) := by
  obtain ⟨w, u, hdone, rfl⟩ | ⟨info, u, ops, hraise, rfl, -⟩ := finish_next h
  · have hcontrol := access_done_control hdone
    exact ⟨hcontrol.regs.completed, (completeOp_results u).trans hcontrol.results,
      .inl (PlaceCompleted.ofControl hcontrol)⟩
  · obtain ⟨hregs, hresults, hframe⟩ := access_raise_frame hraise ops
    exact ⟨hregs, hresults, .inr hframe⟩

/-- Settles O55: the frame of a read (`readLinear_frame`), and the bytes outside the entries of the translations of its parts
(`access_load_keeps`). -/
theorem readFrame : Obligations.ReadFrame := by
  intro s t lin n hm h
  have h := readLinear_of_reads h
  obtain ⟨hregs, hframe⟩ := readLinear_frame h
  refine ⟨hregs, hframe, fun a ha ha' => ?_⟩
  exact finish_mem (k := fun v u => u.pushResult v) (P := fun m => Memory.read m a = Memory.read s.mem a) h
    (fun _ _ => rfl) ((access_load_keeps Config.choose lin n hm).mono fun u hu => hu.out a ⟨ha, ha'⟩)

/-- A write that answers a next state was of an operand that is admitted. -/
theorem writeLinear_admitted {O : Oracle} {lin v : Word} {n : Nat} {s t : State} (h : writeLinear O lin n v s = .next t) :
    OperandAdmitted lin n := by
  cases hsize : sizeAdmitted n with
  | false =>
    rw [writeLinear_refuse (access_size_refused O (.store v) lin s hsize)] at h
    cases h
  | true =>
    cases hwrap : wrapsLinear lin n with
    | true =>
      rw [writeLinear_refuse (access_wrap_refused O (.store v) s hsize hwrap)] at h
      cases h
    | false => exact ⟨hsize, hwrap⟩

/-! One byte `a` that a store leaves alone. -/

section
variable {O : Oracle} {v : Word} {p q : Part} {s : State} {a : Nat}

/-- A translation leaves a byte that it may not write. -/
theorem translate_byte {lin : Word} (h : translationMayWrite s lin a = false) :
    (translate O lin .write s).Ends fun t => Memory.read t.mem a = Memory.read s.mem a :=
  (translate_effect O lin .write s).mono fun _ he => he.out a h

/-- The transfer of a part leaves a byte outside it. -/
theorem transfer_byte {pa : Word} (h : a < pa.toNat ∨ pa.toNat + p.len ≤ a) :
    (transfer (.store v) p pa s).Ends fun t => Memory.read t.mem a = Memory.read s.mem a := by
  obtain h' | ⟨-, ⟨hx, -⟩ | ⟨v', -, h'⟩⟩ := transfer_cases (.store v) p pa s
  · rw [h']
    trivial
  · cases hx
  · rw [h']
    exact writeLE_read_out _ _ _ _ _ h

/-- An early transfer that is not refused leaves the state in which the second part is translated. -/
theorem transfer_afterFirst {pa : Word} :
    (transfer (.store v) p pa s).Ends fun t => t = afterFirst true (.store v) p pa s := by
  obtain h' | ⟨-, ⟨hx, -⟩ | ⟨v', hx, h'⟩⟩ := transfer_cases (.store v) p pa s
  · rw [h']
    trivial
  · cases hx
  · cases hx
    rw [h']
    rfl

/-- The early transfer of the first part leaves a byte outside it. -/
theorem afterFirst_byte (early : Bool) {pa : Word} (h : a < pa.toNat ∨ pa.toNat + p.len ≤ a) :
    Memory.read (afterFirst early (.store v) p pa s).mem a = Memory.read s.mem a := by
  cases early
  · rfl
  · exact writeLE_read_out _ _ _ _ _ h

/-- A part that is translated and stored leaves a byte that its translation may not write and that lies outside the address
it gives. -/
theorem accessPart_byte (hp : translationMayWrite s p.lin a = false)
    (hout : ∀ pa u, translate O p.lin .write s = .done pa u → a < pa.toNat ∨ pa.toNat + p.len ≤ a) :
    (accessPart O (.store v) p s).Ends fun t => Memory.read t.mem a = Memory.read s.mem a := by
  have heffect := translate_byte (O := O) hp
  unfold accessPart
  rw [show (Transfer.store v).acc = .write from rfl]
  cases hx : translate O p.lin .write s with
  | refuse e => trivial
  | raise info u =>
    rw [hx] at heffect
    exact heffect
  | done pa u =>
    rw [hx] at heffect
    exact (transfer_byte (hout pa u hx)).mono fun t ht => ht.trans heffect

/-- Two parts of a store leave a byte that neither translation may write and that lies outside both addresses they give. -/
theorem accessOrdered_byte {early : Bool} (hp : translationMayWrite s p.lin a = false)
    (hout : ∀ pa u, translate O p.lin .write s = .done pa u →
      (a < pa.toNat ∨ pa.toNat + p.len ≤ a) ∧
        translationMayWrite (afterFirst early (.store v) p pa u) q.lin a = false ∧
        ∀ qa w, translate O q.lin .write (afterFirst early (.store v) p pa u) = .done qa w →
          a < qa.toNat ∨ qa.toNat + q.len ≤ a) :
    (accessOrdered O early (.store v) p q s).Ends fun t => Memory.read t.mem a = Memory.read s.mem a := by
  have heffect := translate_byte (O := O) hp
  cases hx : translate O p.lin .write s with
  | refuse e =>
    rw [accessOrdered_refuse_first (x := .store v) hx]
    trivial
  | raise info u =>
    rw [hx] at heffect
    rw [accessOrdered_raise_first (x := .store v) hx]
    exact heffect
  | done pa u =>
    rw [hx] at heffect
    have hu : Memory.read u.mem a = Memory.read s.mem a := heffect
    obtain ⟨hpa, hq, hqa⟩ := hout pa u hx
    have hbetween := (afterFirst_byte (v := v) (s := u) early hpa).trans hu
    cases early with
    | true =>
      have hfirst : accessPart O (.store v) p s = transfer (.store v) p pa u := Attempt.andThen_of_done hx
      rw [accessOrdered, if_pos rfl, accessEarly, hfirst]
      refine transfer_afterFirst.andThen (fun _ h => h ▸ hbetween) fun _ w hw => ?_
      subst hw
      exact Attempt.Ends.andThen ((accessPart_byte hq hqa).mono fun t ht => ht.trans hbetween) (fun _ h => h)
        fun _ _ h => h
    | false =>
      have hlate : accessOrdered O false (.store v) p q s = (translate O q.lin .write u).andThen fun qa w =>
          (transfer (.store v) p pa w).andThen fun x t => (transfer (.store v) q qa t).andThen fun y t' =>
            .done (x ||| y) t' := Attempt.andThen_of_done hx
      have hsecond := translate_byte (O := O) (s := u) hq
      rw [hlate]
      cases hy : translate O q.lin .write u with
      | refuse e => trivial
      | raise info w =>
        rw [hy] at hsecond
        exact Eq.trans hsecond hu
      | done qa w =>
        rw [hy] at hsecond
        have hw : Memory.read w.mem a = Memory.read s.mem a := Eq.trans hsecond hu
        rw [Attempt.andThen_of_done rfl]
        refine Attempt.Ends.andThen ((transfer_byte hpa).mono fun t ht => ht.trans hw) (fun _ h => h) fun _ t ht => ?_
        exact Attempt.Ends.andThen ((transfer_byte (hqa qa w hy)).mono fun t' ht' => ht'.trans ht) (fun _ h => h)
          fun _ _ h => h

end

/-- What a write leaves of a byte is what its access leaves of it. -/
theorem writeLinear_byte {O : Oracle} {lin v : Word} {n : Nat} {s t : State} {a : Nat}
    (h : writeLinear O lin n v s = .next t)
    (hr : (access O (.store v) lin n s).Ends fun u => Memory.read u.mem a = Memory.read s.mem a) :
    Memory.read t.mem a = Memory.read s.mem a :=
  finish_mem (P := fun m => Memory.read m a = Memory.read s.mem a) h (fun _ _ => rfl) hr

/-- Settles O56: the frame of a write (`writeLinear_frame`), and the bytes outside the entries and the operand
(`accessPart_byte`). -/
theorem writeFrame : Obligations.WriteFrame := by
  intro s t lin n v hc h
  have h := writeLinear_of_writes h
  obtain ⟨hregs, hresults, hframe⟩ := writeLinear_frame h
  simp only [hc, Bool.false_eq_true, false_and, or_false] at hframe
  refine ⟨hregs, hresults, hframe, fun a ha hout => writeLinear_byte h ?_⟩
  rw [access_within _ _ s (writeLinear_admitted h) hc]
  exact accessPart_byte (p := ⟨lin, n, 0⟩) ha hout

/-- Settles O57: the frame of a write (`writeLinear_frame`), and the bytes outside the entries and the operand's parts, in
the order of the draw (`accessOrdered_byte`). -/
theorem writeAcrossPagesFrame : Obligations.WriteAcrossPagesFrame := by
  intro s t lin n v hc h
  have h := writeLinear_of_writes h
  obtain ⟨hregs, hresults, hframe⟩ := writeLinear_frame h
  simp only [hc, true_and] at hframe
  refine ⟨hregs, hresults, hframe, fun p q hpq a ha hout => writeLinear_byte h ?_⟩
  simp only [betweenParts_eq] at hout
  rw [access_across_inOrder _ s (writeLinear_admitted h) hc, ← hpq]
  exact accessOrdered_byte (s := s.tick) ha hout

end Sys2Proof.Machine
end
